-- ==== Sys2Proof/Word.lean ====
section
/-!
DEFINITION. The bit vectors of the block: bytes, register words and 64-bit device addresses.

A multi-byte register group (`ROM`, `SADDR`, `SDISC`, `FOUND`, `SENSOR`, `BUF`) is ONE little-endian
bit vector: byte `k` is bits `8k+7 .. 8k` (20_memory.md R63), so bit `i` of an address is bit
`i mod 8` of byte `i div 8` (00_scope.md R15).
-/

namespace Sys2Proof

/-- A byte (00_scope.md R7). -/
abbrev Byte := BitVec 8

/-- A register of the host window (00_scope.md R9). -/
abbrev Word := BitVec 32

/-- A device (ROM) address, or the discrepancy bitmap over its bits (00_scope.md R7). -/
abbrev Addr := BitVec 64

/-- The data buffer `BUF[0..15]` (10_state.md R22). -/
abbrev Buffer := BitVec 128

end Sys2Proof
end

