-- ==== Sys2Proof/Syntax.lean ====
section
/-!
DEFINITION. The instructions: one constructor per row of spec/opcode_table.json.

A host command carries the fields its row of 30_encoding.md R81 uses and no other (R82: a command
ignores every field its row does not list). The three reserved rows carry their OP. The five wire
commands are the bytes the block sends (R91); they have no operand field.
-/

namespace Sys2Proof

/-- The instruction set: host commands (30_encoding.md R85), reserved OP values (R90) and wire command
bytes (R91). -/
inductive Instr where
  /-- OP 0x00 (R240). -/
  | nop
  /-- OP 0x01 (R134). -/
  | owReset
  /-- OP 0x02 (R135). -/
  | owReadBit
  /-- OP 0x03 (R136). -/
  | owWriteBit (bitval : Bool)
  /-- OP 0x04 (R137). -/
  | owReadByte
  /-- OP 0x05 (R138). -/
  | owWriteByte (hold : Bool)
  /-- OP 0x06 (R201). -/
  | owSelect
  /-- OP 0x07 (R151). -/
  | searchInit
  /-- OP 0x08 (R161). -/
  | searchNext
  /-- OP 0x09 (R162). -/
  | searchAlarm
  /-- OP 0x0A (R186). -/
  | crcCheckRom
  /-- OP 0x0B (R187). -/
  | crc8Compute (seed : Bool) (len : BitVec 5)
  /-- OP 0x0C (R204). -/
  | rsWrite (len : BitVec 5)
  /-- OP 0x0D (R205). -/
  | rsRead (len : BitVec 5)
  /-- OP 0x0E (R221). -/
  | dsBind (force : Bool)
  /-- OP 0x0F (R223). -/
  | dsStart
  /-- OP 0x10 (R225). -/
  | dsRead
  /-- OP 0x11 (R228). -/
  | splitTemp
  /-- OP 0x12 or 0x13, reserved (R90). -/
  | reserved1213 (op : BitVec 5)
  /-- OP 0x14 to 0x17, reserved (R90). -/
  | reserved1417 (op : BitVec 5)
  /-- OP 0x18 to 0x1F, reserved (R90). -/
  | reserved181F (op : BitVec 5)
  /-- Wire byte 0xF0, "search all" (R91). -/
  | wireSearchRom
  /-- Wire byte 0xEC, "search devices in alarm state" (R91). -/
  | wireAlarmSearch
  /-- Wire byte 0x55, Select ROM (R91). -/
  | wireSelectRom
  /-- Wire byte 0x44, Convert (R91). -/
  | wireConvertT
  /-- Wire byte 0xBE, Read Scratchpad (R91). -/
  | wireReadScratchpad
  deriving DecidableEq, Repr

end Sys2Proof
end

