-- ==== Sys2Proof/WellFormed.lean ====
section
/-!
DEFINITION. When a term of `Instr` is an encodable instruction.

The only fields with a bound of their own are the OP values of the three reserved rows
(spec/opcode_table.json: 0x12-0x13, 0x14-0x17, 0x18-0x1F). `LEN` is a 5-bit field and every value of it
is encodable; a `LEN` above 16 is refused by the machine with `BadCommand`, not by the encoding
(30_encoding.md R83).
-/

namespace Sys2Proof

/-- The instruction has an encoding (30_encoding.md R81, R85, R91). -/
def Instr.wf : Instr → Bool
  | .reserved1213 op => 0x12#5 ≤ op && op ≤ 0x13#5
  | .reserved1417 op => 0x14#5 ≤ op && op ≤ 0x17#5
  | .reserved181F op => 0x18#5 ≤ op
  | .nop | .owReset | .owReadBit | .owWriteBit _ | .owReadByte | .owWriteByte _ | .owSelect
  | .searchInit | .searchNext | .searchAlarm | .crcCheckRom | .crc8Compute _ _
  | .rsWrite _ | .rsRead _ | .dsBind _ | .dsStart | .dsRead | .splitTemp
  | .wireSearchRom | .wireAlarmSearch | .wireSelectRom | .wireConvertT | .wireReadScratchpad => true

/-- The instruction is a word written to `CMD` (format HOSTCMD), not a byte sent on the wire (format
WIRECMD) (30_encoding.md R80). -/
def Instr.isHost : Instr → Bool
  | .wireSearchRom | .wireAlarmSearch | .wireSelectRom | .wireConvertT | .wireReadScratchpad => false
  | .reserved1213 _ | .reserved1417 _ | .reserved181F _
  | .nop | .owReset | .owReadBit | .owWriteBit _ | .owReadByte | .owWriteByte _ | .owSelect
  | .searchInit | .searchNext | .searchAlarm | .crcCheckRom | .crc8Compute _ _
  | .rsWrite _ | .rsRead _ | .dsBind _ | .dsStart | .dsRead | .splitTemp => true

end Sys2Proof
end

