-- ==== Sys2Proof/Decode.lean ====
section
/-!
DEFINITION. Decoding and encoding (30_encoding.md R80 to R92).

A host command word and a wire command byte are told apart by where they stand (written to `CMD`, or
sent on the wire), that is by their length. Decoding is total: every 32-bit word is a command (R90: the
OP values without a meaning are the reserved rows), and a byte that is no wire command is rejected by
name.
-/

namespace Sys2Proof

/-- Why bytes are no instruction. -/
inductive Reject where
  /-- one byte that is none of the five of 30_encoding.md R91 -/
  | notAWireCommand (b : Byte)
  /-- neither 4 bytes (HOSTCMD) nor 1 byte (WIRECMD), R80 -/
  | badLength (n : Nat)
  deriving DecidableEq, Repr

/-- Bit 0 is the least significant bit (00_scope.md R12): the bytes of a word, lowest first. -/
def wordBytes (w : Word) : List Byte :=
  [w.extractLsb' 0 8, w.extractLsb' 8 8, w.extractLsb' 16 8, w.extractLsb' 24 8]

/-- `OP = CUR[4:0]` (30_encoding.md R82). -/
def opField (w : Word) : BitVec 5 := w.extractLsb' 0 5
/-- `HOLD = CUR[8]`. -/
def holdField (w : Word) : Bool := w.getLsbD 8
/-- `BITVAL = CUR[9]`. -/
def bitvalField (w : Word) : Bool := w.getLsbD 9
/-- `FORCE = CUR[10]`. -/
def forceField (w : Word) : Bool := w.getLsbD 10
/-- `SEED = CUR[11]`. -/
def seedField (w : Word) : Bool := w.getLsbD 11
/-- `LEN = CUR[20:16]`. -/
def lenField (w : Word) : BitVec 5 := w.extractLsb' 16 5

/-- The command a word written to `CMD` asks for (30_encoding.md R85, R90). Bits 7:5, 15:12 and 31:21,
and fields that the command's row of R81 does not list, are not looked at (R82). -/
def decodeHost (w : Word) : Instr :=
  match (opField w).toNat with
  | 0x00 => .nop
  | 0x01 => .owReset
  | 0x02 => .owReadBit
  | 0x03 => .owWriteBit (bitvalField w)
  | 0x04 => .owReadByte
  | 0x05 => .owWriteByte (holdField w)
  | 0x06 => .owSelect
  | 0x07 => .searchInit
  | 0x08 => .searchNext
  | 0x09 => .searchAlarm
  | 0x0A => .crcCheckRom
  | 0x0B => .crc8Compute (seedField w) (lenField w)
  | 0x0C => .rsWrite (lenField w)
  | 0x0D => .rsRead (lenField w)
  | 0x0E => .dsBind (forceField w)
  | 0x0F => .dsStart
  | 0x10 => .dsRead
  | 0x11 => .splitTemp
  | 0x12 | 0x13 => .reserved1213 (opField w)
  | 0x14 | 0x15 | 0x16 | 0x17 => .reserved1417 (opField w)
  | _ => .reserved181F (opField w)

/-- The wire command a byte is (30_encoding.md R91). -/
def decodeWire (b : Byte) : Except Reject Instr :=
  match b.toNat with
  | 0xF0 => .ok .wireSearchRom
  | 0xEC => .ok .wireAlarmSearch
  | 0x55 => .ok .wireSelectRom
  | 0x44 => .ok .wireConvertT
  | 0xBE => .ok .wireReadScratchpad
  | _ => .error (.notAWireCommand b)

/-- The instruction that bytes stand for: 4 bytes are a HOSTCMD word, lowest byte first, and 1 byte is a
WIRECMD (30_encoding.md R80). -/
def decode : List Byte → Except Reject Instr
  | [b] => decodeWire b
  | [b0, b1, b2, b3] => .ok (decodeHost (b3 ++ b2 ++ b1 ++ b0))
  | bs => .error (.badLength bs.length)

/-- A HOSTCMD word from its fields, highest field first, reserved bits 0 (30_encoding.md R81). -/
def hostWord (op : BitVec 5) (hold bitval force seed : Bool) (len : BitVec 5) : Word :=
  0#11 ++ len ++ 0#4 ++ BitVec.ofBool seed ++ BitVec.ofBool force ++ BitVec.ofBool bitval
    ++ BitVec.ofBool hold ++ 0#3 ++ op

/-- A HOSTCMD word with every field but OP zero. -/
def plainWord (op : BitVec 5) : Word := hostWord op false false false false 0#5

/-- The command word of an instruction; the byte, zero-extended, for a wire command
(30_encoding.md R81, R85, R91). -/
def encodeWord : Instr → Word
  | .nop => plainWord 0x00#5
  | .owReset => plainWord 0x01#5
  | .owReadBit => plainWord 0x02#5
  | .owWriteBit v => hostWord 0x03#5 false v false false 0#5
  | .owReadByte => plainWord 0x04#5
  | .owWriteByte h => hostWord 0x05#5 h false false false 0#5
  | .owSelect => plainWord 0x06#5
  | .searchInit => plainWord 0x07#5
  | .searchNext => plainWord 0x08#5
  | .searchAlarm => plainWord 0x09#5
  | .crcCheckRom => plainWord 0x0A#5
  | .crc8Compute s n => hostWord 0x0B#5 false false false s n
  | .rsWrite n => hostWord 0x0C#5 false false false false n
  | .rsRead n => hostWord 0x0D#5 false false false false n
  | .dsBind f => hostWord 0x0E#5 false false f false 0#5
  | .dsStart => plainWord 0x0F#5
  | .dsRead => plainWord 0x10#5
  | .splitTemp => plainWord 0x11#5
  | .reserved1213 op => plainWord op
  | .reserved1417 op => plainWord op
  | .reserved181F op => plainWord op
  | .wireSearchRom => 0xF0#32
  | .wireAlarmSearch => 0xEC#32
  | .wireSelectRom => 0x55#32
  | .wireConvertT => 0x44#32
  | .wireReadScratchpad => 0xBE#32

/-- The bytes of an instruction: 4 for a host command, 1 for a wire command (30_encoding.md R80). -/
def encode (i : Instr) : List Byte :=
  if i.isHost then wordBytes (encodeWord i) else [(encodeWord i).extractLsb' 0 8]

/-- A row of at most 8 bits that reads as one of the five wire bytes is a WIRECMD row; any other row is
a HOSTCMD word, whose bits above the row's are 0 (log entry 25). -/
def tableWire (nbits w : Nat) : Option Byte :=
  if nbits ≤ 8 then
    match decode [BitVec.ofNat 8 w] with
    | .ok _ => some (BitVec.ofNat 8 w)
    | .error _ => none
  else none

/-- The instruction this decoder reads from an instruction whose bits are `w`, numbered as
spec/opcode_table.json numbers them. -/
def decodeTableWord (nbits w : Nat) : Option Instr :=
  if 32 < nbits then none
  else
    let bytes := match tableWire nbits w with
      | some b => [b]
      | none => wordBytes (BitVec.ofNat 32 w)
    match decode bytes with
    | .ok i => some i
    | .error _ => none

end Sys2Proof
end

