-- ==== Sys2Proof/Config.lean ====
section
/-!
DEFINITION. What an implementation or its surroundings fix, and the free values.

Every constant without a body is a value the spec leaves open: nothing can be proved about which
value it is. The timing parameters are those of 00_scope.md R8; no functional rule depends on them.
-/

namespace Sys2Proof

/-- The state of the block's drive on the data line, three values and no fourth (10_state.md R40). -/
inductive Line where
  | released
  | low
  | hold
  deriving DecidableEq, Repr, Inhabited

/-- What the bus answers to one bus event (10_state.md R41): the port outcome `OK` with the line level
(true = high; only `Bus.Sample` looks at it), or `ERR(code)` with an 8-bit code. -/
inductive BusReply where
  | ok (level : Bool)
  | err (code : Byte)
  deriving DecidableEq, Repr, Inhabited

/-- The named waits of the bus procedures (00_scope.md R8, 70_reset_and_hazards.md R296).
`tRpad` is the wait that pads a read slot to `T_RSLOT`. -/
inductive DelayName where
  | tWhpoll | tRstl | tPdwait | tPstep | tRstrem
  | tRl | tRs | tRpad
  | tW1l | tW1h | tW0l | tW0h
  deriving DecidableEq, Repr

namespace Config

/-- Upper bits of `OW_BASE`, a platform parameter (20_memory.md R61, OPEN). Its width, so the width of a
host address, is a DESIGN CHOICE: R61 gives none (log entry 10). -/
opaque owBasePage : BitVec 30

/-- `OW_BASE`, 4-byte aligned (20_memory.md R61); a host address is 32 bits wide (DESIGN CHOICE, log
entry 10). -/
def owBase : Word := owBasePage ++ 0#2

/-- `CLK_PER_US` less one: OPEN, at least 1 (00_scope.md R8, 93_implementation_defined.md U8). -/
opaque clkPerUsLess1 : Nat

/-- `CLK_PER_US`: block clocks per microsecond. -/
def clkPerUs : Nat := clkPerUsLess1 + 1

/-- `T_PDWAIT`: OPEN. -/
opaque tPdwaitUs : Nat
/-- `T_PSTEP`, about 10 µs. -/
opaque tPstepUs : Nat
/-- `T_RSTREM`, about 410 µs. -/
opaque tRstremUs : Nat
/-- `T_RS` less 2: the parameter lies in 2 … 10 µs. -/
opaque tRsLess2 : Fin 9
/-- `T_RSLOT` less 61: the parameter lies in 61 … 65 µs. -/
opaque tRslotLess61 : Fin 5
/-- `T_W1L`, about 10 µs. -/
opaque tW1lUs : Nat
/-- `T_W1H`, about 55 µs. -/
opaque tW1hUs : Nat
/-- `T_W0L`, about 65 µs. -/
opaque tW0lUs : Nat
/-- `T_W0H`, about 5 µs. -/
opaque tW0hUs : Nat

/-- `T_RS` in µs. -/
def tRsUs : Nat := 2 + tRsLess2.val

/-- `T_RSLOT` in µs. -/
def tRslotUs : Nat := 61 + tRslotLess61.val

/-- The length of each wait in µs (00_scope.md R8). The three exact values are the source's; the rest
are parameters that a claim must not assume. -/
def delayUs : DelayName → Nat
  | .tWhpoll => 2
  | .tRstl => 480
  | .tPdwait => tPdwaitUs
  | .tPstep => tPstepUs
  | .tRstrem => tRstremUs
  | .tRl => 3
  | .tRs => tRsUs
  | .tRpad => tRslotUs - 3 - tRsUs
  | .tW1l => tW1lUs
  | .tW1h => tW1hUs
  | .tW0l => tW0lUs
  | .tW0h => tW0hUs

/-- Free value: the bus reply to the n-th event that no queued reply answers
(93_implementation_defined.md U6). -/
opaque freeReply : Nat → BusReply

/-- Free value: `LINE` after the n-th failed bus event (93_implementation_defined.md U3). -/
opaque freeLine : Nat → Line

/-- Free value: what the n-th unspecified register read returns (93_implementation_defined.md U2, U9). -/
opaque freeRead : Nat → Word

/-- Free value: `BUF` after the n-th block reset of a run (93_implementation_defined.md U1). -/
opaque freeBuf : Nat → Buffer

/-- Free value: `CUR` after the n-th block reset of a run (93_implementation_defined.md U1). -/
opaque freeCur : Nat → Word

/-- Free value: the timebase after the n-th block reset of a run, which 10_state.md R55 does not give
(log entry 8). -/
opaque freeTimebase : Nat → Nat

end Config
end Sys2Proof
end

