-- ==== Sys2Proof/Machine/State.lean ====
section
/-!
DEFINITION. The state of the block (10_state.md), what is outside it as queues and logs, the reasons a
step can stop, and the state right after block reset (R55).

Fields that 10_state.md gives several registers or bits are stored once: `LINE` is `STATUS.LINE`, and a
multi-byte group is one little-endian bit vector. Register words are views of these fields
(Sys2Proof/Machine/Flags.lean, Operands.lean).
-/

namespace Sys2Proof.Machine

/-- `STATUS.ERR`: the seven codes; 7 to 15 are never written (60_exceptions.md R250). -/
inductive ErrCode where
  | none | wireNotHigh | crcMismatch | familyCodeMismatch | portError | noSensor | badCommand
  deriving DecidableEq, Repr

/-- `STATUS.SRCH_RESULT`: the six values; 6 and 7 are never written (10_state.md R35). -/
inductive SrchResult where
  | noResult | found | noneEnd | noneNoPresence | noneNoResponse | noneError
  deriving DecidableEq, Repr

/-- `STATUS.SPHASE`: the three values; 3 is never written (10_state.md R36). -/
inductive Phase where
  | initialized | deviceFound | ended
  deriving DecidableEq, Repr

/-- `SEQ ∈ {IDLE, BUSY(cmd, step)}` (10_state.md R23). `step` is the number of bus events the running
command has issued (log entry 15). -/
inductive Seq where
  | idle
  | busy (cmd : Word) (step : Nat)
  deriving DecidableEq, Repr

/-- The registers of the window by name, in offset order (10_state.md R20). -/
inductive Reg where
  | ctrl | cmd | status | errInfo | crc | data | romLo | romHi
  | saddrLo | saddrHi | sdiscLo | sdiscHi | foundLo | foundHi | sensorLo | sensorHi
  | sensorCfg | waitMs | tempRaw | tempSplit | buf0 | buf1 | buf2 | buf3
  deriving DecidableEq, Repr

/-- One host access to the window (20_memory.md R60, R68). `off` is the address less `OW_BASE`, the seven
bits the window spans; `lanes` says which byte lanes the access covers (all four for a 32-bit one). -/
inductive Access where
  | read (off : BitVec 7) (lanes : BitVec 4)
  | write (off : BitVec 7) (lanes : BitVec 4) (value : Word)
  deriving DecidableEq, Repr

/-- What comes from outside: a host access, or a level of the reset input `RST`
(70_reset_and_hazards.md R280). -/
inductive Event where
  | access (a : Access)
  | rst (asserted : Bool)
  deriving DecidableEq, Repr

/-- When an event lands. `whenIdle`: the host polls `STATUS.BUSY` first, so it never lands inside a
running command (70_reset_and_hazards.md R288). `after n`: if a command is running, `n` moments of that
command later (log entry 2). Between commands either lands at the next step. -/
inductive When where
  | whenIdle
  | after (n : Nat)
  deriving DecidableEq, Repr

/-- An event and the moment it lands. -/
structure Arrival where
  moment : When
  event : Event
  deriving DecidableEq, Repr

/-- The four bus primitives that are bus events (00_scope.md R16). -/
inductive Prim where
  | driveLow | release | hold | sample
  deriving DecidableEq, Repr

/-- What a test harness sees on the bus side (60_exceptions.md R266): events that completed `OK`, the
level of each sample, the waits, and an event that completed with `ERR(code)`. -/
inductive BusEvent where
  | driveLow
  | release
  | hold
  | sample (level : Bool)
  | delay (t : DelayName)
  | failed (p : Prim) (code : Byte)
  deriving DecidableEq, Repr

/-- The reply to a host read: the offset, the lanes asked for, and the value in those lanes (the other
lanes are not part of the reply and stand as 0, log entry 13). -/
structure Reply where
  off : BitVec 7
  lanes : BitVec 4
  value : Word
  deriving DecidableEq, Repr

/-- What is outside the block: the events still to land, the bus replies still to be observed, what the
block has put out (newest first), and how many free values of each kind have been drawn. The model's
own (log entries 1, 3, 12, 24). -/
structure World where
  inbox : List Arrival
  bus : List BusReply
  trace : List BusEvent
  replies : List Reply
  busDraws : Nat
  lineDraws : Nat
  readDraws : Nat
  resetDraws : Nat
  deriving DecidableEq, Repr

/-- The state of the block and of what surrounds it. -/
structure State where
  /-- `CTRL.PARASITE` (R25) -/
  parasite : Bool
  /-- `CTRL.RES` (R26) -/
  res : BitVec 2
  /-- `STATUS.BUSY` (R29) -/
  busy : Bool
  /-- `STATUS.PRESENCE` (R30) -/
  presence : Bool
  /-- `STATUS.CRC_OK` (R31) -/
  crcOk : Bool
  /-- `STATUS.SENSOR_VALID` (R32, R49) -/
  sensorValid : Bool
  /-- `STATUS.OVR` (R33) -/
  ovr : Bool
  /-- `STATUS.ERR` (R34) -/
  err : ErrCode
  /-- `STATUS.SRCH_RESULT` (R35) -/
  srchResult : SrchResult
  /-- `STATUS.SPHASE` (R36) -/
  sphase : Phase
  /-- `LINE`, mirrored in `STATUS.LINE` (R37, R40) -/
  line : Line
  /-- `ERR_INFO[15:0]` (R38) -/
  errInfo : BitVec 16
  /-- `CRC.COMPUTED` (R39) -/
  crcComputed : Byte
  /-- `CRC.EXPECTED` (R39) -/
  crcExpected : Byte
  /-- `DATA` (R21) -/
  data : Word
  /-- `ROM[0..7]` (R22) -/
  rom : Addr
  /-- `BUF[0..15]` (R22) -/
  buf : Buffer
  /-- `SADDR[0..7]` (R42) -/
  saddr : Addr
  /-- `SDISC[0..7]` (R43) -/
  sdisc : Addr
  /-- `FOUND[0..7]` (R46) -/
  found : Addr
  /-- `SENSOR[0..7]` (R47) -/
  sensor : Addr
  /-- `SENSOR_CFG.RES` (R48) -/
  sensorRes : BitVec 2
  /-- `WAIT_MS[15:0]` (R50) -/
  waitMs : BitVec 16
  /-- `TEMP_RAW[15:0]` (R51) -/
  tempRaw : BitVec 16
  /-- `TEMP_SPLIT` (R52) -/
  tempSplit : Word
  /-- `CUR`, the latched command word (R53) -/
  cur : Word
  /-- `SEQ` (R23, R53) -/
  seq : Seq
  /-- the timebase of `Delay`, in block clocks (R53, 60_exceptions.md R263) -/
  timebase : Nat
  /-- the level of the reset input (70_reset_and_hazards.md R280) -/
  rst : Bool
  /-- the wire command byte the next step sends by itself (log entry 11) -/
  wireCmd : Option Byte
  /-- what is outside the block -/
  world : World
  deriving DecidableEq, Repr

/-- Why the machine stops. -/
inductive Fault where
  /-- Raised by `step` when `wireCmd` holds a byte that is none of the five wire commands
  (30_encoding.md R91: "The block sends exactly these five wire command bytes and no other"). No run
  from reset reaches it. Safe: the machine stops where the spec has no behaviour. -/
  | notAWireCommand (b : Byte)
  deriving DecidableEq, Repr

/-- Why an instruction has no meaning. -/
inductive Refusal where
  /-- Raised by an arm of `exec` whose instruction has no meaning yet; no arm is left. Safe. -/
  | notModelled (mnemonic : String)
  deriving DecidableEq, Repr

/-- Nothing queued, nothing put out, no free value drawn (log entries 1, 3, 12, 24). -/
def World.empty : World where
  inbox := []
  bus := []
  trace := []
  replies := []
  busDraws := 0
  lineDraws := 0
  readDraws := 0
  resetDraws := 0

/-- The block right after block reset (10_state.md R55, 70_reset_and_hazards.md R280, R283).
`buf` and `cur` are unspecified by R55; the zeros are a DESIGN CHOICE (log entries 6, 7), as is the
zero of `timebase` (log entry 8). -/
def State.reset : State where
  parasite := false
  res := 3
  busy := false
  presence := false
  crcOk := false
  sensorValid := false
  ovr := false
  err := .none
  srchResult := .noResult
  sphase := .initialized
  line := .released
  errInfo := 0
  crcComputed := 0
  crcExpected := 0
  data := 0
  rom := 0
  buf := 0
  saddr := 0
  sdisc := 0
  found := 0
  sensor := 0
  sensorRes := 3
  waitMs := 0
  tempRaw := 0
  tempSplit := 0
  cur := 0
  seq := .idle
  timebase := 0
  rst := false
  wireCmd := none
  world := World.empty

end Sys2Proof.Machine
end

