-- ==== Sys2Proof/Machine/Operands.lean ====
section
/-!
DEFINITION. Operand forms: bytes and bits of multi-byte groups (20_memory.md R63, 00_scope.md R15), the
register map (10_state.md R20), and the words a host read returns for the registers that are not
`STATUS`.
-/

namespace Sys2Proof.Machine

/-- Byte `k` of a little-endian group (20_memory.md R63). -/
def byteAt {n : Nat} (v : BitVec n) (k : Nat) : Byte := v.extractLsb' (8 * k) 8

/-- A little-endian group with byte `k` replaced (20_memory.md R63). -/
def setByte {n : Nat} (v : BitVec n) (k : Nat) (b : Byte) : BitVec n :=
  (v &&& ~~~((0xFF#8).setWidth n <<< (8 * k))) ||| (b.setWidth n <<< (8 * k))

/-- The first `count` bytes of a group, in ascending index (20_memory.md R62). -/
def firstBytes {n : Nat} (v : BitVec n) (count : Nat) : List Byte :=
  (List.range count).map (byteAt v)

/-- The eight bytes of an address, byte 0 (the family code) first (30_encoding.md R93). -/
def addrBytes (a : Addr) : List Byte := firstBytes a 8

/-- Word `k` of a group: bytes `4k` to `4k+3` (20_memory.md R63). -/
def wordAt {n : Nat} (v : BitVec n) (k : Nat) : Word := v.extractLsb' (32 * k) 32

/-- A group with word `k` replaced. -/
def setWord {n : Nat} (v : BitVec n) (k : Nat) (w : Word) : BitVec n :=
  (v &&& ~~~((0xFFFFFFFF#32).setWidth n <<< (32 * k))) ||| (w.setWidth n <<< (32 * k))

/-- An address or bitmap with bit `i` replaced (00_scope.md R15). -/
def setBit (v : Addr) (i : Nat) (b : Bool) : Addr :=
  if b then v ||| (1#64 <<< i) else v &&& ~~~(1#64 <<< i)

/-- The highest set bit below `n`, if any. -/
def highestBelow (v : Addr) : Nat → Option Nat
  | 0 => none
  | n + 1 => if v.getLsbD n then some n else highestBelow v n

/-- `lastDiscrepancy(SDISC)`: the highest index with a set bit, or none when the bitmap is 0
(41_device_search.md R150). -/
def lastDiscrepancy (sdisc : Addr) : Option Nat := highestBelow sdisc 64

/-- The register map, in offset order: entry `n` stands at offset `4n` (10_state.md R20). -/
def regMap : List Reg :=
  [.ctrl, .cmd, .status, .errInfo, .crc, .data, .romLo, .romHi,
   .saddrLo, .saddrHi, .sdiscLo, .sdiscHi, .foundLo, .foundHi, .sensorLo, .sensorHi,
   .sensorCfg, .waitMs, .tempRaw, .tempSplit, .buf0, .buf1, .buf2, .buf3]

/-- The register at an offset: bits `[6:2]` are decoded, bits `[1:0]` ignored; none for the reserved
offsets 0x60 to 0x7F (20_memory.md R61, R65, R68). -/
def regAt (off : BitVec 7) : Option Reg := regMap[(off.extractLsb' 2 5).toNat]?

/-- The offset of a host address in the window, if it lies there: the platform's decoder takes `OW_BASE`
away (20_memory.md R61, R70). That a host address is 32 bits wide, and that the window may lie across the
top of the address space, is a DESIGN CHOICE (log entry 10). -/
def windowOffset (addr : Word) : Option (BitVec 7) :=
  if (addr - Config.owBase).toNat < 0x80 then some ((addr - Config.owBase).setWidth 7) else none

/-- The lanes of a word an access covers; the other lanes stand as 0 (20_memory.md R68). -/
def laneMask (lanes : BitVec 4) (w : Word) : Word :=
  w &&& ((if lanes.getLsbD 3 then 0xFF#8 else 0#8) ++ (if lanes.getLsbD 2 then 0xFF#8 else 0#8)
    ++ (if lanes.getLsbD 1 then 0xFF#8 else 0#8) ++ (if lanes.getLsbD 0 then 0xFF#8 else 0#8))

end Sys2Proof.Machine
end

