-- ==== Sys2Proof/Machine/Flags.lean ====
section
/-!
DEFINITION. The status word and its fields, the words of the other registers, the CRC-8 function and the
CRC evaluation that writes `CRC` and `STATUS.CRC_OK`.
-/

namespace Sys2Proof.Machine

/-- The code of an error in `STATUS.ERR` (60_exceptions.md R250). -/
def ErrCode.toBits : ErrCode → BitVec 4
  | .none => 0
  | .wireNotHigh => 1
  | .crcMismatch => 2
  | .familyCodeMismatch => 3
  | .portError => 4
  | .noSensor => 5
  | .badCommand => 6

/-- The code of a search result in `STATUS.SRCH_RESULT` (10_state.md R35). -/
def SrchResult.toBits : SrchResult → BitVec 3
  | .noResult => 0
  | .found => 1
  | .noneEnd => 2
  | .noneNoPresence => 3
  | .noneNoResponse => 4
  | .noneError => 5

/-- The code of a search phase in `STATUS.SPHASE` (10_state.md R36). -/
def Phase.toBits : Phase → BitVec 2
  | .initialized => 0
  | .deviceFound => 1
  | .ended => 2

/-- The code of a line state in `STATUS.LINE` (10_state.md R37). -/
def lineBits : Line → BitVec 2
  | .released => 0
  | .low => 1
  | .hold => 2

/-- The word a read of `STATUS` returns, highest field first; bits 31:20, 15 and 7:5 read 0
(10_state.md R29 to R37). -/
def statusWord (s : State) : Word :=
  0#12 ++ lineBits s.line ++ s.sphase.toBits ++ 0#1 ++ s.srchResult.toBits ++ s.err.toBits ++ 0#3
    ++ BitVec.ofBool s.ovr ++ BitVec.ofBool s.sensorValid ++ BitVec.ofBool s.crcOk
    ++ BitVec.ofBool s.presence ++ BitVec.ofBool s.busy

/-- The word each register holds (10_state.md R20 to R52). `CMD` reads 0 (R28); undefined bits read 0. -/
def regWord (s : State) : Reg → Word
  | .ctrl => 0#29 ++ s.res ++ BitVec.ofBool s.parasite
  | .cmd => 0
  | .status => statusWord s
  | .errInfo => s.errInfo.setWidth 32
  | .crc => 0#16 ++ s.crcExpected ++ s.crcComputed
  | .data => s.data
  | .romLo => wordAt s.rom 0
  | .romHi => wordAt s.rom 1
  | .saddrLo => wordAt s.saddr 0
  | .saddrHi => wordAt s.saddr 1
  | .sdiscLo => wordAt s.sdisc 0
  | .sdiscHi => wordAt s.sdisc 1
  | .foundLo => wordAt s.found 0
  | .foundHi => wordAt s.found 1
  | .sensorLo => wordAt s.sensor 0
  | .sensorHi => wordAt s.sensor 1
  | .sensorCfg => s.sensorRes.setWidth 32
  | .waitMs => s.waitMs.setWidth 32
  | .tempRaw => s.tempRaw.setWidth 32
  | .tempSplit => s.tempSplit
  | .buf0 => wordAt s.buf 0
  | .buf1 => wordAt s.buf 1
  | .buf2 => wordAt s.buf 2
  | .buf3 => wordAt s.buf 3

/-- One bit step of the CRC: feedback 0x8C, least-significant bit first (42_crc8.md R180). -/
def crcBit (crc b : Byte) : Byte :=
  if ((crc ^^^ b) &&& 1#8) = 1#8 then (crc >>> 1) ^^^ 0x8C#8 else crc >>> 1

/-- The bit steps of one byte; the byte is shifted right after each. -/
def crcBits : Nat → Byte → Byte → Byte
  | 0, crc, _ => crc
  | n + 1, crc, b => crcBits n (crcBit crc b) (b >>> 1)

/-- The eight bit steps of one byte (42_crc8.md R180). -/
def crcByte (crc b : Byte) : Byte := crcBits 8 crc b

/-- `crc8(s, m)`: the bytes of `m` in order, from the start value `seed` (42_crc8.md R180). -/
def crc8 (seed : Byte) (m : List Byte) : Byte := m.foldl crcByte seed

/-- `crc8(m)`: from start value 0, as every use in the block is (42_crc8.md R180). -/
def crc8z (m : List Byte) : Byte := crc8 0 m

/-- The CRC of an address's bytes 0 to 6 (42_crc8.md R184). -/
def addrCrc (a : Addr) : Byte := crc8z (firstBytes a 7)

/-- `CrcEval(computed, expected)`: the one place that writes `CRC` and `STATUS.CRC_OK`
(42_crc8.md R183). -/
def State.crcEval (computed expected : Byte) (s : State) : State :=
  { s with crcComputed := computed, crcExpected := expected, crcOk := computed == expected }

end Sys2Proof.Machine
end

