-- ==== Sys2Proof/Machine/HostPort.lean ====
section
/-!
DEFINITION. What comes from outside: host reads and writes of the register window (20_memory.md), the
reset input (70_reset_and_hazards.md R280), and the events that land at one moment of a running command.
-/

namespace Sys2Proof.Machine

/-- An unspecified register read: the next free value, each read its own
(93_implementation_defined.md U2, U9; log entry 5). -/
def unspecifiedRead (s : State) : Word := Config.freeRead s.world.readDraws

/-- Records the reply to a host read, with `draws` free values used up. -/
def reply (off : BitVec 7) (lanes : BitVec 4) (value : Word) (draws : Nat) (s : State) : State :=
  { s with world := { s.world with
      replies := ⟨off, lanes, laneMask lanes value⟩ :: s.world.replies
      readDraws := s.world.readDraws + draws } }

/-- A host read. It changes no register (20_memory.md R69). While `RST` is asserted the value is
unspecified (70_reset_and_hazards.md R280); at a reserved offset it is 0 (R65); while `BUSY`, a register
other than `STATUS` reads an unspecified value (R67). -/
def hostRead (off : BitVec 7) (lanes : BitVec 4) (s : State) : State :=
  if s.rst then reply off lanes (unspecifiedRead s) 1 s
  else match regAt off with
    | none => reply off lanes 0 0 s
    | some .status => reply off lanes (statusWord s) 0 s
    | some r =>
      if s.busy then reply off lanes (unspecifiedRead s) 1 s
      else reply off lanes (regWord s r) 0 s

/-- The registers a host write stores to, and those whose write is dropped while `BUSY`
(20_memory.md R66): everything but `STATUS` and the read-only registers. -/
def Reg.dropsWhileBusy : Reg → Bool
  | .ctrl | .cmd | .data | .romLo | .romHi | .buf0 | .buf1 | .buf2 | .buf3 => true
  | .status | .errInfo | .crc | .saddrLo | .saddrHi | .sdiscLo | .sdiscHi | .foundLo | .foundHi
  | .sensorLo | .sensorHi | .sensorCfg | .waitMs | .tempRaw | .tempSplit => false

/-- A 32-bit write to a register of an idle block (10_state.md R20). Reserved bits of `CTRL` are ignored
(R27); read-only registers ignore writes (R20); a write to `STATUS` clears `OVR` when bit 4 is 1 and
does nothing else (R33, R37). A write to `CMD` starts a command: `step` runs it, not this function. -/
def storeReg (r : Reg) (v : Word) (s : State) : State :=
  match r with
  | .ctrl => { s with parasite := v.getLsbD 0, res := v.extractLsb' 1 2 }
  | .data => { s with data := v }
  | .romLo => { s with rom := setWord s.rom 0 v }
  | .romHi => { s with rom := setWord s.rom 1 v }
  | .buf0 => { s with buf := setWord s.buf 0 v }
  | .buf1 => { s with buf := setWord s.buf 1 v }
  | .buf2 => { s with buf := setWord s.buf 2 v }
  | .buf3 => { s with buf := setWord s.buf 3 v }
  | .status => { s with ovr := s.ovr && !v.getLsbD 4 }
  | .cmd | .errInfo | .crc | .saddrLo | .saddrHi | .sdiscLo | .sdiscHi | .foundLo | .foundHi
  | .sensorLo | .sensorHi | .sensorCfg | .waitMs | .tempRaw | .tempSplit => s

/-- A host write. Ignored while `RST` is asserted (70_reset_and_hazards.md R280), unless all four byte
lanes are written (20_memory.md R68), and at a reserved offset (R65). While `BUSY`, a write to `CMD`,
`CTRL`, `DATA`, `ROM_*` or `BUF*` is dropped and sets `OVR` (R66). -/
def hostWrite (off : BitVec 7) (lanes : BitVec 4) (v : Word) (s : State) : State :=
  if s.rst || lanes != 0xF#4 then s
  else match regAt off with
    | none => s
    | some r => if s.busy && r.dropsWhileBusy then { s with ovr := true } else storeReg r v s

/-- One host access. -/
def hostAccess (a : Access) (s : State) : State :=
  match a with
  | .read off lanes => hostRead off lanes s
  | .write off lanes v => hostWrite off lanes v s

/-- The command word that an access asks the block to run: a 32-bit write to `CMD` of a block that is
idle and not held in reset (30_encoding.md R86; 20_memory.md R66, R68; 70_reset_and_hazards.md R280). -/
def commandWord (a : Access) (s : State) : Option Word :=
  match a with
  | .read _ _ => none
  | .write off lanes v =>
    if !s.rst && !s.busy && lanes == 0xF#4 && regAt off == some .cmd then some v else none

/-- The values block reset gives (10_state.md R55): those of `State.reset`, with `BUF` and `CUR`
unspecified (93_implementation_defined.md U1; log entries 6, 7) and the timebase, which R55 does not
list, free too (log entry 8). The line drive is released directly,
with no bus event (70_reset_and_hazards.md R280). What is outside the block stays. -/
def blockReset (level : Bool) (s : State) : State :=
  { State.reset with
    rst := level
    buf := Config.freeBuf s.world.resetDraws
    cur := Config.freeCur s.world.resetDraws
    timebase := Config.freeTimebase s.world.resetDraws
    world := { s.world with resetDraws := s.world.resetDraws + 1 } }

/-- A level of the reset input: asserting it, and releasing it, gives every piece of state its reset
value (70_reset_and_hazards.md R280). A low level of an input that is low already changes nothing
(log entry 21). -/
def setRst (level : Bool) (s : State) : State :=
  if level || s.rst then blockReset level s else s

/-- The state with these events still to land. -/
def State.withInbox (rest : List Arrival) (s : State) : State :=
  { s with world := { s.world with inbox := rest } }

/-- The events that land at one moment of a running command, in order (log entry 2): every event that is
due; an event due later is one moment nearer. The flag says that `RST` was asserted: the command is
abandoned, and the events after it are still to land. -/
def landAll : List Arrival → State → Bool × State
  | [], s => (false, s.withInbox [])
  | ⟨.whenIdle, e⟩ :: rest, s => (false, s.withInbox (⟨.whenIdle, e⟩ :: rest))
  | ⟨.after (n + 1), e⟩ :: rest, s => (false, s.withInbox (⟨.after n, e⟩ :: rest))
  | ⟨.after 0, .access a⟩ :: rest, s => landAll rest (hostAccess a s)
  | ⟨.after 0, .rst true⟩ :: rest, s => (true, setRst true (s.withInbox rest))
  | ⟨.after 0, .rst false⟩ :: rest, s => landAll rest (setRst false s)

end Sys2Proof.Machine
end

