-- ==== Sys2Proof/Machine/Ops.lean ====
section
/-!
DEFINITION. The shared operations: steps of a running command, the bus primitives (00_scope.md R16,
40_bit_transport.md R120 to R125), raising an error and what completion records (60_exceptions.md R251),
and the frame of every command: acceptance and completion (30_encoding.md R86).
-/

namespace Sys2Proof.Machine

/-- The error kinds with their detail (60_exceptions.md R250). -/
inductive Error where
  | wireNotHigh
  | crcMismatch (computed expected : Byte)
  | familyCodeMismatch (expected actual : Byte)
  | portError (code : Byte)
  | noSensor
  | badCommand
  deriving DecidableEq, Repr

/-- `code(E)` (60_exceptions.md R250). -/
def Error.code : Error → ErrCode
  | .wireNotHigh => .wireNotHigh
  | .crcMismatch _ _ => .crcMismatch
  | .familyCodeMismatch _ _ => .familyCodeMismatch
  | .portError _ => .portError
  | .noSensor => .noSensor
  | .badCommand => .badCommand

/-- `info(E)`: `ERR_INFO[15:8]` and `ERR_INFO[7:0]` (60_exceptions.md R250). -/
def Error.info : Error → BitVec 16
  | .wireNotHigh => 0
  | .crcMismatch computed expected => expected ++ computed
  | .familyCodeMismatch expected actual => actual ++ expected
  | .portError code => 0#8 ++ code
  | .noSensor => 0
  | .badCommand => 0

/-- Why a running command ends early: it raised an error, or `RST` abandoned it
(70_reset_and_hazards.md R281). -/
inductive Stop where
  | raised (e : Error)
  | abandoned
  deriving DecidableEq, Repr

/-- A piece of a running command: it returns a value and the state, or it stops with the state as it
stands (00_scope.md R17: "state written before the raise keeps its value"). -/
abbrev Op := EStateM Stop State

/-- `raise E` (00_scope.md R17). -/
def raise {α : Type} (e : Error) : Op α := throw (.raised e)

/-- A moment of a running command: the events that are due land (log entry 2). -/
def moment : Op Unit := fun s =>
  match landAll s.world.inbox s with
  | (false, t) => .ok () t
  | (true, t) => .error .abandoned t

/-- One bus event later (10_state.md R23; log entry 15). -/
def Seq.next : Seq → Seq
  | .idle => .idle
  | .busy cmd n => .busy cmd (n + 1)

/-- Records a bus event or a wait. -/
def State.record (e : BusEvent) (s : State) : State :=
  { s with world := { s.world with trace := e :: s.world.trace } }

/-- The reply to the next bus event: the next queued one, or a free value
(10_state.md R41; log entry 3). -/
def State.nextReply (s : State) : BusReply × State :=
  match s.world.bus with
  | r :: rest => (r, { s with world := { s.world with bus := rest } })
  | [] => (Config.freeReply s.world.busDraws,
      { s with world := { s.world with busDraws := s.world.busDraws + 1 } })

/-- `LINE` after a failed primitive: a free value of the three (40_bit_transport.md R125, log entry 4). -/
def State.loseLine (s : State) : State :=
  { s with
    line := Config.freeLine s.world.lineDraws
    world := { s.world with lineDraws := s.world.lineDraws + 1 } }

/-- The outcome of one bus event: on `OK` it is seen on the bus and returns the level; on `ERR(code)` the
command ends with `PortError(code)` instead of the event's effect (40_bit_transport.md R125,
60_exceptions.md R254). -/
def takeReply (p : Prim) (seen : Bool → BusEvent) : Op Bool := fun s =>
  let t := { s.nextReply.2 with seq := s.seq.next }
  match s.nextReply.1 with
  | .ok level => .ok level (t.record (seen level))
  | .err code => .error (.raised (.portError code)) (t.record (.failed p code)).loseLine

/-- One bus event, at a moment at which events from outside may land first (log entry 2). -/
def busEvent (p : Prim) (seen : Bool → BusEvent) : Op Bool := do
  moment
  takeReply p seen

/-- `Bus.DriveLow()` (40_bit_transport.md R120). -/
def driveLow : Op Unit := do
  let _ ← busEvent .driveLow fun _ => .driveLow
  modify fun s => { s with line := .low }

/-- `Bus.Release()` (40_bit_transport.md R121). -/
def release : Op Unit := do
  let _ ← busEvent .release fun _ => .release
  modify fun s => { s with line := .released }

/-- `Bus.Hold()` (40_bit_transport.md R122). -/
def holdHigh : Op Unit := do
  let _ ← busEvent .hold fun _ => .hold
  modify fun s => { s with line := .hold }

/-- `Bus.Sample()`: the line level; `LINE` unchanged (40_bit_transport.md R123). -/
def sample : Op Bool := busEvent .sample .sample

/-- `Delay(t)`: the timebase counts `t`; no bus event, cannot fail (40_bit_transport.md R124). -/
def delay (t : DelayName) : Op Unit := do
  moment
  modify fun s =>
    { s.record (.delay t) with timebase := s.timebase + Config.delayUs t * Config.clkPerUs }

/-- What a raise records (60_exceptions.md R251): the code and the detail; for a search also
`SRCH_RESULT <- NONE_ERROR`. Nothing else is saved and nothing is restored. -/
def recordError (isSearch : Bool) (e : Error) (s : State) : State :=
  { s with
    err := e.code
    errInfo := e.info
    srchResult := if isSearch then .noneError else s.srchResult }

/-- Acceptance of the latched word: `ERR <- NONE`, `BUSY <- 1`, `SEQ <- BUSY(CUR, 0)`
(30_encoding.md R86). This is also the only return from an error (60_exceptions.md R256): `ERR` is
cleared, `ERR_INFO` keeps its value. -/
def accept (s : State) : State :=
  { s with err := .none, busy := true, seq := .busy s.cur 0 }

/-- Completion: `BUSY <- 0`, `SEQ <- IDLE` (30_encoding.md R86, 60_exceptions.md R251). -/
def complete (s : State) : State := { s with busy := false, seq := .idle }

/-- The state a command leaves: after it returned or raised the block is idle (recording an error and going
idle is one point, DESIGN CHOICE, log entry 2); a command that `RST`
abandoned records nothing (70_reset_and_hazards.md R281). -/
def finish (isSearch : Bool) : EStateM.Result Stop State Unit → State
  | .ok () s => complete s
  | .error (.raised e) s => complete (recordError isSearch e s)
  | .error .abandoned s => s

/-- A body, and one more moment before completion, whether the body returned or raised: an access in the
clock of the completion may still see `BUSY = 1` with every write of the command done
(60_exceptions.md R260, 20_memory.md R67; log entries 2, 16). A body that `RST` abandoned has no
completion (70_reset_and_hazards.md R281). -/
def landLast (body : Op Unit) : Op Unit := fun s =>
  match body.run s with
  | .ok () s => moment.run s
  | .error (.raised e) s =>
    match moment.run s with
    | .ok () t => .error (.raised e) t
    | .error f t => .error f t
  | .error .abandoned s => .error .abandoned s

/-- The body of a command between a moment just after acceptance and one just before completion
(log entry 2). -/
def bracket (body : Op Unit) : Op Unit := do
  moment
  landLast body

/-- One host command from acceptance to completion (30_encoding.md R86, 70_reset_and_hazards.md R290). -/
def runCommand (isSearch : Bool) (body : Op Unit) (s : State) :
    Host.Outcome State Fault Refusal :=
  .next (finish isSearch ((bracket body).run (accept s)))

/-- A `LEN` above 16 raises `BadCommand` at acceptance (30_encoding.md R83, 60_exceptions.md R253). -/
def checkLen (len : BitVec 5) : Op Unit :=
  if 16 < len.toNat then raise .badCommand else pure ()

/-- `SENSOR_VALID = 0` raises `NoSensor` at acceptance (30_encoding.md R86, 60_exceptions.md R253). -/
def checkSensor : Op Unit := do
  if (← get).sensorValid then pure () else raise .noSensor

end Sys2Proof.Machine
end

