-- ==== Sys2Proof/Machine/Control.lean ====
section
/-!
DEFINITION. NOP (45_control.md) and the reserved OP values (30_encoding.md R90).
-/

namespace Sys2Proof.Machine

/-- `NOP`: nothing beyond acceptance (45_control.md R240). -/
def execNop (s : State) : Host.Outcome State Fault Refusal := runCommand false (pure ()) s

/-- OP 0x12 and 0x13: `BadCommand` at acceptance, no other effect (30_encoding.md R90). -/
def execReserved1213 (_op : BitVec 5) (s : State) : Host.Outcome State Fault Refusal :=
  runCommand false (raise .badCommand) s

/-- OP 0x14 to 0x17: `BadCommand` at acceptance, no other effect (30_encoding.md R90). -/
def execReserved1417 (_op : BitVec 5) (s : State) : Host.Outcome State Fault Refusal :=
  runCommand false (raise .badCommand) s

/-- OP 0x18 to 0x1F: `BadCommand` at acceptance, no other effect (30_encoding.md R90). -/
def execReserved181F (_op : BitVec 5) (s : State) : Host.Outcome State Fault Refusal :=
  runCommand false (raise .badCommand) s

end Sys2Proof.Machine
end

