-- ==== Sys2Proof/Machine/Crc.lean ====
section
/-!
DEFINITION. The CRC-8 commands (42_crc8.md R186, R187).
-/

namespace Sys2Proof.Machine

/-- Evaluates a CRC and raises `CrcMismatch` when the two differ (42_crc8.md R183, R186). -/
def checkCrc (computed expected : Byte) : Op Unit := do
  modify (State.crcEval computed expected)
  if computed = expected then pure () else raise (.crcMismatch computed expected)

/-- `CRC_CHECK_ROM` (42_crc8.md R186). -/
def execCrcCheckRom (s : State) : Host.Outcome State Fault Refusal :=
  runCommand false (do
    let a := (← get).rom
    checkCrc (addrCrc a) (byteAt a 7)) s

/-- The bytes `CRC8_COMPUTE` covers: `ROM[0..7]` first when `SEED = 1`, then `BUF[0..LEN-1]`
(42_crc8.md R187). -/
def crcInput (seed : Bool) (len : BitVec 5) (s : State) : List Byte :=
  (if seed then addrBytes s.rom else []) ++ firstBytes s.buf len.toNat

/-- `CRC8_COMPUTE`: reports, with expected 0, and raises nothing but `BadCommand` (42_crc8.md R187). -/
def execCrc8Compute (seed : Bool) (len : BitVec 5) (s : State) :
    Host.Outcome State Fault Refusal :=
  runCommand false (do
    checkLen len
    modify fun s => s.crcEval (crc8z (crcInput seed len s)) 0) s

end Sys2Proof.Machine
end

