-- ==== Sys2Proof/Machine/Bus.lean ====
section
/-!
DEFINITION. The bus procedures that several commands share: the wire-high check, the bus reset with
presence detection, read and write slots, bytes (40_bit_transport.md R127 to R133), the five wire command
bytes (30_encoding.md R91), Select ROM and the transaction (43_select_transactions.md R200, R203).
-/

namespace Sys2Proof.Machine

/-- `N_WH`: wire-high polls before a reset (00_scope.md R8). -/
def nWh : Nat := 125

/-- `N_PRES`: presence samples (00_scope.md R8). -/
def nPres : Nat := 7

/-- The polls of the wire-high check: the first high sample ends it, and when none is left it raises
`WireNotHigh` (40_bit_transport.md R127). -/
def pollWireHigh : Nat → Op Unit
  | 0 => raise .wireNotHigh
  | n + 1 => do
    if ← sample then pure ()
    else do
      delay .tWhpoll
      pollWireHigh n

/-- `EnsureWireHigh()` (40_bit_transport.md R127). -/
def ensureWireHigh : Op Unit := do
  if (← get).line ≠ .released then release
  pollWireHigh nWh

/-- The presence window: every sample is taken, a low one is a presence pulse
(40_bit_transport.md R128). -/
def presenceWindow : Nat → Bool → Op Bool
  | 0, p => pure p
  | n + 1, p => do
    delay .tPstep
    let level ← sample
    presenceWindow n (p || !level)

/-- `BusReset()`: returns and records the presence (40_bit_transport.md R128). -/
def busReset : Op Bool := do
  ensureWireHigh
  driveLow
  delay .tRstl
  release
  delay .tPdwait
  let p ← presenceWindow nPres false
  delay .tRstrem
  modify fun s => { s with presence := p }
  return p

/-- `ReadSlot()` (40_bit_transport.md R129; the level is the bit, R126). -/
def readSlot : Op Bool := do
  driveLow
  delay .tRl
  release
  delay .tRs
  let b ← sample
  delay .tRpad
  return b

/-- `WriteSlot(v)` (40_bit_transport.md R130). -/
def writeSlot (v : Bool) : Op Unit := do
  driveLow
  delay (if v then .tW1l else .tW0l)
  release
  delay (if v then .tW1h else .tW0h)

/-- `n` read slots, the bit of the first at position `i`, added to `acc` (40_bit_transport.md R132). -/
def readBits : Nat → Nat → Byte → Op Byte
  | 0, _, acc => pure acc
  | n + 1, i, acc => do
    let b ← readSlot
    readBits n (i + 1) (acc ||| (if b then 1#8 <<< i else 0#8))

/-- `ReadByteSeq()` (40_bit_transport.md R132). -/
def readByteSeq : Op Byte := readBits 8 0 0

/-- `n` write slots, the first for bit `i` of `b` (40_bit_transport.md R132). -/
def writeBits : Nat → Nat → Byte → Op Unit
  | 0, _, _ => pure ()
  | n + 1, i, b => do
    writeSlot (b.getLsbD i)
    writeBits n (i + 1) b

/-- `EndOfByte(hold)` (40_bit_transport.md R133). -/
def endOfByte (hold : Bool) : Op Unit := if hold then holdHigh else release

/-- `WriteByteSeq(b, hold)` (40_bit_transport.md R132). -/
def writeByteSeq (b : Byte) (hold : Bool) : Op Unit := do
  writeBits 8 0 b
  endOfByte hold

/-- Bytes in ascending order, only the last with `hold` (43_select_transactions.md R200, R203). -/
def writeBytes : List Byte → Bool → Op Unit
  | [], _ => pure ()
  | [b], hold => writeByteSeq b hold
  | b :: rest, hold => do
    writeByteSeq b false
    writeBytes rest hold

/-- The wire command "search all" (30_encoding.md R91; sent without hold, 41_device_search.md R154). -/
def sendSearchRom : Op Unit := writeByteSeq 0xF0 false

/-- The wire command "search devices in alarm state" (30_encoding.md R91; 41_device_search.md R154). -/
def sendAlarmSearch : Op Unit := writeByteSeq 0xEC false

/-- The wire command Select ROM (30_encoding.md R91; 43_select_transactions.md R200). -/
def sendSelectRom : Op Unit := writeByteSeq 0x55 false

/-- The wire command Convert, the final payload byte of its transaction (30_encoding.md R91;
43_select_transactions.md R203, 44_ds18b20.md R223). -/
def sendConvertT : Op Unit := do writeBytes [0x44] (← get).parasite

/-- The wire command Read Scratchpad, the final payload byte of its transaction (30_encoding.md R91;
43_select_transactions.md R203, 44_ds18b20.md R225). -/
def sendReadScratchpad : Op Unit := do writeBytes [0xBE] (← get).parasite

/-- `Select(a)`: hold only on the final address byte, when `CTRL.PARASITE = 1`
(43_select_transactions.md R200). -/
def selectDevice (a : Addr) : Op Unit := do
  sendSelectRom
  writeBytes (addrBytes a) (← get).parasite

/-- Reads `n` bytes into `BUF[k]`, `BUF[k+1]`, …, each as soon as it is complete, and returns them
(43_select_transactions.md R205, 44_ds18b20.md R225). -/
def readIntoBuf : Nat → Nat → Op (List Byte)
  | 0, _ => pure []
  | n + 1, k => do
    let b ← readByteSeq
    modify fun s => { s with buf := setByte s.buf k b }
    let rest ← readIntoBuf n (k + 1)
    return b :: rest

/-- The transaction: reset, select once, the payload, then `r` bytes read into `BUF`; the presence is
recorded and not tested (43_select_transactions.md R203, R206, R207). -/
def transaction (a : Addr) (payload : Op Unit) (r : Nat) : Op (List Byte) := do
  let _ ← busReset
  selectDevice a
  payload
  readIntoBuf r 0

/-- A payload of bytes: the final one holds when `CTRL.PARASITE = 1` (43_select_transactions.md R203). -/
def sendPayload (bytes : List Byte) : Op Unit := do writeBytes bytes (← get).parasite

end Sys2Proof.Machine
end

