-- ==== Sys2Proof/Machine/Ds18b20.lean ====
section
/-!
DEFINITION. The DS18B20 layer (44_ds18b20.md R220 to R228).
-/

namespace Sys2Proof.Machine

/-- The DS18B20 family code (44_ds18b20.md R220). -/
def familyCode : Byte := 0x28

/-- `DS_BIND` (44_ds18b20.md R221). -/
def execDsBind (force : Bool) (s : State) : Host.Outcome State Fault Refusal :=
  runCommand false (do
    let actual := byteAt (← get).rom 0
    if !force && actual != familyCode then raise (.familyCodeMismatch familyCode actual)
    modify fun s => { s with sensor := s.rom, sensorRes := s.res, sensorValid := true }) s

/-- `WaitMs(res)`, milliseconds (44_ds18b20.md R222, 10_state.md R26). -/
def waitMsOf (res : BitVec 2) : BitVec 16 :=
  match res.toNat with
  | 0 => 94
  | 1 => 188
  | 2 => 375
  | _ => 750

/-- `DS_START` (44_ds18b20.md R223). -/
def execDsStart (s : State) : Host.Outcome State Fault Refusal :=
  runCommand false (do
    checkSensor
    let _ ← transaction (← get).sensor sendConvertT 0
    modify fun s => { s with waitMs := waitMsOf s.sensorRes }) s

/-- The integer part of a raw temperature, on unbounded integers: the magnitude is split and the sign
put back (44_ds18b20.md R226). -/
def splitInt (raw : BitVec 16) : Int :=
  if 0 ≤ raw.toInt then (raw.toInt.natAbs >>> 4 : Nat) else -(raw.toInt.natAbs >>> 4 : Nat)

/-- The fraction of a raw temperature, times 10000 (44_ds18b20.md R226). -/
def splitFrac (raw : BitVec 16) : Int :=
  if 0 ≤ raw.toInt then ((raw.toInt.natAbs &&& 0xF) * 625 : Nat)
  else -((raw.toInt.natAbs &&& 0xF) * 625 : Nat)

/-- `Pack(SplitTemp(raw))` = `{frac[15:0], int[15:0]}` (44_ds18b20.md R227). -/
def packedSplit (raw : BitVec 16) : Word :=
  BitVec.ofInt 16 (splitFrac raw) ++ BitVec.ofInt 16 (splitInt raw)

/-- `raw = {sp[1], sp[0]}`, little-endian (44_ds18b20.md R224, 20_memory.md R64). -/
def rawTemp (sp : List Byte) : BitVec 16 := sp.getD 1 0 ++ sp.getD 0 0

/-- `DS_READ` (44_ds18b20.md R225, 42_crc8.md R185). -/
def execDsRead (s : State) : Host.Outcome State Fault Refusal :=
  runCommand false (do
    checkSensor
    let sp ← transaction (← get).sensor sendReadScratchpad 9
    checkCrc (crc8z (addrBytes (← get).sensor ++ sp.take 8)) (sp.getD 8 0)
    modify fun s => { s with tempRaw := rawTemp sp, tempSplit := packedSplit (rawTemp sp) }) s

/-- `SPLIT_TEMP`: the split of `DATA[15:0]` (44_ds18b20.md R228). -/
def execSplitTemp (s : State) : Host.Outcome State Fault Refusal :=
  runCommand false (modify fun s =>
    { s with tempSplit := packedSplit (s.data.extractLsb' 0 16) }) s

end Sys2Proof.Machine
end

