-- ==== Sys2Proof/Machine/Search.lean ====
section
/-!
DEFINITION. The device search engine (41_device_search.md R150 to R162).
-/

namespace Sys2Proof.Machine

/-- `SRCH_RESULT <- r` (41_device_search.md R152), after a moment that parts it from the `STATUS` field
written before, be it `SPHASE` or the `PRESENCE` of a bus reset (DESIGN CHOICE, log entry 2). -/
def setResult (r : SrchResult) : Op Unit := do
  moment
  modify fun s => { s with srchResult := r }

/-- `SEARCH_INIT`: a fresh DeviceSearchState (41_device_search.md R151). -/
def execSearchInit (s : State) : Host.Outcome State Fault Refusal :=
  runCommand false (do
    modify fun s => { s with saddr := 0, sdisc := 0, sphase := .initialized }
    setResult .noResult) s

/-- Step S5, replay of `n` bits from bit `i`: false when both bits of a pair read 1; writes nothing to
`SADDR` or `SDISC` (41_device_search.md R155). -/
def replay : Nat → Nat → Op Bool
  | 0, _ => pure true
  | n + 1, i => do
    let t ← readSlot
    let c ← readSlot
    if t && c then return false
    writeSlot ((← get).saddr.getLsbD i)
    replay n (i + 1)

/-- Bit `i` of `SADDR` and of `SDISC` is decided, then the direction bit is written
(41_device_search.md R157: "Each `SADDR`/`SDISC` bit update happens before that bit's write slot"). -/
def decideBit (i : Nat) (disc : Option Bool) (dir : Bool) : Op Unit := do
  modify fun s => { s with
    sdisc := match disc with
      | some d => setBit s.sdisc i d
      | none => s.sdisc
    saddr := setBit s.saddr i dir }
  writeSlot dir

/-- Step S6, discovery of `n` bits from bit `i`, `new` telling whether this call has recorded a new
discrepancy: none when both bits of a pair read 1 away from the resumed position
(41_device_search.md R157). -/
def discover (ld : Option Nat) : Nat → Nat → Bool → Op (Option Bool)
  | 0, _, new => pure (some new)
  | n + 1, i, new => do
    let t ← readSlot
    let c ← readSlot
    if ld = some i then
      decideBit i (some false) true
      discover ld n (i + 1) new
    else if t && c then
      return none
    else if !t && !c then
      decideBit i (some true) false
      discover ld n (i + 1) true
    else
      decideBit i none t
      discover ld n (i + 1) new

/-- Steps S7 and S8: the phase, the device found, and the evaluation of its CRC, whose mismatch is not
an error (41_device_search.md R158, R159). A moment stands between two writes that `STATUS` shows (log
entry 2). -/
def foundDevice (new : Bool) : Op Unit := do
  modify fun s => { s with sphase := if !new && s.sdisc == 0 then .ended else .deviceFound }
  modify fun s => { s with found := s.saddr }
  setResult .found
  moment
  modify fun s => s.crcEval (addrCrc s.saddr) (byteAt s.saddr 7)

/-- Steps S6 to S8 from bit `start` (41_device_search.md R152). -/
def discoverFrom (ld : Option Nat) (start : Nat) : Op Unit := do
  match ← discover ld (64 - start) start false with
  | some new => foundDevice new
  | none => setResult .noneNoResponse

/-- Step S5, second clause: nothing is left to visit (41_device_search.md R156). -/
def endSearch : Op Unit := do
  moment
  modify fun s => { s with sphase := .ended }
  setResult .noneEnd

/-- `Search(cmd)`, one call (41_device_search.md R152 to R159); `send` sends its command byte. -/
def search (send : Op Unit) : Op Unit := do
  if (← get).sphase = .ended then
    setResult .noneEnd
  else if ← busReset then
    send
    let s ← get
    match lastDiscrepancy s.sdisc with
    | some ld =>
      if ← replay ld 0 then discoverFrom (some ld) ld
      else setResult .noneNoResponse
    | none =>
      if s.sphase = .deviceFound then
        endSearch
      else discoverFrom none 0
  else
    setResult .noneNoPresence

/-- `SEARCH_NEXT`: wire command 0xF0 (41_device_search.md R161). -/
def execSearchNext (s : State) : Host.Outcome State Fault Refusal :=
  runCommand true (search sendSearchRom) s

/-- `SEARCH_ALARM`: wire command 0xEC (41_device_search.md R162). -/
def execSearchAlarm (s : State) : Host.Outcome State Fault Refusal :=
  runCommand true (search sendAlarmSearch) s

end Sys2Proof.Machine
end

