-- ==== Sys2Proof/Machine/Select.lean ====
section
/-!
DEFINITION. Device selection and transactions (43_select_transactions.md R201, R204, R205).
-/

namespace Sys2Proof.Machine

/-- `OW_SELECT`: no reset (43_select_transactions.md R201). -/
def execOwSelect (s : State) : Host.Outcome State Fault Refusal :=
  runCommand false (do selectDevice (← get).rom) s

/-- `RS_WRITE`: reset, select, `BUF[0..LEN-1]` (43_select_transactions.md R204). -/
def execRsWrite (len : BitVec 5) (s : State) : Host.Outcome State Fault Refusal :=
  runCommand false (do
    checkLen len
    let s ← get
    let _ ← transaction s.rom (sendPayload (firstBytes s.buf len.toNat)) 0) s

/-- `RS_READ`: reset, select, `LEN` bytes into `BUF` (43_select_transactions.md R205). -/
def execRsRead (len : BitVec 5) (s : State) : Host.Outcome State Fault Refusal :=
  runCommand false (do
    checkLen len
    let _ ← transaction (← get).rom (sendPayload []) len.toNat) s

end Sys2Proof.Machine
end

