-- ==== Sys2Proof/Machine/Transport.lean ====
section
/-!
DEFINITION. The bit and byte transport commands and the bus reset command (40_bit_transport.md R134 to
R138).
-/

namespace Sys2Proof.Machine

/-- `OW_RESET` (40_bit_transport.md R134). -/
def execOwReset (s : State) : Host.Outcome State Fault Refusal :=
  runCommand false (do let _ ← busReset) s

/-- `OW_READ_BIT`: `DATA <- zext_32(bit)` (40_bit_transport.md R135). -/
def execOwReadBit (s : State) : Host.Outcome State Fault Refusal :=
  runCommand false (do
    let b ← readSlot
    modify fun s => { s with data := (BitVec.ofBool b).setWidth 32 }) s

/-- `OW_WRITE_BIT` (40_bit_transport.md R136). -/
def execOwWriteBit (bitval : Bool) (s : State) : Host.Outcome State Fault Refusal :=
  runCommand false (writeSlot bitval) s

/-- `OW_READ_BYTE`: `DATA <- zext_32(byte)` (40_bit_transport.md R137). -/
def execOwReadByte (s : State) : Host.Outcome State Fault Refusal :=
  runCommand false (do
    let b ← readByteSeq
    modify fun s => { s with data := b.setWidth 32 }) s

/-- `OW_WRITE_BYTE`: `DATA[7:0]`, ended by `Hold` when `HOLD = 1` (40_bit_transport.md R138). -/
def execOwWriteByte (hold : Bool) (s : State) : Host.Outcome State Fault Refusal :=
  runCommand false (do writeByteSeq (byteAt (← get).data 0) hold) s

end Sys2Proof.Machine
end

