-- ==== Sys2Proof/Machine/Wire.lean ====
section
/-!
DEFINITION. The five wire commands as instructions of their own (30_encoding.md R91, R92). A host command
sends them in its course; the same shared operation is run here by itself (log entry 11).
-/

namespace Sys2Proof.Machine

/-- Sends a wire command by itself: the block is busy while it does, and a port error is recorded as for
any command. There is no acceptance, so `ERR` is not cleared (log entry 11). -/
def runWire (body : Op Unit) (s : State) : Host.Outcome State Fault Refusal :=
  .next (finish false ((bracket body).run { s with busy := true, seq := .busy s.cur 0 }))

/-- `WIRE_SEARCH_ROM` 0xF0 (30_encoding.md R91, R92). -/
def execWireSearchRom (s : State) : Host.Outcome State Fault Refusal := runWire sendSearchRom s

/-- `WIRE_ALARM_SEARCH` 0xEC (30_encoding.md R91, R92). -/
def execWireAlarmSearch (s : State) : Host.Outcome State Fault Refusal := runWire sendAlarmSearch s

/-- `WIRE_SELECT_ROM` 0x55 (30_encoding.md R91, R92). -/
def execWireSelectRom (s : State) : Host.Outcome State Fault Refusal := runWire sendSelectRom s

/-- `WIRE_CONVERT_T` 0x44 (30_encoding.md R91, R92). -/
def execWireConvertT (s : State) : Host.Outcome State Fault Refusal := runWire sendConvertT s

/-- `WIRE_READ_SCRATCHPAD` 0xBE (30_encoding.md R91, R92). -/
def execWireReadScratchpad (s : State) : Host.Outcome State Fault Refusal :=
  runWire sendReadScratchpad s

end Sys2Proof.Machine
end

