-- ==== Sys2Proof/Machine/Dispatch.lean ====
section
/-!
DEFINITION. Which meaning each instruction has: one arm per constructor of `Instr`.
-/

namespace Sys2Proof.Machine

/-- The effect of one instruction (30_encoding.md R85, R90, R91). -/
def exec (i : Instr) (s : State) : Host.Outcome State Fault Refusal :=
  match i with
  | .nop => Sys2Proof.Machine.execNop s
  | .owReset => Sys2Proof.Machine.execOwReset s
  | .owReadBit => Sys2Proof.Machine.execOwReadBit s
  | .owWriteBit bitval => Sys2Proof.Machine.execOwWriteBit bitval s
  | .owReadByte => Sys2Proof.Machine.execOwReadByte s
  | .owWriteByte hold => Sys2Proof.Machine.execOwWriteByte hold s
  | .owSelect => Sys2Proof.Machine.execOwSelect s
  | .searchInit => Sys2Proof.Machine.execSearchInit s
  | .searchNext => Sys2Proof.Machine.execSearchNext s
  | .searchAlarm => Sys2Proof.Machine.execSearchAlarm s
  | .crcCheckRom => Sys2Proof.Machine.execCrcCheckRom s
  | .crc8Compute seed len => Sys2Proof.Machine.execCrc8Compute seed len s
  | .rsWrite len => Sys2Proof.Machine.execRsWrite len s
  | .rsRead len => Sys2Proof.Machine.execRsRead len s
  | .dsBind force => Sys2Proof.Machine.execDsBind force s
  | .dsStart => Sys2Proof.Machine.execDsStart s
  | .dsRead => Sys2Proof.Machine.execDsRead s
  | .splitTemp => Sys2Proof.Machine.execSplitTemp s
  | .reserved1213 op => Sys2Proof.Machine.execReserved1213 op s
  | .reserved1417 op => Sys2Proof.Machine.execReserved1417 op s
  | .reserved181F op => Sys2Proof.Machine.execReserved181F op s
  | .wireSearchRom => Sys2Proof.Machine.execWireSearchRom s
  | .wireAlarmSearch => Sys2Proof.Machine.execWireAlarmSearch s
  | .wireSelectRom => Sys2Proof.Machine.execWireSelectRom s
  | .wireConvertT => Sys2Proof.Machine.execWireConvertT s
  | .wireReadScratchpad => Sys2Proof.Machine.execWireReadScratchpad s

end Sys2Proof.Machine
end

