-- ==== Sys2Proof/Machine/Step.lean ====
section
/-!
DEFINITION. One step: a wire command that stands in `wireCmd`, else the next event from outside. A
32-bit write to `CMD` of an idle block runs a whole command (30_encoding.md R86, log entry 2).
-/

namespace Sys2Proof.Machine

/-- Sends the wire command byte by itself (log entry 11). -/
def stepWire (b : Byte) (s : State) : Host.Outcome State Fault Refusal :=
  match decodeWire b with
  | .ok i => exec i { s with wireCmd := none }
  | .error _ => .fault (.notAWireCommand b)

/-- One event from outside. `CUR` latches the word of an accepted command (10_state.md R28). -/
def stepEvent (e : Event) (s : State) : Host.Outcome State Fault Refusal :=
  match e with
  | .rst level => .next (setRst level s)
  | .access a =>
    match commandWord a s with
    | some w => exec (decodeHost w) { s with cur := w }
    | none => .next (hostAccess a s)

/-- One step of the machine. With nothing to do the block stays idle (70_reset_and_hazards.md R283). -/
def step (s : State) : Host.Outcome State Fault Refusal :=
  match s.wireCmd with
  | some b => stepWire b s
  | none =>
    match s.world.inbox with
    | [] => .next s
    | a :: rest => stepEvent a.event (s.withInbox rest)

/-- The host's write of a command word to `CMD` (offset 0x04), as the next event (30_encoding.md R86). -/
def commandArrival (w : Word) : Arrival := ⟨.whenIdle, .access (.write 0x04 0xF w)⟩

/-- `s` with the instruction where the next step fetches it: a HOSTCMD word as the host's next write to
`CMD`, a WIRECMD byte in `wireCmd` (30_encoding.md R80, R86). The block is idle and not in reset. -/
def State.withFetchWord (s : State) (nbits w : Nat) : State :=
  match tableWire nbits w with
  | some b => { s with rst := false, wireCmd := some b }
  | none =>
    { s with
      rst := false
      busy := false
      wireCmd := none
      world := { s.world with inbox := commandArrival (BitVec.ofNat 32 w) :: s.world.inbox } }

end Sys2Proof.Machine
end

