-- ==== Sys2Proof/Machine/HostProgram.lean ====
section
/-!
DEFINITION. The host program notation of 30_encoding.md R98 and R99, as functions that build the events a
host sends. Each polls `STATUS.BUSY` first (70_reset_and_hazards.md R288), so none lands inside a running
command.
-/

namespace Sys2Proof.Machine

/-- `offset(reg)` (10_state.md R20). -/
def Reg.offset (r : Reg) : BitVec 7 := BitVec.ofNat 7 (4 * regMap.idxOf r)

/-- `MemWrite(OW_BASE + offset, 4, value)` of a host that polls first. -/
def hostEvent (a : Access) : Arrival := ⟨.whenIdle, .access a⟩

/-- `WR <reg>, <value>` (30_encoding.md R98). -/
def wr (r : Reg) (v : Word) : List Arrival := [hostEvent (.write r.offset 0xF v)]

/-- `RD <reg>` (30_encoding.md R98). -/
def rd (r : Reg) : List Arrival := [hostEvent (.read r.offset 0xF)]

/-- `CMD <MNEMONIC> …`: the command's word, absent fields 0 (30_encoding.md R98). -/
def cmd (i : Instr) : List Arrival := wr .cmd (encodeWord i)

/-- `WAIT`: of its polls, the one that finds the block idle; the earlier ones change nothing
(30_encoding.md R99, 20_memory.md R69). -/
def wait : List Arrival := rd .status

/-- `DO <MNEMONIC> …` (30_encoding.md R99). -/
def doCmd (i : Instr) : List Arrival := cmd i ++ wait

/-- `SETROM` (30_encoding.md R99). -/
def setRom (a : Addr) : List Arrival := wr .romLo (wordAt a 0) ++ wr .romHi (wordAt a 1)

/-- `SETBUF` of all sixteen bytes (30_encoding.md R99, 20_memory.md R63). -/
def setBuf (b : Buffer) : List Arrival :=
  wr .buf0 (wordAt b 0) ++ wr .buf1 (wordAt b 1) ++ wr .buf2 (wordAt b 2) ++ wr .buf3 (wordAt b 3)

/-- `CLROVR` (30_encoding.md R99). -/
def clrOvr : List Arrival := wr .status 0x10

end Sys2Proof.Machine
end

