-- ==== Sys2Proof/Safety.lean ====
section
/-!
DEFINITION. The terms claims use: what the bus answers from a state on, the bus events each procedure
issues, the invariant of the machine, and how 1-Wire devices answer a search.
-/

namespace Sys2Proof

/-- The reply is `OK`. -/
def BusReply.isOk : BusReply → Bool
  | .ok _ => true
  | .err _ => false

/-- The level of an `OK` reply. -/
def BusReply.level : BusReply → Bool
  | .ok l => l
  | .err _ => false

/-- The command byte of a search command (30_encoding.md R91). -/
def Instr.searchByte (i : Instr) : Byte := if i = .searchAlarm then 0xEC else 0xF0

/-- The two search commands (41_device_search.md R161, R162). -/
def Instr.isSearch (i : Instr) : Bool := i == .searchNext || i == .searchAlarm

end Sys2Proof

namespace Sys2Proof.Machine

/-! ## What the bus answers -/

/-- The reply to the k-th bus event from here on: a queued one, or a free value. -/
def State.replyAt (s : State) (k : Nat) : BusReply :=
  match s.world.bus[k]? with
  | some r => r
  | none => Config.freeReply (s.world.busDraws + (k - s.world.bus.length))

/-- The line level at the k-th bus event from here on. -/
def State.levelAt (s : State) (k : Nat) : Bool := (s.replyAt k).level

/-- None of the next `n` bus events fails. -/
abbrev BusOk (s : State) (n : Nat) : Prop := ∀ k < n, (s.replyAt k).isOk = true

/-- No host access and no reset lands inside the next command: the next event, if there is one, waits
until the block is idle. -/
def Quiet (s : State) : Bool :=
  match s.world.inbox with
  | [] => true
  | a :: _ => a.moment == .whenIdle

/-! ## What a procedure puts on the bus -/

/-- The wait an entry of the trace stands for, in µs. -/
def eventUs : BusEvent → Nat
  | .delay t => Config.delayUs t
  | .driveLow | .release | .hold | .sample _ | .failed _ _ => 0

/-- An entry of the trace is a bus event, not a wait (00_scope.md R16). -/
def BusEvent.isBus : BusEvent → Bool
  | .delay _ => false
  | .driveLow | .release | .hold | .sample _ | .failed _ _ => true

/-- The state after `n` bus events that put `events` on the bus, oldest first: the replies are used up,
the trace and the timebase have moved on. -/
def State.afterBus (n : Nat) (events : List BusEvent) (s : State) : State :=
  { s with
    timebase := s.timebase + (events.map eventUs).sum * Config.clkPerUs
    world := { s.world with
      bus := s.world.bus.drop n
      busDraws := s.world.busDraws + (n - s.world.bus.length)
      trace := events.reverse ++ s.world.trace } }

/-- The state a host command leaves that issued `n` bus events, put `events` on the bus, left the line at
`l` and raised nothing: idle again with `ERR = NONE` (30_encoding.md R86). -/
def State.afterCommand (n : Nat) (events : List BusEvent) (l : Line) (s : State) : State :=
  { s.afterBus n events with err := .none, busy := false, seq := .idle, line := l }

/-- The state a host command leaves that raised `e` after `n` bus events (60_exceptions.md R251). -/
def State.afterRaise (e : Error) (n : Nat) (events : List BusEvent) (l : Line) (s : State) : State :=
  { s.afterCommand n events l with err := e.code, errInfo := e.info }

/-- A read slot that samples `v` (40_bit_transport.md R129). -/
def readSlotTrace (v : Bool) : List BusEvent :=
  [.driveLow, .delay .tRl, .release, .delay .tRs, .sample v, .delay .tRpad]

/-- A write slot of `v` (40_bit_transport.md R130). -/
def writeSlotTrace (v : Bool) : List BusEvent :=
  [.driveLow, .delay (if v then .tW1l else .tW0l), .release, .delay (if v then .tW1h else .tW0h)]

/-- The write slots of a byte, bit 0 first, and the end of the byte (40_bit_transport.md R132, R133). -/
def writeByteTrace (b : Byte) (hold : Bool) : List BusEvent :=
  (List.range 8).flatMap (fun i => writeSlotTrace (b.getLsbD i)) ++ [if hold then .hold else .release]

/-- Bytes in order, only the last with `hold` (43_select_transactions.md R203). -/
def writeBytesTrace : List Byte → Bool → List BusEvent
  | [], _ => []
  | [b], hold => writeByteTrace b hold
  | b :: rest, hold => writeByteTrace b false ++ writeBytesTrace rest hold

/-- The Select ROM sequence (43_select_transactions.md R200). -/
def selectTrace (a : Addr) (parasite : Bool) : List BusEvent :=
  writeByteTrace 0x55 false ++ writeBytesTrace (addrBytes a) parasite

/-- The levels of eight read slots whose first event is the e-th from here on. -/
def State.slotLevels (s : State) (e : Nat) : List Bool :=
  (List.range 8).map fun i => s.levelAt (e + 3 * i + 2)

/-- Bits, least significant first, as a byte (40_bit_transport.md R132). -/
def byteOfBits : List Bool → Byte
  | [] => 0
  | b :: bs => (BitVec.ofBool b).setWidth 8 ||| (byteOfBits bs <<< 1)

/-- The byte that eight read slots from the e-th event on read (40_bit_transport.md R132). -/
def State.byteRead (s : State) (e : Nat) : Byte := byteOfBits (s.slotLevels e)

/-- Their bus events. -/
def State.readByteTrace (s : State) (e : Nat) : List BusEvent :=
  (s.slotLevels e).flatMap readSlotTrace

/-- The bytes that `n` byte reads from the e-th event on read (43_select_transactions.md R203). -/
def State.bytesRead (s : State) (e n : Nat) : List Byte :=
  (List.range n).map fun k => s.byteRead (e + 24 * k)

/-- Their bus events. -/
def State.readBytesTrace (s : State) (e n : Nat) : List BusEvent :=
  (List.range n).flatMap fun k => s.readByteTrace (e + 24 * k)

/-- `BUF` with bytes stored from index `k` on (10_state.md R22). -/
def storeBytes : List Byte → Nat → Buffer → Buffer
  | [], _, buf => buf
  | b :: rest, k, buf => storeBytes rest (k + 1) (setByte buf k b)

/-! ## The bus reset -/

/-- The `Release` that the wire-high check issues first when the line is not released
(40_bit_transport.md R127). -/
def State.heldEvents (s : State) : Nat := if s.line = .released then 0 else 1

/-- The wire-high check reads `k` low polls, then a high one, within its `N_WH` polls
(40_bit_transport.md R127). -/
abbrev WireHighAfter (s : State) (k : Nat) : Prop :=
  k < nWh ∧ (∀ j < k, s.levelAt (s.heldEvents + j) = false) ∧ s.levelAt (s.heldEvents + k) = true

/-- The same, as far as bus event `f`: the polls before it (40_bit_transport.md R127). -/
abbrev PollsBefore (s : State) (k f : Nat) : Prop :=
  k < nWh ∧ (∀ j < k, s.heldEvents + j < f → s.levelAt (s.heldEvents + j) = false) ∧
    (s.heldEvents + k < f → s.levelAt (s.heldEvents + k) = true)

/-- How many bus events such a bus reset takes (70_reset_and_hazards.md R298). -/
def State.resetEvents (s : State) (k : Nat) : Nat := s.heldEvents + k + 10

/-- The seven presence samples (40_bit_transport.md R128). -/
def State.presenceLevels (s : State) (k : Nat) : List Bool :=
  (List.range nPres).map fun j => s.levelAt (s.heldEvents + k + 3 + j)

/-- A low sample is a presence pulse (40_bit_transport.md R128). -/
def State.presenceSeen (s : State) (k : Nat) : Bool := (s.presenceLevels k).any (!·)

/-- Low polls, each followed by its wait (40_bit_transport.md R127). -/
def lowPollsTrace : Nat → List BusEvent
  | 0 => []
  | k + 1 => [.sample false, .delay .tWhpoll] ++ lowPollsTrace k

/-- The release of a held line (40_bit_transport.md R127). -/
def State.releaseTrace (s : State) : List BusEvent := if s.line = .released then [] else [.release]

/-- A bus reset with `k` low polls (40_bit_transport.md R127, R128). -/
def State.resetTrace (s : State) (k : Nat) : List BusEvent :=
  s.releaseTrace ++ lowPollsTrace k ++ [.sample true]
    ++ [.driveLow, .delay .tRstl, .release, .delay .tPdwait]
    ++ (s.presenceLevels k).flatMap (fun l => [.delay .tPstep, .sample l])
    ++ [.delay .tRstrem]

/-- The instruction starts with a bus reset in this state: the commands of 10_state.md R30, past their
acceptance checks, and a search that is not at `End`. -/
def resetsBus (i : Instr) (s : State) : Bool :=
  match i with
  | .owReset => true
  | .searchNext | .searchAlarm => s.sphase != .ended
  | .rsWrite len | .rsRead len => len.toNat ≤ 16
  | .dsStart | .dsRead => s.sensorValid
  | _ => false

/-- What ends the line of a byte write: held or released (40_bit_transport.md R133). -/
def lineAfter (hold : Bool) : Line := if hold then .hold else .released

/-- The byte that a wire command sends (30_encoding.md R91). -/
def wireByte : Instr → Byte
  | .wireSearchRom => 0xF0
  | .wireAlarmSearch => 0xEC
  | .wireSelectRom => 0x55
  | .wireConvertT => 0x44
  | .wireReadScratchpad => 0xBE
  | _ => 0

/-- The wire commands that are the final written byte of their transaction, and so hold power when
`CTRL.PARASITE = 1` (43_select_transactions.md R203, 44_ds18b20.md R223, R225). -/
def wireHolds (i : Instr) : Bool := i == .wireConvertT || i == .wireReadScratchpad

/-- How many bus events an instruction without a bus reset issues (70_reset_and_hazards.md R298). -/
def fixedEvents : Instr → Nat
  | .owReadBit => 3
  | .owWriteBit _ => 2
  | .owReadByte => 24
  | .owWriteByte _ => 17
  | .owSelect => 153
  | .wireSearchRom | .wireAlarmSearch | .wireSelectRom | .wireConvertT | .wireReadScratchpad => 17
  | _ => 0

/-- The primitive a bus event is of (00_scope.md R16). -/
def BusEvent.prim : BusEvent → Prim
  | .driveLow => .driveLow
  | .release => .release
  | .hold => .hold
  | .sample _ | .delay _ => .sample
  | .failed p _ => p

/-- What a procedure that would put `events` on the bus has put there when its f-th bus event (from 0)
completes with `ERR(code)`: the events and waits before it, and the failed event
(40_bit_transport.md R125). -/
def failAt (code : Byte) : Nat → List BusEvent → List BusEvent
  | _, [] => []
  | f, .delay t :: rest => .delay t :: failAt code f rest
  | 0, e :: _ => [.failed e.prim code]
  | f + 1, e :: rest => e :: failAt code f rest

/-- The bus event that the first byte read into `BUF` starts with, in the commands that read any
(10_state.md R22). -/
def State.readStart (s : State) (k : Nat) : Instr → Option Nat
  | .rsRead _ => some (s.resetEvents k + 153)
  | .dsRead => some (s.resetEvents k + 170)
  | _ => none

/-- Byte `j` of `BUF` when bus event `f` fails: the byte read, if its last read slot was complete, and
else as it was (43_select_transactions.md R205). -/
def State.bufByteAt (s : State) (k f : Nat) (i : Instr) (j : Nat) : Byte :=
  match s.readStart k i with
  | some e => if e + 24 * j + 24 ≤ f then s.byteRead (e + 24 * j) else byteAt s.buf j
  | none => byteAt s.buf j

/-- The errors each instruction can raise (60_exceptions.md R252). -/
def canRaise : Instr → List ErrCode
  | .nop | .searchInit | .splitTemp => []
  | .owReset | .searchNext | .searchAlarm => [.portError, .wireNotHigh]
  | .owReadBit | .owWriteBit _ | .owReadByte | .owWriteByte _ | .owSelect => [.portError]
  | .crcCheckRom => [.crcMismatch]
  | .crc8Compute _ _ => [.badCommand]
  | .rsWrite _ | .rsRead _ => [.badCommand, .portError, .wireNotHigh]
  | .dsBind _ => [.familyCodeMismatch]
  | .dsStart => [.noSensor, .portError, .wireNotHigh]
  | .dsRead => [.noSensor, .portError, .wireNotHigh, .crcMismatch]
  | .reserved1213 _ | .reserved1417 _ | .reserved181F _ => [.badCommand]
  | .wireSearchRom | .wireAlarmSearch | .wireSelectRom | .wireConvertT | .wireReadScratchpad =>
    [.portError]

/-- How many bus events a trace holds. -/
def busCount (trace : List BusEvent) : Nat := trace.countP BusEvent.isBus

/-! ## Host accesses while a command runs -/

/-- `OVR` after an event landed in a running command: a full write to `CMD`, `CTRL`, `DATA`, `ROM_*` or
`BUF*` sets it, one to `STATUS` with bit 4 clears it (20_memory.md R66, R68). -/
def ovrAfterEvent (o : Bool) : Event → Bool
  | .access (.write off 0xF v) =>
    match regAt off with
    | some .cmd | some .ctrl | some .data | some .romLo | some .romHi
    | some .buf0 | some .buf1 | some .buf2 | some .buf3 => true
    | some .status => o && !v.getLsbD 4
    | _ => o
  | _ => o

/-- `OVR` after these events landed, in order. -/
def ovrAfter (o : Bool) (landed : List Arrival) : Bool :=
  landed.foldl (fun o a => ovrAfterEvent o a.event) o

/-! ## The search -/

/-- The true bit of the pair read for address bit `i`, when the pair of bit 0 starts at event `e`: eight
events a bit (70_reset_and_hazards.md R298). -/
def State.trueBit (s : State) (e i : Nat) : Bool := s.levelAt (e + 8 * i + 2)

/-- The complement bit of the pair read for address bit `i`. -/
def State.compBit (s : State) (e i : Nat) : Bool := s.levelAt (e + 8 * i + 5)

/-- Some device answers at bit `i`: the pair is not both 1 (41_device_search.md R155, R157). -/
def State.answered (s : State) (e i : Nat) : Bool := !(s.trueBit e i && s.compBit e i)

/-- Address bit `i` after a search call with last discrepancy `ld`: kept below `ld`, 1 at `ld`, the true
bit above it (41_device_search.md R155, R157; at a fork the true bit is 0, the branch taken). -/
def State.walkAddrBit (s : State) (ld : Option Nat) (e i : Nat) : Bool :=
  match ld with
  | none => s.trueBit e i
  | some l => if i < l then s.saddr.getLsbD i else if i = l then true else s.trueBit e i

/-- Discrepancy bit `i` after a search call: kept below `ld`, cleared at `ld`, set above it exactly at a
fork (41_device_search.md R157). -/
def State.walkDiscBit (s : State) (ld : Option Nat) (e i : Nat) : Bool :=
  match ld with
  | none => !s.trueBit e i && !s.compBit e i
  | some l =>
    if i < l then s.sdisc.getLsbD i else if i = l then false
    else !s.trueBit e i && !s.compBit e i

/-- The bus events of address bit `i`: two read slots and the direction bit (41_device_search.md R152). -/
def State.walkTrace (s : State) (ld : Option Nat) (e i : Nat) : List BusEvent :=
  readSlotTrace (s.trueBit e i) ++ readSlotTrace (s.compBit e i)
    ++ writeSlotTrace (s.walkAddrBit ld e i)

/-- The bus events of a search call that no abort ends, with `k` low polls in its bus reset
(41_device_search.md R152). -/
def State.searchTrace (s : State) (k : Nat) (i : Instr) : List BusEvent :=
  s.resetTrace k ++
    if s.presenceSeen k then
      writeByteTrace i.searchByte false ++
        if lastDiscrepancy s.sdisc = none ∧ s.sphase = .deviceFound then []
        else (List.range 64).flatMap
          (s.walkTrace (lastDiscrepancy s.sdisc) (s.resetEvents k + 17))
    else []

/-- The bus events each instruction issues past its acceptance when none of them fails and no abort ends
it, `k` being the low polls of its bus reset if it has one. -/
def State.issues (s : State) (k : Nat) : Instr → List BusEvent
  | .owReset => s.resetTrace k
  | .owReadBit => readSlotTrace (s.levelAt 2)
  | .owWriteBit v => writeSlotTrace v
  | .owReadByte => s.readByteTrace 0
  | .owWriteByte hold => writeByteTrace (byteAt s.data 0) hold
  | .owSelect => selectTrace s.rom s.parasite
  | .searchNext => s.searchTrace k .searchNext
  | .searchAlarm => s.searchTrace k .searchAlarm
  | .rsWrite len => s.resetTrace k ++ selectTrace s.rom s.parasite
      ++ writeBytesTrace ((List.range len.toNat).map (byteAt s.buf)) s.parasite
  | .rsRead len => s.resetTrace k ++ selectTrace s.rom s.parasite
      ++ s.readBytesTrace (s.resetEvents k + 153) len.toNat
  | .dsStart => s.resetTrace k ++ selectTrace s.sensor s.parasite ++ writeByteTrace 0x44 s.parasite
  | .dsRead => s.resetTrace k ++ selectTrace s.sensor s.parasite ++ writeByteTrace 0xBE s.parasite
      ++ s.readBytesTrace (s.resetEvents k + 170) 9
  | .wireSearchRom => writeByteTrace 0xF0 false
  | .wireAlarmSearch => writeByteTrace 0xEC false
  | .wireSelectRom => writeByteTrace 0x55 false
  | .wireConvertT => writeByteTrace 0x44 s.parasite
  | .wireReadScratchpad => writeByteTrace 0xBE s.parasite
  | .nop | .searchInit | .crcCheckRom | .crc8Compute _ _ | .dsBind _ | .splitTemp
  | .reserved1213 _ | .reserved1417 _ | .reserved181F _ => []

/-- The state that `PortError(code)` at bus event `f` leaves, of an instruction that would put `events` on
the bus: the replies up to the failed one used, the error recorded, the block idle, `LINE` a free value
(40_bit_transport.md R125, 60_exceptions.md R251; log entries 4, 17). -/
def State.portFailed (code : Byte) (f : Nat) (events : List BusEvent) (s : State) : State :=
  { s.afterBus (f + 1) (failAt code f events) with
    err := .portError, errInfo := 0#8 ++ code, busy := false, seq := .idle
    line := Config.freeLine s.world.lineDraws
    world := { (s.afterBus (f + 1) (failAt code f events)).world with
      lineDraws := s.world.lineDraws + 1 } }

/-- The device takes part at bit `i` of a walk along address `path`: it agrees with every earlier bit
(41_device_search.md R163). -/
abbrev agreesBelow (d path : Addr) (i : Nat) : Prop := ∀ j < i, d.getLsbD j = path.getLsbD j

/-- The devices `D` answer a walk along `path` whose pairs start at event `e` as 1-Wire devices do: every
device that takes part drives its bit, then its complement, onto a wired-AND line
(41_device_search.md R163, from general knowledge). -/
abbrev DevicesAnswer (D : List Addr) (s : State) (e : Nat) (path : Addr) : Prop :=
  ∀ i < 64,
    (s.trueBit e i = true ↔ ∀ d ∈ D, agreesBelow d path i → d.getLsbD i = true) ∧
    (s.compBit e i = true ↔ ∀ d ∈ D, agreesBelow d path i → d.getLsbD i = false)

/-- `d` comes after `a` in wire order: they agree below some bit, where `a` has 0 and `d` has 1
(41_device_search.md R163). -/
abbrev wireAfter (a d : Addr) : Prop :=
  ∃ i < 64, agreesBelow d a i ∧ a.getLsbD i = false ∧ d.getLsbD i = true

/-- The bitmap marks exactly the forks of `D` along `a` whose 1-branch is still to visit. -/
abbrev PendingExact (D : List Addr) (a disc : Addr) : Prop :=
  ∀ i < 64, disc.getLsbD i = true ↔
    a.getLsbD i = false ∧ ∃ d ∈ D, agreesBelow d a i ∧ d.getLsbD i = true

/-! ## The CRC table of the spec -/

/-- The table `T` as 42_crc8.md R181 prints it, row after row. -/
def crcTable : List Byte :=
  [0x00, 0x5E, 0xBC, 0xE2, 0x61, 0x3F, 0xDD, 0x83, 0xC2, 0x9C, 0x7E, 0x20, 0xA3, 0xFD, 0x1F, 0x41] ++
  [0x9D, 0xC3, 0x21, 0x7F, 0xFC, 0xA2, 0x40, 0x1E, 0x5F, 0x01, 0xE3, 0xBD, 0x3E, 0x60, 0x82, 0xDC] ++
  [0x23, 0x7D, 0x9F, 0xC1, 0x42, 0x1C, 0xFE, 0xA0, 0xE1, 0xBF, 0x5D, 0x03, 0x80, 0xDE, 0x3C, 0x62] ++
  [0xBE, 0xE0, 0x02, 0x5C, 0xDF, 0x81, 0x63, 0x3D, 0x7C, 0x22, 0xC0, 0x9E, 0x1D, 0x43, 0xA1, 0xFF] ++
  [0x46, 0x18, 0xFA, 0xA4, 0x27, 0x79, 0x9B, 0xC5, 0x84, 0xDA, 0x38, 0x66, 0xE5, 0xBB, 0x59, 0x07] ++
  [0xDB, 0x85, 0x67, 0x39, 0xBA, 0xE4, 0x06, 0x58, 0x19, 0x47, 0xA5, 0xFB, 0x78, 0x26, 0xC4, 0x9A] ++
  [0x65, 0x3B, 0xD9, 0x87, 0x04, 0x5A, 0xB8, 0xE6, 0xA7, 0xF9, 0x1B, 0x45, 0xC6, 0x98, 0x7A, 0x24] ++
  [0xF8, 0xA6, 0x44, 0x1A, 0x99, 0xC7, 0x25, 0x7B, 0x3A, 0x64, 0x86, 0xD8, 0x5B, 0x05, 0xE7, 0xB9] ++
  [0x8C, 0xD2, 0x30, 0x6E, 0xED, 0xB3, 0x51, 0x0F, 0x4E, 0x10, 0xF2, 0xAC, 0x2F, 0x71, 0x93, 0xCD] ++
  [0x11, 0x4F, 0xAD, 0xF3, 0x70, 0x2E, 0xCC, 0x92, 0xD3, 0x8D, 0x6F, 0x31, 0xB2, 0xEC, 0x0E, 0x50] ++
  [0xAF, 0xF1, 0x13, 0x4D, 0xCE, 0x90, 0x72, 0x2C, 0x6D, 0x33, 0xD1, 0x8F, 0x0C, 0x52, 0xB0, 0xEE] ++
  [0x32, 0x6C, 0x8E, 0xD0, 0x53, 0x0D, 0xEF, 0xB1, 0xF0, 0xAE, 0x4C, 0x12, 0x91, 0xCF, 0x2D, 0x73] ++
  [0xCA, 0x94, 0x76, 0x28, 0xAB, 0xF5, 0x17, 0x49, 0x08, 0x56, 0xB4, 0xEA, 0x69, 0x37, 0xD5, 0x8B] ++
  [0x57, 0x09, 0xEB, 0xB5, 0x36, 0x68, 0x8A, 0xD4, 0x95, 0xCB, 0x29, 0x77, 0xF4, 0xAA, 0x48, 0x16] ++
  [0xE9, 0xB7, 0x55, 0x0B, 0x88, 0xD6, 0x34, 0x6A, 0x2B, 0x75, 0x97, 0xC9, 0x4A, 0x14, 0xF6, 0xA8] ++
  [0x74, 0x2A, 0xC8, 0x96, 0x15, 0x4B, 0xA9, 0xF7, 0xB6, 0xE8, 0x0A, 0x54, 0xD7, 0x89, 0x6B, 0x35]

/-! ## The invariant -/

/-- The block is between commands (30_encoding.md R86: every command ends with `BUSY = 0`). -/
abbrev AtRest (s : State) : Prop := s.busy = false ∧ s.seq = .idle ∧ s.wireCmd = none

/-- Every register that 10_state.md R55 gives a reset value has it: all but `BUF` and `CUR`, which R55
leaves unspecified, and the timebase of `Delay`, which it does not list (log entries 6, 7, 8). -/
abbrev RegsReset (s : State) : Prop :=
  { s with
    buf := State.reset.buf, cur := State.reset.cur, timebase := State.reset.timebase
    rst := State.reset.rst
    world := State.reset.world } = State.reset

/-- What every step keeps. -/
structure Inv (s : State) : Prop where
  /-- between two steps no command is running -/
  atRest : AtRest s
  /-- while `RST` is asserted every register has its reset value (70_reset_and_hazards.md R280) -/
  inReset : s.rst = true → RegsReset s
  /-- `CRC_OK` tells that the two bytes of `CRC` are equal (10_state.md R31) -/
  crcFlag : s.crcOk = true → s.crcComputed = s.crcExpected
  /-- a recorded CRC mismatch is the mismatch that `CRC` holds (60_exceptions.md R250) -/
  mismatch : s.err = .crcMismatch → s.crcOk = false ∧ s.errInfo = s.crcExpected ++ s.crcComputed
  /-- errors without detail write 0 (10_state.md R38) -/
  noDetail : s.err = .wireNotHigh ∨ s.err = .noSensor ∨ s.err = .badCommand → s.errInfo = 0
  /-- a pending discrepancy stands where the 0 branch was taken (41_device_search.md R157) -/
  branches : s.saddr &&& s.sdisc = 0
  /-- at `End` no discrepancy is pending (41_device_search.md R156, R158) -/
  ended : s.sphase = .ended → s.sdisc = 0
  /-- the device a call returned is the address it accumulated (41_device_search.md R159) -/
  foundAddr : s.srchResult = .found → s.found = s.saddr
  /-- without a binding the sensor registers are as after reset (10_state.md R47 to R50) -/
  unbound : s.sensorValid = false → s.sensor = 0 ∧ s.sensorRes = 3 ∧ s.waitMs = 0
  /-- the conversion wait is one of the table's, or none was reported (10_state.md R50) -/
  waits : s.waitMs = 0 ∨ s.waitMs = 94 ∨ s.waitMs = 188 ∨ s.waitMs = 375 ∨ s.waitMs = 750

end Sys2Proof.Machine
end

