-- ==== Sys2Proof/Certificates/Slice0/Obligations.lean ====
section
/-!
DEFINITION. The statements for the provers.

`s.replyAt k` is what the bus answers to the k-th bus event from `s` on, queued or drawn free, so a
statement over it holds for every bus. `Quiet s` says that no host access and no reset lands inside the
command; `HostAccessesDoNotDisturbCommands` and `ResetLandsAsReset` say what happens when one does.
-/

open Sys2Proof Sys2Proof.Machine

/-! ## Encoding -/

/-- Words and bytes written out from 30_encoding.md R81, R85 and R91 (95_test_vectors.md V-E) decode to
the commands they stand for. -/
def Obligations.SpecWordsDecode : Prop :=
  decode (wordBytes 0x00000000#32) = .ok .nop ∧
  decode (wordBytes 0x00000203#32) = .ok (.owWriteBit true) ∧
  decode (wordBytes 0x00000105#32) = .ok (.owWriteByte true) ∧
  decode (wordBytes 0x00000009#32) = .ok .searchAlarm ∧
  decode (wordBytes 0x0009080B#32) = .ok (.crc8Compute true 9) ∧
  decode (wordBytes 0x0010000C#32) = .ok (.rsWrite 16) ∧
  decode (wordBytes 0x0000040E#32) = .ok (.dsBind true) ∧
  decode (wordBytes 0xFFE0F0E0#32) = .ok .nop ∧
  decode (wordBytes 0x00000032#32) = .ok (.reserved1213 0x12) ∧
  decode [0xF0#8] = .ok .wireSearchRom ∧
  decode [0xBE#8] = .ok .wireReadScratchpad

/-- Decoding the encoding of a well-formed instruction gives it back, with every operand. -/
def Obligations.DecodeOfEncodeIsIdentity : Prop :=
  ∀ i : Instr, i.wf = true → decode (encode i) = .ok i

/-- Bits 7:5, 15:12 and 31:21 of a command word do not matter (30_encoding.md R81, R82, R90). -/
def Obligations.ReservedBitsDoNotMatter : Prop :=
  ∀ v w : Word, v &&& 0x001F0F1F#32 = w &&& 0x001F0F1F#32 → decodeHost v = decodeHost w

/-- Every command word decodes to a well-formed host command, and means what that command's own encoding
means: bits outside the fields its row lists are ignored (30_encoding.md R82). -/
def Obligations.CommandWordsNormalise : Prop :=
  ∀ w : Word, (decodeHost w).wf = true ∧ (decodeHost w).isHost = true ∧
    decodeHost (encodeWord (decodeHost w)) = decodeHost w

/-- A byte is a wire command exactly when it is one of the five, and then it is that one
(30_encoding.md R91). -/
def Obligations.ExactlyFiveWireCommands : Prop :=
  ∀ (b : Byte) (i : Instr), decodeWire b = .ok i ↔
    (b = 0xF0 ∧ i = .wireSearchRom) ∨ (b = 0xEC ∧ i = .wireAlarmSearch) ∨
    (b = 0x55 ∧ i = .wireSelectRom) ∨ (b = 0x44 ∧ i = .wireConvertT) ∨
    (b = 0xBE ∧ i = .wireReadScratchpad)

/-! ## Steps -/

/-- A 32-bit write to `CMD` of an idle block runs the command its word decodes to, in the state with that
event taken from the queue and the word latched in `CUR` (30_encoding.md R86, 10_state.md R28). -/
def Obligations.StepRunsTheCommandWritten : Prop :=
  ∀ (s : State) (m : When) (off : BitVec 7) (w : Word) (rest : List Arrival) (i : Instr),
    s.wireCmd = none → s.rst = false → s.busy = false →
    s.world.inbox = ⟨m, .access (.write off 0xF w)⟩ :: rest → regAt off = some .cmd →
    decode (wordBytes w) = .ok i →
    step s = exec i { s.withInbox rest with cur := w }

/-- A wire command byte in `wireCmd` runs the wire command it decodes to (log entry 11). -/
def Obligations.StepRunsTheWireCommand : Prop :=
  ∀ (s : State) (b : Byte) (i : Instr), s.wireCmd = some b → decode [b] = .ok i →
    step s = exec i { s with wireCmd := none }

/-- What else a step does: any other event is a level of `RST`, a host read, or a write that starts no
command (because `RST` is asserted, the block is busy, a lane is missing or the register is not `CMD`), and
the step is that event's effect; with none to come it changes nothing (20_memory.md R66, R68, R69, R72,
70_reset_and_hazards.md R280; that events stand in a queue is log entry 1, the idle step log entry 14). -/
def Obligations.StepTakesTheNextEvent : Prop :=
  ∀ (s : State) (m : When) (rest : List Arrival), s.wireCmd = none →
    (s.world.inbox = [] → step s = .next s) ∧
    (∀ level : Bool, s.world.inbox = ⟨m, .rst level⟩ :: rest →
      step s = .next (setRst level (s.withInbox rest))) ∧
    (∀ (off : BitVec 7) (lanes : BitVec 4), s.world.inbox = ⟨m, .access (.read off lanes)⟩ :: rest →
      step s = .next (hostAccess (.read off lanes) (s.withInbox rest))) ∧
    (∀ (off : BitVec 7) (lanes : BitVec 4) (v : Word),
      s.world.inbox = ⟨m, .access (.write off lanes v)⟩ :: rest →
      s.rst = true ∨ s.busy = true ∨ lanes ≠ 0xF ∨ regAt off ≠ some .cmd →
      step s = .next (hostAccess (.write off lanes v) (s.withInbox rest)))

/-! ## Reset and the invariant -/

/-- The reset values of 10_state.md R55, less `BUF` and `CUR`, which it leaves unspecified. -/
def Obligations.ResetHasTheStatedValues : Prop :=
  let s := State.reset
  s.parasite = false ∧ s.res = 3 ∧ statusWord s = 0 ∧ s.line = .released ∧ s.sphase = .initialized ∧
  s.errInfo = 0 ∧ s.crcComputed = 0 ∧ s.crcExpected = 0 ∧ s.data = 0 ∧ s.rom = 0 ∧ s.saddr = 0 ∧
  s.sdisc = 0 ∧ s.found = 0 ∧ s.sensor = 0 ∧ s.sensorRes = 3 ∧ s.waitMs = 0 ∧ s.tempRaw = 0 ∧
  s.tempSplit = 0 ∧ s.seq = .idle ∧ s.rst = false

/-- The invariant holds right after reset. -/
def Obligations.ResetMeetsInvariant : Prop := Inv State.reset

/-- Every step keeps the invariant: the block is idle between steps, reset holds the values R55 gives (not
`BUF`, `CUR` or the timebase, log entries 6, 7, 8), the CRC flag and the recorded error agree with their detail, the search state stays a legal place of the walk,
and the sensor registers follow the binding. -/
def Obligations.StepKeepsInvariant : Prop :=
  ∀ s t : State, Inv s → step s = .next t → Inv t

/-- While `RST` is asserted, and when it is released, every register has the value R55 gives it (`BUF`,
`CUR` and the timebase have none, log entries 6, 7, 8), with no bus event; accesses while it is asserted change nothing: a write is ignored, and a read
only adds a reply whose value is unspecified (70_reset_and_hazards.md R280). -/
def Obligations.ResetInputHoldsTheBlock : Prop :=
  ∀ s : State,
    (RegsReset (setRst true s) ∧ (setRst true s).rst = true ∧
      (setRst true s).world.trace = s.world.trace ∧ (setRst true s).world.bus = s.world.bus) ∧
    (s.rst = true → RegsReset (setRst false s) ∧ (setRst false s).rst = false ∧
      (setRst false s).world.trace = s.world.trace ∧ (setRst false s).world.bus = s.world.bus) ∧
    (s.rst = true → ∀ (off : BitVec 7) (lanes : BitVec 4) (v : Word),
      hostAccess (.write off lanes v) s = s ∧
      hostAccess (.read off lanes) s =
        reply off lanes (Config.freeRead s.world.readDraws) 1 s ∧
      commandWord (.write off lanes v) s = none)

/-- `RST` landing just after acceptance abandons any instruction at once: the block is reset, with no bus
event and no error (70_reset_and_hazards.md R280, R281). That the events after it are still to land, and
queued bus replies stay, is the model's (log entry 21); `BUF`, `CUR` and the timebase are free values there
(log entries 6, 7, 8). -/
def Obligations.ResetAtAcceptanceAbandons : Prop :=
  ∀ (i : Instr) (s : State) (rest : List Arrival),
    s.world.inbox = ⟨.after 0, .rst true⟩ :: rest →
    exec i s = .next (blockReset true (s.withInbox rest))

/-- Wherever `RST` lands inside an instruction, every register that R55 gives a reset value has it (`BUF`,
`CUR` and the timebase have none, log entries 6, 7, 8), whatever the instruction had written
(70_reset_and_hazards.md R280, R281; the moments are log entry 2). -/
def Obligations.ResetLandsAsReset : Prop :=
  ∀ (i : Instr) (s t : State), s.rst = false → exec i s = .next t → t.rst = true → RegsReset t

/-! ## The host window -/

/-- A host read changes no register: it only adds one reply for the offset and lanes asked for, and at
most one draw of a free value (20_memory.md R69). -/
def Obligations.ReadsHaveNoSideEffect : Prop :=
  ∀ (s : State) (off : BitVec 7) (lanes : BitVec 4), ∃ (v : Word) (n : Nat), n ≤ 1 ∧
    hostAccess (.read off lanes) s = { s with world := { s.world with
      replies := ⟨off, lanes, laneMask lanes v⟩ :: s.world.replies
      readDraws := s.world.readDraws + n } }

/-- What a read of any lanes returns: the addressed byte lanes of the register's word, of 0 at a reserved
offset, and of the live `STATUS` while `BUSY`. Address bits `[1:0]` are ignored (20_memory.md R61, R65, R67,
R68; 10_state.md R20). That a reserved offset reads 0 while `BUSY` too is log entry 20, and that the lanes
not asked for stand as 0 in the recorded reply is log entry 13. -/
def Obligations.ReadsReturnTheRegister : Prop :=
  ∀ (s : State) (off : BitVec 7) (lanes : BitVec 4), s.rst = false →
    regAt off = regMap[off.toNat / 4]? ∧
    (regAt off = none → hostAccess (.read off lanes) s = reply off lanes 0 0 s) ∧
    (∀ r, regAt off = some r → s.busy = false ∨ r = .status →
      hostAccess (.read off lanes) s = reply off lanes (regWord s r) 0 s) ∧
    ∀ (v : Word) (n : Nat), ∃ u : Word,
      (reply off lanes v n s).world.replies = ⟨off, lanes, u⟩ :: s.world.replies ∧
      ∀ j < 4, byteAt u j = if lanes.getLsbD j then byteAt v j else 0

/-- Host writes: while `STATUS.BUSY = 1` a write to `CMD`, `CTRL`, `DATA`, `ROM_*` or `BUF*` changes nothing
but `OVR <- 1`; a write to `STATUS` takes effect busy or not; a write to a read-only register is ignored
busy or not, and does not set `OVR` (20_memory.md R66). -/
def Obligations.WritesWhileBusyAreDropped : Prop :=
  ∀ (s : State) (off : BitVec 7) (v : Word) (r : Reg), s.rst = false → regAt off = some r →
    (r ∈ [Reg.cmd, .ctrl, .data, .romLo, .romHi, .buf0, .buf1, .buf2, .buf3] → s.busy = true →
      hostAccess (.write off 0xF v) s = { s with ovr := true }) ∧
    (r = .status → hostAccess (.write off 0xF v) s = { s with ovr := s.ovr && !v.getLsbD 4 }) ∧
    (r ∉ [Reg.cmd, .ctrl, .data, .romLo, .romHi, .buf0, .buf1, .buf2, .buf3, .status] →
      hostAccess (.write off 0xF v) s = s)

/-- A write to a reserved offset, or without all four byte lanes, changes nothing
(20_memory.md R65, R68). -/
def Obligations.PartialAndReservedWritesAreIgnored : Prop :=
  ∀ (s : State) (off : BitVec 7) (lanes : BitVec 4) (v : Word),
    lanes ≠ 0xF ∨ regAt off = none → hostAccess (.write off lanes v) s = s

/-- A 32-bit write to a writable register of an idle block is what the next read of that register
returns (`CTRL`: its defined bits), and no other register's word changes (10_state.md R20, R27,
20_memory.md R63). -/
def Obligations.WritableRegistersHoldWhatIsWritten : Prop :=
  ∀ (s : State) (off : BitVec 7) (v : Word) (r : Reg),
    s.rst = false → s.busy = false → regAt off = some r →
    r ∈ [Reg.ctrl, .data, .romLo, .romHi, .buf0, .buf1, .buf2, .buf3] →
    regWord (hostAccess (.write off 0xF v) s) r = (if r = .ctrl then v &&& 0x7 else v) ∧
    ∀ q, q ≠ r → regWord (hostAccess (.write off 0xF v) s) q = regWord s q

/-- No host access, at any time, writes the search state, `FOUND`, the sensor binding, the result
registers or any status flag but `OVR` (10_state.md R20, R24, R44). -/
def Obligations.HostCannotWriteReadOnlyState : Prop :=
  ∀ (a : Access) (s : State),
    let t := hostAccess a s
    t = { s with
      parasite := t.parasite, res := t.res, data := t.data, rom := t.rom, buf := t.buf
      ovr := t.ovr
      world := { s.world with replies := t.world.replies, readDraws := t.world.readDraws } }

/-- The places and the codes of the fields of `STATUS` (10_state.md R29 to R37, 60_exceptions.md R250). -/
def Obligations.StatusFieldPlaces : Prop :=
  (∀ s : State,
    let w := statusWord s
    w.getLsbD 0 = s.busy ∧ w.getLsbD 1 = s.presence ∧ w.getLsbD 2 = s.crcOk ∧
    w.getLsbD 3 = s.sensorValid ∧ w.getLsbD 4 = s.ovr ∧ w.extractLsb' 5 3 = 0 ∧
    w.extractLsb' 8 4 = s.err.toBits ∧ w.extractLsb' 12 3 = s.srchResult.toBits ∧
    w.getLsbD 15 = false ∧ w.extractLsb' 16 2 = s.sphase.toBits ∧
    w.extractLsb' 18 2 = lineBits s.line ∧ w.extractLsb' 20 12 = 0) ∧
  (ErrCode.none.toBits = 0 ∧ ErrCode.wireNotHigh.toBits = 1 ∧ ErrCode.crcMismatch.toBits = 2 ∧
    ErrCode.familyCodeMismatch.toBits = 3 ∧ ErrCode.portError.toBits = 4 ∧
    ErrCode.noSensor.toBits = 5 ∧ ErrCode.badCommand.toBits = 6) ∧
  (SrchResult.noResult.toBits = 0 ∧ SrchResult.found.toBits = 1 ∧ SrchResult.noneEnd.toBits = 2 ∧
    SrchResult.noneNoPresence.toBits = 3 ∧ SrchResult.noneNoResponse.toBits = 4 ∧
    SrchResult.noneError.toBits = 5) ∧
  (Phase.initialized.toBits = 0 ∧ Phase.deviceFound.toBits = 1 ∧ Phase.ended.toBits = 2) ∧
  lineBits .released = 0 ∧ lineBits .low = 1 ∧ lineBits .hold = 2

/-- Host accesses that land inside a command never change what it does: whatever accesses land, every
register but `OVR`, every bus event and every bus reply used is as in the run in which none lands. They land
in order, one that is due at acceptance at least, none that waits for an idle block, and `OVR` is what the
landed writes make it: set by each that is dropped (20_memory.md R66, R72, R75). The moments at which
accesses land are log entry 2. -/
def Obligations.HostAccessesDoNotDisturbCommands : Prop :=
  ∀ (i : Instr) (s : State), s.rst = false →
    (∀ a ∈ s.world.inbox, ∃ x, a.event = .access x) →
    ∃ t u, exec i s = .next t ∧ exec i (s.withInbox []) = .next u ∧
      t = { u with
        ovr := t.ovr
        world := { u.world with
          inbox := t.world.inbox, replies := t.world.replies, readDraws := t.world.readDraws } } ∧
      ∃ landed left : List Arrival, s.world.inbox = landed ++ left ∧
        t.world.inbox.map (·.event) = left.map (·.event) ∧
        t.ovr = ovrAfter s.ovr landed ∧
        (∀ a ∈ landed, a.moment ≠ .whenIdle) ∧
        (∀ a, s.world.inbox.head? = some a → a.moment = .after 0 → a ∈ landed)

/-! ## Control and acceptance -/

/-- `NOP` clears `ERR` and does nothing else (45_control.md R240). -/
def Obligations.NopOnlyClearsErr : Prop :=
  ∀ s : State, Quiet s → exec .nop s = .next (s.afterCommand 0 [] s.line)

/-- What acceptance raises, before any bus event and with no other effect: `BadCommand` for a reserved OP
value; `BadCommand` when `LEN > 16`, for the three commands that use it; `NoSensor` for `DS_START` and
`DS_READ` without a binding, whatever `LEN` is (30_encoding.md R83, R86, R90; 10_state.md R32;
60_exceptions.md R253). -/
def Obligations.AcceptanceChecksRaise : Prop :=
  ∀ (i : Instr) (seed : Bool) (len op : BitVec 5) (s : State), Quiet s →
    (i = .reserved1213 op ∨ i = .reserved1417 op ∨ i = .reserved181F op →
      exec i s = .next (s.afterRaise .badCommand 0 [] s.line)) ∧
    ((i = .crc8Compute seed len ∨ i = .rsWrite len ∨ i = .rsRead len) → 16 < len.toNat →
      exec i s = .next (s.afterRaise .badCommand 0 [] s.line)) ∧
    ((i = .dsStart ∨ i = .dsRead) → s.sensorValid = false →
      exec i s = .next (s.afterRaise .noSensor 0 [] s.line))

/-! ## Bit and byte transport, bus reset -/

/-- `OW_READ_BIT`: one read slot, the sampled level zero-extended in `DATA` (40_bit_transport.md R129,
R135). -/
def Obligations.ReadBitStoresTheSample : Prop :=
  ∀ s : State, Quiet s → BusOk s 3 →
    exec .owReadBit s = .next { s.afterCommand 3 (readSlotTrace (s.levelAt 2)) .released with
      data := (BitVec.ofBool (s.levelAt 2)).setWidth 32 }

/-- `OW_WRITE_BIT`: one write slot of `BITVAL` (40_bit_transport.md R130, R136). -/
def Obligations.WriteBitSendsOneSlot : Prop :=
  ∀ (v : Bool) (s : State), Quiet s → BusOk s 2 →
    exec (.owWriteBit v) s = .next (s.afterCommand 2 (writeSlotTrace v) .released)

/-- `OW_READ_BYTE`: eight read slots, least-significant bit first, the byte zero-extended in `DATA`
(40_bit_transport.md R132, R137). -/
def Obligations.ReadByteIsLsbFirst : Prop :=
  ∀ s : State, Quiet s → BusOk s 24 →
    ∃ b : Byte, (∀ j < 8, b.getLsbD j = s.levelAt (3 * j + 2)) ∧
      exec .owReadByte s = .next { s.afterCommand 24
          ((List.range 8).flatMap fun j => readSlotTrace (b.getLsbD j)) .released with
        data := b.setWidth 32 }

/-- `OW_WRITE_BYTE`: eight write slots of `DATA[7:0]`, least-significant bit first, then the line is held
or released by `HOLD` (40_bit_transport.md R132, R133, R138). -/
def Obligations.WriteByteIsLsbFirst : Prop :=
  ∀ (hold : Bool) (s : State), Quiet s → BusOk s 17 →
    exec (.owWriteByte hold) s = .next (s.afterCommand 17
      ((List.range 8).flatMap (fun j => writeSlotTrace (s.data.getLsbD j))
        ++ [if hold then .hold else .release])
      (lineAfter hold))

/-- `OW_RESET`: the wire-high check, the pulse and seven samples, a low one being a presence pulse
(40_bit_transport.md R127, R128, R134). -/
def Obligations.ResetCommandDetectsPresence : Prop :=
  ∀ (k : Nat) (s : State), Quiet s → WireHighAfter s k → BusOk s (s.resetEvents k) →
    exec .owReset s = .next { s.afterCommand (s.resetEvents k) (s.resetTrace k) .released with
      presence := s.presenceSeen k }

/-- A line that never reads high in 125 polls ends every command that resets the bus with `WireNotHigh`:
no low pulse, `PRESENCE` kept, and `NONE_ERROR` for a search (40_bit_transport.md R127, R139,
60_exceptions.md R250, R251). -/
def Obligations.StuckLineRaisesWireNotHigh : Prop :=
  ∀ (i : Instr) (s : State), Quiet s → resetsBus i s →
    BusOk s (s.heldEvents + 125) → (∀ j < 125, s.levelAt (s.heldEvents + j) = false) →
    exec i s = .next { s.afterRaise .wireNotHigh (s.heldEvents + 125)
        (s.releaseTrace ++ lowPollsTrace 125) .released with
      srchResult := if i.isSearch then .noneError else s.srchResult }

/-- A bus event that fails ends a transport command, a select or a wire command with `PortError(code)`: the
events the instruction issues before it stand, none follows, and no register but `ERR`, `ERR_INFO` and `LINE`
changes; `LINE` is a free value (40_bit_transport.md R125, 60_exceptions.md R250, R251, R254; log entry 4).
That the failed event is seen on the bus is log entry 17, and that a wire command run by itself records the
error as a command does is log entry 11. -/
def Obligations.PortFailureEndsTransport : Prop :=
  ∀ (i : Instr) (s : State) (f : Nat) (code : Byte), Quiet s → f < fixedEvents i → BusOk s f →
    s.replyAt f = .err code → exec i s = .next (s.portFailed code f (s.issues 0 i))

/-- A bus event that fails ends `OW_RESET`, `RS_WRITE`, `RS_READ`, `DS_START` or `DS_READ` with
`PortError(code)`: the events before it stand and none follows; `PRESENCE` is written only if the bus reset
was complete, the bytes of `BUF` read before it stay and the others are kept, and `WAIT_MS`, `CRC`, the
temperatures and all else are as before (40_bit_transport.md R125, 60_exceptions.md R251, 10_state.md R30,
43_select_transactions.md R205, 44_ds18b20.md R223, R225; log entries 4, 17). -/
def Obligations.PortFailureEndsTransactions : Prop :=
  ∀ (i : Instr) (s : State) (k f : Nat) (code : Byte), Quiet s → resetsBus i s → i.isSearch = false →
    PollsBefore s k f → BusOk s f → s.replyAt f = .err code → f < busCount (s.issues k i) →
    ∃ buf : Buffer, (∀ j < 16, byteAt buf j = s.bufByteAt k f i j) ∧
      exec i s = .next { s.portFailed code f (s.issues k i) with
        presence := if s.resetEvents k ≤ f then s.presenceSeen k else s.presence
        buf := buf }

/-- A wire command sends its byte with eight write slots, bit 0 first, and ends the byte released, or held
for Convert and Read Scratchpad when `CTRL.PARASITE = 1` (30_encoding.md R91, R92; that it runs as a step
of its own and leaves `ERR` as it is, is the model's choice, log entry 11). -/
def Obligations.WireCommandsSendTheirByte : Prop :=
  ∀ (i : Instr) (s : State), i.isHost = false → Quiet s → BusOk s 17 →
    exec i s = .next { s.afterBus 17 (writeByteTrace (wireByte i) (wireHolds i && s.parasite)) with
      busy := false, seq := .idle, line := lineAfter (wireHolds i && s.parasite) }

/-! ## Selection and transactions -/

/-- `OW_SELECT`: 0x55 and the eight bytes of `ROM`, only the last held, when `CTRL.PARASITE = 1`; no reset
(43_select_transactions.md R200, R201). -/
def Obligations.SelectSendsTheRom : Prop :=
  ∀ s : State, Quiet s → BusOk s 153 →
    exec .owSelect s = .next
      (s.afterCommand 153 (selectTrace s.rom s.parasite) (lineAfter s.parasite))

/-- `RS_WRITE`: reset, select once, `BUF[0..LEN-1]`; presence recorded and not tested
(43_select_transactions.md R203, R204, R207). -/
def Obligations.TransactionWritesTheBuffer : Prop :=
  ∀ (len : BitVec 5) (k : Nat) (s : State), Quiet s → len.toNat ≤ 16 → WireHighAfter s k →
    BusOk s (s.resetEvents k + 153 + 17 * len.toNat) →
    exec (.rsWrite len) s = .next { s.afterCommand (s.resetEvents k + 153 + 17 * len.toNat)
        (s.resetTrace k ++ selectTrace s.rom s.parasite
          ++ writeBytesTrace ((List.range len.toNat).map (byteAt s.buf)) s.parasite)
        (lineAfter s.parasite) with
      presence := s.presenceSeen k }

/-- `RS_READ`: reset, select once, `LEN` bytes into `BUF[0..LEN-1]`, the rest of `BUF` unchanged
(43_select_transactions.md R203, R205; 10_state.md R22). -/
def Obligations.TransactionReadsIntoTheBuffer : Prop :=
  ∀ (len : BitVec 5) (k : Nat) (s : State), Quiet s → len.toNat ≤ 16 → WireHighAfter s k →
    BusOk s (s.resetEvents k + 153 + 24 * len.toNat) →
    ∃ buf : Buffer,
      (∀ j < 16, byteAt buf j =
        if j < len.toNat then s.byteRead (s.resetEvents k + 153 + 24 * j) else byteAt s.buf j) ∧
      exec (.rsRead len) s = .next { s.afterCommand (s.resetEvents k + 153 + 24 * len.toNat)
          (s.resetTrace k ++ selectTrace s.rom s.parasite
            ++ s.readBytesTrace (s.resetEvents k + 153) len.toNat)
          (if len.toNat = 0 then lineAfter s.parasite else .released) with
        presence := s.presenceSeen k, buf := buf }

/-! ## The search -/

/-- `lastDiscrepancy` is the highest set bit of the bitmap, and none exactly when it is 0
(41_device_search.md R150). -/
def Obligations.LastDiscrepancyIsHighestBit : Prop :=
  ∀ d : Addr, (lastDiscrepancy d = none ↔ d = 0) ∧
    ∀ i, lastDiscrepancy d = some i ↔
      i < 64 ∧ d.getLsbD i = true ∧ ∀ j, i < j → j < 64 → d.getLsbD j = false

/-- `SEARCH_INIT`: a fresh search state, and nothing else (41_device_search.md R151). -/
def Obligations.SearchInitIsFresh : Prop :=
  ∀ s : State, Quiet s →
    exec .searchInit s = .next { s.afterCommand 0 [] s.line with
      saddr := 0, sdisc := 0, sphase := .initialized, srchResult := .noResult }

/-- The search calls that return nothing before the walk. At `End`: no bus event, the search state not
written. Without presence: the reset alone, the search state unchanged. With no pending discrepancy and a
device found before: the reset and the command byte, and the enumeration is at `End`
(41_device_search.md R153, R154, R156; 10_state.md R45). -/
def Obligations.SearchCallsThatReturnNothing : Prop :=
  ∀ (i : Instr) (k : Nat) (s : State), i.isSearch → Quiet s →
    (s.sphase = .ended →
      exec i s = .next { s.afterCommand 0 [] s.line with srchResult := .noneEnd }) ∧
    (s.sphase ≠ .ended → WireHighAfter s k → BusOk s (s.resetEvents k) → s.presenceSeen k = false →
      exec i s = .next { s.afterCommand (s.resetEvents k) (s.resetTrace k) .released with
        presence := false, srchResult := .noneNoPresence }) ∧
    (s.sphase = .deviceFound → s.sdisc = 0 → WireHighAfter s k → BusOk s (s.resetEvents k + 17) →
      s.presenceSeen k = true →
      exec i s = .next { s.afterCommand (s.resetEvents k + 17)
          (s.resetTrace k ++ writeByteTrace i.searchByte false) .released with
        presence := true, sphase := .ended, srchResult := .noneEnd })

/-- A bus event that fails ends a search call with `PortError(code)` and `NONE_ERROR`: the events before it
stand and none follows; `PRESENCE` is written only if the bus reset was complete; the address and bitmap
bits decided before it stay, also the bit whose write slot failed, and all else is kept, the phase, `FOUND`
and `CRC` among it (41_device_search.md R152, R157, R160; 60_exceptions.md R251; 10_state.md R30; log
entries 4, 17). -/
def Obligations.PortFailureEndsASearch : Prop :=
  ∀ (i : Instr) (s : State) (k e f : Nat) (ld : Option Nat) (code : Byte), Quiet s → i.isSearch →
    s.sphase ≠ .ended → PollsBefore s k f → BusOk s f → s.replyAt f = .err code →
    f < busCount (s.issues k i) → e = s.resetEvents k + 17 → ld = lastDiscrepancy s.sdisc →
    (∀ j < 64, some j ≠ ld → e + 8 * j + 6 ≤ f → s.answered e j = true) →
    ∃ a d : Addr,
      (∀ j < 64, a.getLsbD j =
        if e + 8 * j + 6 ≤ f then s.walkAddrBit ld e j else s.saddr.getLsbD j) ∧
      (∀ j < 64, d.getLsbD j =
        if e + 8 * j + 6 ≤ f then s.walkDiscBit ld e j else s.sdisc.getLsbD j) ∧
      exec i s = .next { s.portFailed code f (s.issues k i) with
        presence := if s.resetEvents k ≤ f then s.presenceSeen k else s.presence
        saddr := a, sdisc := d, srchResult := .noneError }

/-- A search call on a bus that answers every bit returns a device. Below the last discrepancy the address
and the bitmap are kept; at it the address bit becomes 1 and the mark is cleared, whatever the pair reads;
above it the address bit is the true bit, and the mark is set exactly at a fork. The phase is `End`
exactly when no discrepancy is left, and the device's CRC is evaluated and not an error
(41_device_search.md R152, R155, R157, R158, R159). -/
def Obligations.SearchCallReturnsADevice : Prop :=
  ∀ (i : Instr) (k e : Nat) (ld : Option Nat) (s : State), i.isSearch → Quiet s →
    s.sphase ≠ .ended → WireHighAfter s k → s.presenceSeen k = true →
    e = s.resetEvents k + 17 → BusOk s (e + 512) →
    ld = lastDiscrepancy s.sdisc → (ld = none → s.sphase ≠ .deviceFound) →
    (∀ j < 64, some j ≠ ld → s.answered e j = true) →
    ∃ a d : Addr,
      (∀ j < 64, a.getLsbD j = s.walkAddrBit ld e j) ∧
      (∀ j < 64, d.getLsbD j = s.walkDiscBit ld e j) ∧
      exec i s = .next { s.afterCommand (e + 512)
          (s.resetTrace k ++ writeByteTrace i.searchByte false
            ++ (List.range 64).flatMap (s.walkTrace ld e)) .released with
        presence := true, saddr := a, sdisc := d, found := a
        sphase := if d = 0 then .ended else .deviceFound
        srchResult := .found
        crcComputed := addrCrc a, crcExpected := byteAt a 7
        crcOk := addrCrc a == byteAt a 7 }

/-- A search call aborts where both bits of a pair read 1 away from the last discrepancy: it returns
nothing, keeps what it wrote below that bit, and leaves the phase, `FOUND` and `CRC`
(41_device_search.md R155, R157, R160). -/
def Obligations.SearchAbortKeepsPartialWalk : Prop :=
  ∀ (i : Instr) (k e m : Nat) (ld : Option Nat) (s : State), i.isSearch → Quiet s →
    s.sphase ≠ .ended → WireHighAfter s k → s.presenceSeen k = true →
    e = s.resetEvents k + 17 → BusOk s (e + 8 * m + 6) →
    ld = lastDiscrepancy s.sdisc → (ld = none → s.sphase ≠ .deviceFound) →
    m < 64 → some m ≠ ld → s.answered e m = false →
    (∀ j < m, some j ≠ ld → s.answered e j = true) →
    ∃ a d : Addr,
      (∀ j < 64, a.getLsbD j = if j < m then s.walkAddrBit ld e j else s.saddr.getLsbD j) ∧
      (∀ j < 64, d.getLsbD j = if j < m then s.walkDiscBit ld e j else s.sdisc.getLsbD j) ∧
      exec i s = .next { s.afterCommand (e + 8 * m + 6)
          (s.resetTrace k ++ writeByteTrace i.searchByte false
            ++ (List.range m).flatMap (s.walkTrace ld e)
            ++ readSlotTrace true ++ readSlotTrace true) .released with
        presence := true, saddr := a, sdisc := d, srchResult := .noneNoResponse }

/-- On a bus of devices `D` that answer as 1-Wire devices do, a fresh search finds the first device of
`D` in wire order, its bitmap marks exactly the forks left to visit, and the phase is `End` exactly when
there are none: what the next call starts from (41_device_search.md R163; how devices answer is general
knowledge, log entry 26, and a hypothesis here). -/
def Obligations.FreshSearchFindsTheFirstDevice : Prop :=
  ∀ (i : Instr) (k e : Nat) (s t : State) (D : List Addr), i.isSearch → Quiet s → D ≠ [] →
    s.sphase = .initialized → s.sdisc = 0 →
    WireHighAfter s k → s.presenceSeen k = true →
    e = s.resetEvents k + 17 → BusOk s (e + 512) →
    exec i s = .next t → DevicesAnswer D s e t.saddr →
    t.srchResult = .found ∧ t.err = .none ∧ t.found = t.saddr ∧ t.found ∈ D ∧
    (∀ d ∈ D, d = t.found ∨ wireAfter t.found d) ∧
    PendingExact D t.saddr t.sdisc ∧
    t.sphase = if t.sdisc = 0 then .ended else .deviceFound

/-- On such a bus a resumed search finds the next device of `D` in wire order after the last one, and
keeps the bitmap exact, with the phase `DeviceFound` while a fork is left, which is what the next call
starts from: so the calls of a session visit every device once, in wire order (41_device_search.md R163; how
devices answer is general knowledge, log entry 26, and a hypothesis here). -/
def Obligations.ResumedSearchFindsTheNextDevice : Prop :=
  ∀ (i : Instr) (k e : Nat) (s t : State) (D : List Addr), i.isSearch → Quiet s →
    s.sphase = .deviceFound → s.sdisc ≠ 0 → PendingExact D s.saddr s.sdisc →
    WireHighAfter s k → s.presenceSeen k = true →
    e = s.resetEvents k + 17 → BusOk s (e + 512) →
    exec i s = .next t → DevicesAnswer D s e t.saddr →
    t.srchResult = .found ∧ t.err = .none ∧ t.found = t.saddr ∧ t.found ∈ D ∧
    wireAfter s.saddr t.found ∧
    (∀ d ∈ D, wireAfter s.saddr d → d = t.found ∨ wireAfter t.found d) ∧
    PendingExact D t.saddr t.sdisc ∧
    t.sphase = if t.sdisc = 0 then .ended else .deviceFound

/-! ## CRC-8 -/

/-- The CRC of a sequence with its own CRC appended is 0; a valid address has CRC 0, and as a prefix it
changes nothing (42_crc8.md R182). -/
def Obligations.CrcResidueIsZero : Prop :=
  (∀ (seed : Byte) (m : List Byte), crc8 seed (m ++ [crc8 seed m]) = 0) ∧
  (∀ a : Addr, addrCrc a = byteAt a 7 →
    crc8z (addrBytes a) = 0 ∧ ∀ d : List Byte, crc8z (addrBytes a ++ d) = crc8z d)

/-- The table form: the CRC is a fold over the 256-entry table that 42_crc8.md R181 prints, whose entry
`i` is `crc8(0, [i])`. -/
def Obligations.CrcTableFormAgrees : Prop :=
  (∀ i : Byte, crc8 0 [i] = crcTable.getD i.toNat 0) ∧
  ∀ (seed : Byte) (m : List Byte),
    crc8 seed m = m.foldl (fun crc b => crcTable.getD (crc ^^^ b).toNat 0) seed

/-- `CRC_CHECK_ROM`: the CRC of `ROM[0..6]` against `ROM[7]`, recorded in `CRC` and `CRC_OK`; a mismatch
raises `CrcMismatch` with both bytes (42_crc8.md R183, R186). -/
def Obligations.CheckRomComparesTheCrc : Prop :=
  ∀ s : State, Quiet s →
    let c := addrCrc s.rom
    let x := byteAt s.rom 7
    exec .crcCheckRom s = .next (if c = x
      then { s.afterCommand 0 [] s.line with crcComputed := c, crcExpected := x, crcOk := true }
      else { s.afterRaise (.crcMismatch c x) 0 [] s.line with
        crcComputed := c, crcExpected := x, crcOk := false })

/-- `CRC8_COMPUTE`: the CRC of `ROM[0..7]` (with `SEED`) and `BUF[0..LEN-1]`, expected 0, no error
(42_crc8.md R187). -/
def Obligations.ComputeReportsTheCrc : Prop :=
  ∀ (seed : Bool) (len : BitVec 5) (s : State), Quiet s → len.toNat ≤ 16 →
    let c := crc8z ((if seed then addrBytes s.rom else [])
      ++ (List.range len.toNat).map (byteAt s.buf))
    exec (.crc8Compute seed len) s = .next { s.afterCommand 0 [] s.line with
      crcComputed := c, crcExpected := 0, crcOk := c == 0 }

/-! ## The DS18B20 layer -/

/-- `DS_BIND`: binds `ROM` and `CTRL.RES` when forced or when the family code is 0x28; else it raises
`FamilyCodeMismatch` and keeps the old binding (44_ds18b20.md R220, R221). -/
def Obligations.BindChecksTheFamilyCode : Prop :=
  ∀ (force : Bool) (s : State), Quiet s →
    exec (.dsBind force) s = .next (if force = true ∨ byteAt s.rom 0 = 0x28
      then { s.afterCommand 0 [] s.line with
        sensor := s.rom, sensorRes := s.res, sensorValid := true }
      else s.afterRaise (.familyCodeMismatch 0x28 (byteAt s.rom 0)) 0 [] s.line)

/-- `DS_START`: reset, select the bound device, Convert, held when `CTRL.PARASITE = 1`; `WAIT_MS` is the
table's wait of the bound resolution (44_ds18b20.md R222, R223; 10_state.md R26). -/
def Obligations.StartConvertsAndReportsTheWait : Prop :=
  ∀ (k : Nat) (s : State), Quiet s → s.sensorValid = true → WireHighAfter s k →
    BusOk s (s.resetEvents k + 170) →
    exec .dsStart s = .next { s.afterCommand (s.resetEvents k + 170)
        (s.resetTrace k ++ selectTrace s.sensor s.parasite ++ writeByteTrace 0x44 s.parasite)
        (lineAfter s.parasite) with
      presence := s.presenceSeen k
      waitMs := if s.sensorRes = 0 then 94 else if s.sensorRes = 1 then 188
        else if s.sensorRes = 2 then 375 else 750 }

/-- `DS_READ`: reset, select the bound device, Read Scratchpad, nine bytes into `BUF`; their CRC is seeded
with the bound address. When byte 8 is that CRC, the temperature registers take bytes 0 and 1; else
`CrcMismatch` is raised and they keep their values (44_ds18b20.md R224, R225, R227; 42_crc8.md R185). -/
def Obligations.ReadChecksAndDecodesTheScratchpad : Prop :=
  ∀ (k e : Nat) (s : State), Quiet s → s.sensorValid = true → WireHighAfter s k →
    e = s.resetEvents k + 170 → BusOk s (e + 216) →
    ∃ buf : Buffer,
      (∀ j < 16, byteAt buf j = if j < 9 then s.byteRead (e + 24 * j) else byteAt s.buf j) ∧
      let c := crc8z (addrBytes s.sensor ++ (List.range 8).map (byteAt buf))
      let x := byteAt buf 8
      let raw := byteAt buf 1 ++ byteAt buf 0
      let events := s.resetTrace k ++ selectTrace s.sensor s.parasite
        ++ writeByteTrace 0xBE s.parasite ++ s.readBytesTrace e 9
      exec .dsRead s = .next (if c = x
        then { s.afterCommand (e + 216) events .released with
          presence := s.presenceSeen k, buf := buf
          crcComputed := c, crcExpected := x, crcOk := true
          tempRaw := raw, tempSplit := packedSplit raw }
        else { s.afterRaise (.crcMismatch c x) (e + 216) events .released with
          presence := s.presenceSeen k, buf := buf
          crcComputed := c, crcExpected := x, crcOk := false })

/-- `SPLIT_TEMP`: `TEMP_SPLIT` holds the integer part of `DATA[15:0]` as `i16` in its low half and the
fraction as `i16` in its high half; nothing else changes (44_ds18b20.md R227, R228). -/
def Obligations.SplitTempPacksBothParts : Prop :=
  ∀ s : State, Quiet s →
    ∃ w : Word,
      (w.extractLsb' 0 16).toInt = splitInt (s.data.extractLsb' 0 16) ∧
      (w.extractLsb' 16 16).toInt = splitFrac (s.data.extractLsb' 0 16) ∧
      exec .splitTemp s = .next { s.afterCommand 0 [] s.line with tempSplit := w }

/-- The split is exact, `int + frac / 10000 = raw / 16`, and its parts never have opposite signs
(44_ds18b20.md R229). -/
def Obligations.SplitIsExact : Prop :=
  ∀ raw : BitVec 16,
    10000 * splitInt raw + splitFrac raw = 625 * raw.toInt ∧
    ¬(0 < splitInt raw ∧ splitFrac raw < 0) ∧ ¬(splitInt raw < 0 ∧ 0 < splitFrac raw)

/-! ## Frames and whole-machine rules, for every bus and every schedule of events -/

/-- Writing slots, bytes and the select sequence changes only the line, the error and what is outside the
block (40_bit_transport.md R136, R138; 43_select_transactions.md R201; 30_encoding.md R91). That a wire
command runs as a step of its own is the model's choice, log entry 11. -/
def Obligations.WritingCommandsFrame : Prop :=
  ∀ (i : Instr) (v : Bool) (s t : State),
    i = .owWriteBit v ∨ i = .owWriteByte v ∨ i = .owSelect ∨ i.isHost = false →
    s.rst = false → exec i s = .next t → t.rst = true ∨
    t = { s with
      err := t.err, errInfo := t.errInfo, busy := t.busy, seq := t.seq, line := t.line, ovr := t.ovr
      timebase := t.timebase, world := t.world }

/-- `OW_RESET` and `RS_WRITE` change besides only `PRESENCE`, `DS_START` also `WAIT_MS`
(40_bit_transport.md R134; 43_select_transactions.md R204; 44_ds18b20.md R223; 70_reset_and_hazards.md
R282). -/
def Obligations.ResettingCommandsFrame : Prop :=
  ∀ (i : Instr) (len : BitVec 5) (s t : State),
    i = .owReset ∨ i = .rsWrite len ∨ i = .dsStart →
    s.rst = false → exec i s = .next t → t.rst = true ∨
    t = { s with
      presence := t.presence, waitMs := if i = .dsStart then t.waitMs else s.waitMs
      err := t.err, errInfo := t.errInfo, busy := t.busy, seq := t.seq, line := t.line, ovr := t.ovr
      timebase := t.timebase, world := t.world }

/-- The reading commands change besides only their destination: `DATA`, or the bytes of `BUF` they read
into (40_bit_transport.md R135, R137; 43_select_transactions.md R205; 44_ds18b20.md R225). -/
def Obligations.ReadingCommandsFrame : Prop :=
  ∀ (i : Instr) (len : BitVec 5) (s t : State),
    i = .owReadBit ∨ i = .owReadByte ∨ i = .rsRead len ∨ i = .dsRead →
    s.rst = false → exec i s = .next t → t.rst = true ∨
    ((i = .rsRead len → ∀ j, len.toNat ≤ j → j < 16 → byteAt t.buf j = byteAt s.buf j) ∧
     (i = .dsRead → ∀ j, 9 ≤ j → j < 16 → byteAt t.buf j = byteAt s.buf j) ∧
     t = { s with
      data := if i = .owReadBit ∨ i = .owReadByte then t.data else s.data
      buf := if i = .rsRead len ∨ i = .dsRead then t.buf else s.buf
      presence := if i = .rsRead len ∨ i = .dsRead then t.presence else s.presence
      crcComputed := if i = .dsRead then t.crcComputed else s.crcComputed
      crcExpected := if i = .dsRead then t.crcExpected else s.crcExpected
      crcOk := if i = .dsRead then t.crcOk else s.crcOk
      tempRaw := if i = .dsRead then t.tempRaw else s.tempRaw
      tempSplit := if i = .dsRead then t.tempSplit else s.tempSplit
      err := t.err, errInfo := t.errInfo, busy := t.busy, seq := t.seq, line := t.line, ovr := t.ovr
      timebase := t.timebase, world := t.world })

/-- The search commands change only the search state, its results, `PRESENCE`, `CRC`, the line and the
error; `FOUND` and `CRC` only when they return a device (41_device_search.md R152, R161; 10_state.md R46,
R53). -/
def Obligations.SearchCommandsFrame : Prop :=
  ∀ (i : Instr) (s t : State), i.isSearch →
    s.rst = false → exec i s = .next t → t.rst = true ∨
    ((t.srchResult ≠ .found → t.found = s.found ∧ t.crcComputed = s.crcComputed ∧
        t.crcExpected = s.crcExpected ∧ t.crcOk = s.crcOk) ∧
     (s.sphase = .ended → t.saddr = s.saddr ∧ t.sdisc = s.sdisc ∧ t.sphase = .ended) ∧
     t = { s with
      saddr := t.saddr, sdisc := t.sdisc, sphase := t.sphase, srchResult := t.srchResult
      found := t.found, presence := t.presence
      crcComputed := t.crcComputed, crcExpected := t.crcExpected, crcOk := t.crcOk
      err := t.err, errInfo := t.errInfo, busy := t.busy, seq := t.seq, line := t.line, ovr := t.ovr
      timebase := t.timebase, world := t.world })

/-- The commands without bus activity issue no bus event and leave the line and the bus as they are
(70_reset_and_hazards.md R295, R297). -/
def Obligations.QuietCommandsTouchNoBus : Prop :=
  ∀ (i : Instr) (seed : Bool) (len op : BitVec 5) (s t : State),
    i = .nop ∨ i = .searchInit ∨ i = .crcCheckRom ∨ i = .crc8Compute seed len ∨ i = .dsBind seed ∨
      i = .splitTemp ∨ i = .reserved1213 op ∨ i = .reserved1417 op ∨ i = .reserved181F op →
    s.rst = false → exec i s = .next t → t.rst = true ∨
    (t.line = s.line ∧ t.presence = s.presence ∧ t.world.bus = s.world.bus ∧
      t.world.trace = s.world.trace ∧ t.timebase = s.timebase ∧ t.data = s.data ∧ t.rom = s.rom ∧
      t.buf = s.buf ∧ t.parasite = s.parasite ∧ t.res = s.res)

/-- A command raises only the errors its row of 60_exceptions.md R252 lists, and one that raises none
keeps `ERR_INFO` (R250, R252, R256; 10_state.md R34, R38). -/
def Obligations.CommandsRaiseOnlyTheirErrors : Prop :=
  ∀ (i : Instr) (s t : State), i.isHost → s.rst = false → exec i s = .next t → t.rst = true ∨
    ((t.err = .none ∧ t.errInfo = s.errInfo) ∨ t.err ∈ canRaise i)

/-- Every instruction ends, whatever the bus answers and whatever events land, after at most 672 bus events,
given that every bus event completes, with `OK` or `ERR`, which the model supposes (log entry 19, unsafe:
a port that stalls for ever is not in it): the count of the longest, an `RS_READ` of 16 bytes on a held line that is slow to rise
(60_exceptions.md R268, 70_reset_and_hazards.md R298). -/
def Obligations.EveryCommandEnds : Prop :=
  ∀ (i : Instr) (s : State), ∃ t, exec i s = .next t ∧
    busCount t.world.trace ≤ busCount s.world.trace + 672
end

