-- ==== Sys2Proof/Laws/State.lean ====
section
/-!
SUPPORT. One lemma per field for each named update of the state, true by definition, so that no proof
unfolds a record update.
-/

namespace Sys2Proof.Machine

/-! ### `withInbox` -/

@[simp] theorem State.withInbox_parasite (s : State) (q : List Arrival) : (s.withInbox q).parasite = s.parasite := rfl
@[simp] theorem State.withInbox_res (s : State) (q : List Arrival) : (s.withInbox q).res = s.res := rfl
@[simp] theorem State.withInbox_busy (s : State) (q : List Arrival) : (s.withInbox q).busy = s.busy := rfl
@[simp] theorem State.withInbox_presence (s : State) (q : List Arrival) : (s.withInbox q).presence = s.presence := rfl
@[simp] theorem State.withInbox_crcOk (s : State) (q : List Arrival) : (s.withInbox q).crcOk = s.crcOk := rfl
@[simp] theorem State.withInbox_sensorValid (s : State) (q : List Arrival) : (s.withInbox q).sensorValid = s.sensorValid := rfl
@[simp] theorem State.withInbox_ovr (s : State) (q : List Arrival) : (s.withInbox q).ovr = s.ovr := rfl
@[simp] theorem State.withInbox_err (s : State) (q : List Arrival) : (s.withInbox q).err = s.err := rfl
@[simp] theorem State.withInbox_srchResult (s : State) (q : List Arrival) : (s.withInbox q).srchResult = s.srchResult := rfl
@[simp] theorem State.withInbox_sphase (s : State) (q : List Arrival) : (s.withInbox q).sphase = s.sphase := rfl
@[simp] theorem State.withInbox_line (s : State) (q : List Arrival) : (s.withInbox q).line = s.line := rfl
@[simp] theorem State.withInbox_errInfo (s : State) (q : List Arrival) : (s.withInbox q).errInfo = s.errInfo := rfl
@[simp] theorem State.withInbox_crcComputed (s : State) (q : List Arrival) : (s.withInbox q).crcComputed = s.crcComputed := rfl
@[simp] theorem State.withInbox_crcExpected (s : State) (q : List Arrival) : (s.withInbox q).crcExpected = s.crcExpected := rfl
@[simp] theorem State.withInbox_data (s : State) (q : List Arrival) : (s.withInbox q).data = s.data := rfl
@[simp] theorem State.withInbox_rom (s : State) (q : List Arrival) : (s.withInbox q).rom = s.rom := rfl
@[simp] theorem State.withInbox_buf (s : State) (q : List Arrival) : (s.withInbox q).buf = s.buf := rfl
@[simp] theorem State.withInbox_saddr (s : State) (q : List Arrival) : (s.withInbox q).saddr = s.saddr := rfl
@[simp] theorem State.withInbox_sdisc (s : State) (q : List Arrival) : (s.withInbox q).sdisc = s.sdisc := rfl
@[simp] theorem State.withInbox_found (s : State) (q : List Arrival) : (s.withInbox q).found = s.found := rfl
@[simp] theorem State.withInbox_sensor (s : State) (q : List Arrival) : (s.withInbox q).sensor = s.sensor := rfl
@[simp] theorem State.withInbox_sensorRes (s : State) (q : List Arrival) : (s.withInbox q).sensorRes = s.sensorRes := rfl
@[simp] theorem State.withInbox_waitMs (s : State) (q : List Arrival) : (s.withInbox q).waitMs = s.waitMs := rfl
@[simp] theorem State.withInbox_tempRaw (s : State) (q : List Arrival) : (s.withInbox q).tempRaw = s.tempRaw := rfl
@[simp] theorem State.withInbox_tempSplit (s : State) (q : List Arrival) : (s.withInbox q).tempSplit = s.tempSplit := rfl
@[simp] theorem State.withInbox_cur (s : State) (q : List Arrival) : (s.withInbox q).cur = s.cur := rfl
@[simp] theorem State.withInbox_seq (s : State) (q : List Arrival) : (s.withInbox q).seq = s.seq := rfl
@[simp] theorem State.withInbox_timebase (s : State) (q : List Arrival) : (s.withInbox q).timebase = s.timebase := rfl
@[simp] theorem State.withInbox_rst (s : State) (q : List Arrival) : (s.withInbox q).rst = s.rst := rfl
@[simp] theorem State.withInbox_wireCmd (s : State) (q : List Arrival) : (s.withInbox q).wireCmd = s.wireCmd := rfl
@[simp] theorem State.withInbox_inbox (s : State) (q : List Arrival) : (s.withInbox q).world.inbox = q := rfl
@[simp] theorem State.withInbox_bus (s : State) (q : List Arrival) : (s.withInbox q).world.bus = s.world.bus := rfl
@[simp] theorem State.withInbox_trace (s : State) (q : List Arrival) : (s.withInbox q).world.trace = s.world.trace := rfl
@[simp] theorem State.withInbox_replies (s : State) (q : List Arrival) : (s.withInbox q).world.replies = s.world.replies := rfl
@[simp] theorem State.withInbox_busDraws (s : State) (q : List Arrival) : (s.withInbox q).world.busDraws = s.world.busDraws := rfl
@[simp] theorem State.withInbox_lineDraws (s : State) (q : List Arrival) : (s.withInbox q).world.lineDraws = s.world.lineDraws := rfl
@[simp] theorem State.withInbox_readDraws (s : State) (q : List Arrival) : (s.withInbox q).world.readDraws = s.world.readDraws := rfl
@[simp] theorem State.withInbox_resetDraws (s : State) (q : List Arrival) : (s.withInbox q).world.resetDraws = s.world.resetDraws := rfl

/-! ### `record` -/

@[simp] theorem State.record_parasite (s : State) (e : BusEvent) : (s.record e).parasite = s.parasite := rfl
@[simp] theorem State.record_res (s : State) (e : BusEvent) : (s.record e).res = s.res := rfl
@[simp] theorem State.record_busy (s : State) (e : BusEvent) : (s.record e).busy = s.busy := rfl
@[simp] theorem State.record_presence (s : State) (e : BusEvent) : (s.record e).presence = s.presence := rfl
@[simp] theorem State.record_crcOk (s : State) (e : BusEvent) : (s.record e).crcOk = s.crcOk := rfl
@[simp] theorem State.record_sensorValid (s : State) (e : BusEvent) : (s.record e).sensorValid = s.sensorValid := rfl
@[simp] theorem State.record_ovr (s : State) (e : BusEvent) : (s.record e).ovr = s.ovr := rfl
@[simp] theorem State.record_err (s : State) (e : BusEvent) : (s.record e).err = s.err := rfl
@[simp] theorem State.record_srchResult (s : State) (e : BusEvent) : (s.record e).srchResult = s.srchResult := rfl
@[simp] theorem State.record_sphase (s : State) (e : BusEvent) : (s.record e).sphase = s.sphase := rfl
@[simp] theorem State.record_line (s : State) (e : BusEvent) : (s.record e).line = s.line := rfl
@[simp] theorem State.record_errInfo (s : State) (e : BusEvent) : (s.record e).errInfo = s.errInfo := rfl
@[simp] theorem State.record_crcComputed (s : State) (e : BusEvent) : (s.record e).crcComputed = s.crcComputed := rfl
@[simp] theorem State.record_crcExpected (s : State) (e : BusEvent) : (s.record e).crcExpected = s.crcExpected := rfl
@[simp] theorem State.record_data (s : State) (e : BusEvent) : (s.record e).data = s.data := rfl
@[simp] theorem State.record_rom (s : State) (e : BusEvent) : (s.record e).rom = s.rom := rfl
@[simp] theorem State.record_buf (s : State) (e : BusEvent) : (s.record e).buf = s.buf := rfl
@[simp] theorem State.record_saddr (s : State) (e : BusEvent) : (s.record e).saddr = s.saddr := rfl
@[simp] theorem State.record_sdisc (s : State) (e : BusEvent) : (s.record e).sdisc = s.sdisc := rfl
@[simp] theorem State.record_found (s : State) (e : BusEvent) : (s.record e).found = s.found := rfl
@[simp] theorem State.record_sensor (s : State) (e : BusEvent) : (s.record e).sensor = s.sensor := rfl
@[simp] theorem State.record_sensorRes (s : State) (e : BusEvent) : (s.record e).sensorRes = s.sensorRes := rfl
@[simp] theorem State.record_waitMs (s : State) (e : BusEvent) : (s.record e).waitMs = s.waitMs := rfl
@[simp] theorem State.record_tempRaw (s : State) (e : BusEvent) : (s.record e).tempRaw = s.tempRaw := rfl
@[simp] theorem State.record_tempSplit (s : State) (e : BusEvent) : (s.record e).tempSplit = s.tempSplit := rfl
@[simp] theorem State.record_cur (s : State) (e : BusEvent) : (s.record e).cur = s.cur := rfl
@[simp] theorem State.record_seq (s : State) (e : BusEvent) : (s.record e).seq = s.seq := rfl
@[simp] theorem State.record_timebase (s : State) (e : BusEvent) : (s.record e).timebase = s.timebase := rfl
@[simp] theorem State.record_rst (s : State) (e : BusEvent) : (s.record e).rst = s.rst := rfl
@[simp] theorem State.record_wireCmd (s : State) (e : BusEvent) : (s.record e).wireCmd = s.wireCmd := rfl
@[simp] theorem State.record_inbox (s : State) (e : BusEvent) : (s.record e).world.inbox = s.world.inbox := rfl
@[simp] theorem State.record_bus (s : State) (e : BusEvent) : (s.record e).world.bus = s.world.bus := rfl
@[simp] theorem State.record_trace (s : State) (e : BusEvent) : (s.record e).world.trace = e :: s.world.trace := rfl
@[simp] theorem State.record_replies (s : State) (e : BusEvent) : (s.record e).world.replies = s.world.replies := rfl
@[simp] theorem State.record_busDraws (s : State) (e : BusEvent) : (s.record e).world.busDraws = s.world.busDraws := rfl
@[simp] theorem State.record_lineDraws (s : State) (e : BusEvent) : (s.record e).world.lineDraws = s.world.lineDraws := rfl
@[simp] theorem State.record_readDraws (s : State) (e : BusEvent) : (s.record e).world.readDraws = s.world.readDraws := rfl
@[simp] theorem State.record_resetDraws (s : State) (e : BusEvent) : (s.record e).world.resetDraws = s.world.resetDraws := rfl

/-! ### `loseLine` -/

@[simp] theorem State.loseLine_parasite (s : State) : (s.loseLine).parasite = s.parasite := rfl
@[simp] theorem State.loseLine_res (s : State) : (s.loseLine).res = s.res := rfl
@[simp] theorem State.loseLine_busy (s : State) : (s.loseLine).busy = s.busy := rfl
@[simp] theorem State.loseLine_presence (s : State) : (s.loseLine).presence = s.presence := rfl
@[simp] theorem State.loseLine_crcOk (s : State) : (s.loseLine).crcOk = s.crcOk := rfl
@[simp] theorem State.loseLine_sensorValid (s : State) : (s.loseLine).sensorValid = s.sensorValid := rfl
@[simp] theorem State.loseLine_ovr (s : State) : (s.loseLine).ovr = s.ovr := rfl
@[simp] theorem State.loseLine_err (s : State) : (s.loseLine).err = s.err := rfl
@[simp] theorem State.loseLine_srchResult (s : State) : (s.loseLine).srchResult = s.srchResult := rfl
@[simp] theorem State.loseLine_sphase (s : State) : (s.loseLine).sphase = s.sphase := rfl
@[simp] theorem State.loseLine_line (s : State) : (s.loseLine).line = Config.freeLine s.world.lineDraws := rfl
@[simp] theorem State.loseLine_errInfo (s : State) : (s.loseLine).errInfo = s.errInfo := rfl
@[simp] theorem State.loseLine_crcComputed (s : State) : (s.loseLine).crcComputed = s.crcComputed := rfl
@[simp] theorem State.loseLine_crcExpected (s : State) : (s.loseLine).crcExpected = s.crcExpected := rfl
@[simp] theorem State.loseLine_data (s : State) : (s.loseLine).data = s.data := rfl
@[simp] theorem State.loseLine_rom (s : State) : (s.loseLine).rom = s.rom := rfl
@[simp] theorem State.loseLine_buf (s : State) : (s.loseLine).buf = s.buf := rfl
@[simp] theorem State.loseLine_saddr (s : State) : (s.loseLine).saddr = s.saddr := rfl
@[simp] theorem State.loseLine_sdisc (s : State) : (s.loseLine).sdisc = s.sdisc := rfl
@[simp] theorem State.loseLine_found (s : State) : (s.loseLine).found = s.found := rfl
@[simp] theorem State.loseLine_sensor (s : State) : (s.loseLine).sensor = s.sensor := rfl
@[simp] theorem State.loseLine_sensorRes (s : State) : (s.loseLine).sensorRes = s.sensorRes := rfl
@[simp] theorem State.loseLine_waitMs (s : State) : (s.loseLine).waitMs = s.waitMs := rfl
@[simp] theorem State.loseLine_tempRaw (s : State) : (s.loseLine).tempRaw = s.tempRaw := rfl
@[simp] theorem State.loseLine_tempSplit (s : State) : (s.loseLine).tempSplit = s.tempSplit := rfl
@[simp] theorem State.loseLine_cur (s : State) : (s.loseLine).cur = s.cur := rfl
@[simp] theorem State.loseLine_seq (s : State) : (s.loseLine).seq = s.seq := rfl
@[simp] theorem State.loseLine_timebase (s : State) : (s.loseLine).timebase = s.timebase := rfl
@[simp] theorem State.loseLine_rst (s : State) : (s.loseLine).rst = s.rst := rfl
@[simp] theorem State.loseLine_wireCmd (s : State) : (s.loseLine).wireCmd = s.wireCmd := rfl
@[simp] theorem State.loseLine_inbox (s : State) : (s.loseLine).world.inbox = s.world.inbox := rfl
@[simp] theorem State.loseLine_bus (s : State) : (s.loseLine).world.bus = s.world.bus := rfl
@[simp] theorem State.loseLine_trace (s : State) : (s.loseLine).world.trace = s.world.trace := rfl
@[simp] theorem State.loseLine_replies (s : State) : (s.loseLine).world.replies = s.world.replies := rfl
@[simp] theorem State.loseLine_busDraws (s : State) : (s.loseLine).world.busDraws = s.world.busDraws := rfl
@[simp] theorem State.loseLine_lineDraws (s : State) : (s.loseLine).world.lineDraws = s.world.lineDraws + 1 := rfl
@[simp] theorem State.loseLine_readDraws (s : State) : (s.loseLine).world.readDraws = s.world.readDraws := rfl
@[simp] theorem State.loseLine_resetDraws (s : State) : (s.loseLine).world.resetDraws = s.world.resetDraws := rfl

/-! ### `crcEval` -/

@[simp] theorem State.crcEval_parasite (s : State) (c x : Byte) : (s.crcEval c x).parasite = s.parasite := rfl
@[simp] theorem State.crcEval_res (s : State) (c x : Byte) : (s.crcEval c x).res = s.res := rfl
@[simp] theorem State.crcEval_busy (s : State) (c x : Byte) : (s.crcEval c x).busy = s.busy := rfl
@[simp] theorem State.crcEval_presence (s : State) (c x : Byte) : (s.crcEval c x).presence = s.presence := rfl
@[simp] theorem State.crcEval_crcOk (s : State) (c x : Byte) : (s.crcEval c x).crcOk = (c == x) := rfl
@[simp] theorem State.crcEval_sensorValid (s : State) (c x : Byte) : (s.crcEval c x).sensorValid = s.sensorValid := rfl
@[simp] theorem State.crcEval_ovr (s : State) (c x : Byte) : (s.crcEval c x).ovr = s.ovr := rfl
@[simp] theorem State.crcEval_err (s : State) (c x : Byte) : (s.crcEval c x).err = s.err := rfl
@[simp] theorem State.crcEval_srchResult (s : State) (c x : Byte) : (s.crcEval c x).srchResult = s.srchResult := rfl
@[simp] theorem State.crcEval_sphase (s : State) (c x : Byte) : (s.crcEval c x).sphase = s.sphase := rfl
@[simp] theorem State.crcEval_line (s : State) (c x : Byte) : (s.crcEval c x).line = s.line := rfl
@[simp] theorem State.crcEval_errInfo (s : State) (c x : Byte) : (s.crcEval c x).errInfo = s.errInfo := rfl
@[simp] theorem State.crcEval_crcComputed (s : State) (c x : Byte) : (s.crcEval c x).crcComputed = c := rfl
@[simp] theorem State.crcEval_crcExpected (s : State) (c x : Byte) : (s.crcEval c x).crcExpected = x := rfl
@[simp] theorem State.crcEval_data (s : State) (c x : Byte) : (s.crcEval c x).data = s.data := rfl
@[simp] theorem State.crcEval_rom (s : State) (c x : Byte) : (s.crcEval c x).rom = s.rom := rfl
@[simp] theorem State.crcEval_buf (s : State) (c x : Byte) : (s.crcEval c x).buf = s.buf := rfl
@[simp] theorem State.crcEval_saddr (s : State) (c x : Byte) : (s.crcEval c x).saddr = s.saddr := rfl
@[simp] theorem State.crcEval_sdisc (s : State) (c x : Byte) : (s.crcEval c x).sdisc = s.sdisc := rfl
@[simp] theorem State.crcEval_found (s : State) (c x : Byte) : (s.crcEval c x).found = s.found := rfl
@[simp] theorem State.crcEval_sensor (s : State) (c x : Byte) : (s.crcEval c x).sensor = s.sensor := rfl
@[simp] theorem State.crcEval_sensorRes (s : State) (c x : Byte) : (s.crcEval c x).sensorRes = s.sensorRes := rfl
@[simp] theorem State.crcEval_waitMs (s : State) (c x : Byte) : (s.crcEval c x).waitMs = s.waitMs := rfl
@[simp] theorem State.crcEval_tempRaw (s : State) (c x : Byte) : (s.crcEval c x).tempRaw = s.tempRaw := rfl
@[simp] theorem State.crcEval_tempSplit (s : State) (c x : Byte) : (s.crcEval c x).tempSplit = s.tempSplit := rfl
@[simp] theorem State.crcEval_cur (s : State) (c x : Byte) : (s.crcEval c x).cur = s.cur := rfl
@[simp] theorem State.crcEval_seq (s : State) (c x : Byte) : (s.crcEval c x).seq = s.seq := rfl
@[simp] theorem State.crcEval_timebase (s : State) (c x : Byte) : (s.crcEval c x).timebase = s.timebase := rfl
@[simp] theorem State.crcEval_rst (s : State) (c x : Byte) : (s.crcEval c x).rst = s.rst := rfl
@[simp] theorem State.crcEval_wireCmd (s : State) (c x : Byte) : (s.crcEval c x).wireCmd = s.wireCmd := rfl
@[simp] theorem State.crcEval_world (s : State) (c x : Byte) : (s.crcEval c x).world = s.world := rfl

/-! ### `accept` -/

@[simp] theorem accept_parasite (s : State) : (accept s).parasite = s.parasite := rfl
@[simp] theorem accept_res (s : State) : (accept s).res = s.res := rfl
@[simp] theorem accept_busy (s : State) : (accept s).busy = true := rfl
@[simp] theorem accept_presence (s : State) : (accept s).presence = s.presence := rfl
@[simp] theorem accept_crcOk (s : State) : (accept s).crcOk = s.crcOk := rfl
@[simp] theorem accept_sensorValid (s : State) : (accept s).sensorValid = s.sensorValid := rfl
@[simp] theorem accept_ovr (s : State) : (accept s).ovr = s.ovr := rfl
@[simp] theorem accept_err (s : State) : (accept s).err = .none := rfl
@[simp] theorem accept_srchResult (s : State) : (accept s).srchResult = s.srchResult := rfl
@[simp] theorem accept_sphase (s : State) : (accept s).sphase = s.sphase := rfl
@[simp] theorem accept_line (s : State) : (accept s).line = s.line := rfl
@[simp] theorem accept_errInfo (s : State) : (accept s).errInfo = s.errInfo := rfl
@[simp] theorem accept_crcComputed (s : State) : (accept s).crcComputed = s.crcComputed := rfl
@[simp] theorem accept_crcExpected (s : State) : (accept s).crcExpected = s.crcExpected := rfl
@[simp] theorem accept_data (s : State) : (accept s).data = s.data := rfl
@[simp] theorem accept_rom (s : State) : (accept s).rom = s.rom := rfl
@[simp] theorem accept_buf (s : State) : (accept s).buf = s.buf := rfl
@[simp] theorem accept_saddr (s : State) : (accept s).saddr = s.saddr := rfl
@[simp] theorem accept_sdisc (s : State) : (accept s).sdisc = s.sdisc := rfl
@[simp] theorem accept_found (s : State) : (accept s).found = s.found := rfl
@[simp] theorem accept_sensor (s : State) : (accept s).sensor = s.sensor := rfl
@[simp] theorem accept_sensorRes (s : State) : (accept s).sensorRes = s.sensorRes := rfl
@[simp] theorem accept_waitMs (s : State) : (accept s).waitMs = s.waitMs := rfl
@[simp] theorem accept_tempRaw (s : State) : (accept s).tempRaw = s.tempRaw := rfl
@[simp] theorem accept_tempSplit (s : State) : (accept s).tempSplit = s.tempSplit := rfl
@[simp] theorem accept_cur (s : State) : (accept s).cur = s.cur := rfl
@[simp] theorem accept_seq (s : State) : (accept s).seq = .busy s.cur 0 := rfl
@[simp] theorem accept_timebase (s : State) : (accept s).timebase = s.timebase := rfl
@[simp] theorem accept_rst (s : State) : (accept s).rst = s.rst := rfl
@[simp] theorem accept_wireCmd (s : State) : (accept s).wireCmd = s.wireCmd := rfl
@[simp] theorem accept_world (s : State) : (accept s).world = s.world := rfl

/-! ### `complete` -/

@[simp] theorem complete_parasite (s : State) : (complete s).parasite = s.parasite := rfl
@[simp] theorem complete_res (s : State) : (complete s).res = s.res := rfl
@[simp] theorem complete_busy (s : State) : (complete s).busy = false := rfl
@[simp] theorem complete_presence (s : State) : (complete s).presence = s.presence := rfl
@[simp] theorem complete_crcOk (s : State) : (complete s).crcOk = s.crcOk := rfl
@[simp] theorem complete_sensorValid (s : State) : (complete s).sensorValid = s.sensorValid := rfl
@[simp] theorem complete_ovr (s : State) : (complete s).ovr = s.ovr := rfl
@[simp] theorem complete_err (s : State) : (complete s).err = s.err := rfl
@[simp] theorem complete_srchResult (s : State) : (complete s).srchResult = s.srchResult := rfl
@[simp] theorem complete_sphase (s : State) : (complete s).sphase = s.sphase := rfl
@[simp] theorem complete_line (s : State) : (complete s).line = s.line := rfl
@[simp] theorem complete_errInfo (s : State) : (complete s).errInfo = s.errInfo := rfl
@[simp] theorem complete_crcComputed (s : State) : (complete s).crcComputed = s.crcComputed := rfl
@[simp] theorem complete_crcExpected (s : State) : (complete s).crcExpected = s.crcExpected := rfl
@[simp] theorem complete_data (s : State) : (complete s).data = s.data := rfl
@[simp] theorem complete_rom (s : State) : (complete s).rom = s.rom := rfl
@[simp] theorem complete_buf (s : State) : (complete s).buf = s.buf := rfl
@[simp] theorem complete_saddr (s : State) : (complete s).saddr = s.saddr := rfl
@[simp] theorem complete_sdisc (s : State) : (complete s).sdisc = s.sdisc := rfl
@[simp] theorem complete_found (s : State) : (complete s).found = s.found := rfl
@[simp] theorem complete_sensor (s : State) : (complete s).sensor = s.sensor := rfl
@[simp] theorem complete_sensorRes (s : State) : (complete s).sensorRes = s.sensorRes := rfl
@[simp] theorem complete_waitMs (s : State) : (complete s).waitMs = s.waitMs := rfl
@[simp] theorem complete_tempRaw (s : State) : (complete s).tempRaw = s.tempRaw := rfl
@[simp] theorem complete_tempSplit (s : State) : (complete s).tempSplit = s.tempSplit := rfl
@[simp] theorem complete_cur (s : State) : (complete s).cur = s.cur := rfl
@[simp] theorem complete_seq (s : State) : (complete s).seq = .idle := rfl
@[simp] theorem complete_timebase (s : State) : (complete s).timebase = s.timebase := rfl
@[simp] theorem complete_rst (s : State) : (complete s).rst = s.rst := rfl
@[simp] theorem complete_wireCmd (s : State) : (complete s).wireCmd = s.wireCmd := rfl
@[simp] theorem complete_world (s : State) : (complete s).world = s.world := rfl

/-! ### `recordError` -/

@[simp] theorem recordError_parasite (b : Bool) (e : Error) (s : State) : (recordError b e s).parasite = s.parasite := rfl
@[simp] theorem recordError_res (b : Bool) (e : Error) (s : State) : (recordError b e s).res = s.res := rfl
@[simp] theorem recordError_busy (b : Bool) (e : Error) (s : State) : (recordError b e s).busy = s.busy := rfl
@[simp] theorem recordError_presence (b : Bool) (e : Error) (s : State) : (recordError b e s).presence = s.presence := rfl
@[simp] theorem recordError_crcOk (b : Bool) (e : Error) (s : State) : (recordError b e s).crcOk = s.crcOk := rfl
@[simp] theorem recordError_sensorValid (b : Bool) (e : Error) (s : State) : (recordError b e s).sensorValid = s.sensorValid := rfl
@[simp] theorem recordError_ovr (b : Bool) (e : Error) (s : State) : (recordError b e s).ovr = s.ovr := rfl
@[simp] theorem recordError_err (b : Bool) (e : Error) (s : State) : (recordError b e s).err = e.code := rfl
@[simp] theorem recordError_srchResult (b : Bool) (e : Error) (s : State) : (recordError b e s).srchResult = if b then .noneError else s.srchResult := rfl
@[simp] theorem recordError_sphase (b : Bool) (e : Error) (s : State) : (recordError b e s).sphase = s.sphase := rfl
@[simp] theorem recordError_line (b : Bool) (e : Error) (s : State) : (recordError b e s).line = s.line := rfl
@[simp] theorem recordError_errInfo (b : Bool) (e : Error) (s : State) : (recordError b e s).errInfo = e.info := rfl
@[simp] theorem recordError_crcComputed (b : Bool) (e : Error) (s : State) : (recordError b e s).crcComputed = s.crcComputed := rfl
@[simp] theorem recordError_crcExpected (b : Bool) (e : Error) (s : State) : (recordError b e s).crcExpected = s.crcExpected := rfl
@[simp] theorem recordError_data (b : Bool) (e : Error) (s : State) : (recordError b e s).data = s.data := rfl
@[simp] theorem recordError_rom (b : Bool) (e : Error) (s : State) : (recordError b e s).rom = s.rom := rfl
@[simp] theorem recordError_buf (b : Bool) (e : Error) (s : State) : (recordError b e s).buf = s.buf := rfl
@[simp] theorem recordError_saddr (b : Bool) (e : Error) (s : State) : (recordError b e s).saddr = s.saddr := rfl
@[simp] theorem recordError_sdisc (b : Bool) (e : Error) (s : State) : (recordError b e s).sdisc = s.sdisc := rfl
@[simp] theorem recordError_found (b : Bool) (e : Error) (s : State) : (recordError b e s).found = s.found := rfl
@[simp] theorem recordError_sensor (b : Bool) (e : Error) (s : State) : (recordError b e s).sensor = s.sensor := rfl
@[simp] theorem recordError_sensorRes (b : Bool) (e : Error) (s : State) : (recordError b e s).sensorRes = s.sensorRes := rfl
@[simp] theorem recordError_waitMs (b : Bool) (e : Error) (s : State) : (recordError b e s).waitMs = s.waitMs := rfl
@[simp] theorem recordError_tempRaw (b : Bool) (e : Error) (s : State) : (recordError b e s).tempRaw = s.tempRaw := rfl
@[simp] theorem recordError_tempSplit (b : Bool) (e : Error) (s : State) : (recordError b e s).tempSplit = s.tempSplit := rfl
@[simp] theorem recordError_cur (b : Bool) (e : Error) (s : State) : (recordError b e s).cur = s.cur := rfl
@[simp] theorem recordError_seq (b : Bool) (e : Error) (s : State) : (recordError b e s).seq = s.seq := rfl
@[simp] theorem recordError_timebase (b : Bool) (e : Error) (s : State) : (recordError b e s).timebase = s.timebase := rfl
@[simp] theorem recordError_rst (b : Bool) (e : Error) (s : State) : (recordError b e s).rst = s.rst := rfl
@[simp] theorem recordError_wireCmd (b : Bool) (e : Error) (s : State) : (recordError b e s).wireCmd = s.wireCmd := rfl
@[simp] theorem recordError_world (b : Bool) (e : Error) (s : State) : (recordError b e s).world = s.world := rfl

end Sys2Proof.Machine
end

