-- ==== Sys2Proof/Laws/Ops.lean ====
section
/-!
SUPPORT. What the bus primitives do when no event from outside lands and no bus event fails: each leaves a
state of the form `s.ran n events line`, and such states compose.
-/

namespace Sys2Proof.Machine

/-- `SEQ` after `n` more bus events. -/
def Seq.plus : Seq → Nat → Seq
  | .idle, _ => .idle
  | .busy cmd k, n => .busy cmd (k + n)

/-- The state in the course of a command, after `n` bus events that put `events` on the bus and left the
line at `l`. -/
def State.ran (n : Nat) (events : List BusEvent) (l : Line) (s : State) : State :=
  { s.afterBus n events with line := l, seq := s.seq.plus n }

theorem Seq.plus_zero (q : Seq) : q.plus 0 = q := by cases q <;> rfl

theorem Seq.plus_plus (q : Seq) (n m : Nat) : (q.plus n).plus m = q.plus (n + m) := by
  cases q <;> simp [Seq.plus, Nat.add_assoc]

theorem Seq.next_eq (q : Seq) : q.next = q.plus 1 := by cases q <;> rfl

theorem State.ran_zero (s : State) : s.ran 0 [] s.line = s := by
  simp [State.ran, State.afterBus, Seq.plus_zero]

theorem State.ran_ran (s : State) (n m : Nat) (e f : List BusEvent) (l k : Line) :
    (s.ran n e l).ran m f k = s.ran (n + m) (e ++ f) k := by
  have h : s.world.busDraws + (n - s.world.bus.length) + (m - (s.world.bus.length - n))
      = s.world.busDraws + (n + m - s.world.bus.length) := by omega
  simp [State.ran, State.afterBus, Seq.plus_plus, h, Nat.add_mul, Nat.add_assoc]

@[simp] theorem Quiet_ran (s : State) (n : Nat) (e : List BusEvent) (l : Line) :
    Quiet (s.ran n e l) = Quiet s := rfl

@[simp] theorem replyAt_ran (s : State) (n : Nat) (e : List BusEvent) (l : Line) (k : Nat) :
    (s.ran n e l).replyAt k = s.replyAt (n + k) := by
  have h : s.world.busDraws + (n - s.world.bus.length) + (k - (s.world.bus.length - n))
      = s.world.busDraws + (n + k - s.world.bus.length) := by omega
  simp [State.replyAt, State.ran, State.afterBus, h]

@[simp] theorem levelAt_ran (s : State) (n : Nat) (e : List BusEvent) (l : Line) (k : Nat) :
    (s.ran n e l).levelAt k = s.levelAt (n + k) := by
  simp [State.levelAt]

theorem replyAt_of_busOk {s : State} {n k : Nat} (h : BusOk s n) (hk : k < n) :
    s.replyAt k = .ok (s.levelAt k) := by
  have := h k hk
  unfold State.levelAt
  cases hr : s.replyAt k <;> simp_all [BusReply.isOk, BusReply.level]

/-! ## Sequencing -/

theorem Op.bind_ok {α β : Type} {x : Op α} {s t : State} {a : α} (f : α → Op β)
    (h : x.run s = .ok a t) : (x >>= f).run s = (f a).run t := by
  rw [EStateM.run_bind, h]

theorem Op.bind_error {α β : Type} {x : Op α} {s t : State} {e : Stop} (f : α → Op β)
    (h : x.run s = .error e t) : (x >>= f).run s = .error e t := by
  rw [EStateM.run_bind, h]

@[simp] theorem Op.run_raise {α : Type} (e : Error) (s : State) :
    (raise e : Op α).run s = .error (.raised e) s := rfl

/-! ## One moment, one bus event -/

/-- When nothing lands, a moment changes nothing. -/
theorem moment_quiet {s : State} (hq : Quiet s) : moment.run s = .ok () s := by
  unfold moment EStateM.run
  unfold Quiet at hq
  split at hq
  · rename_i h
    simp only [h, landAll, State.withInbox]
    rw [← h]
  · rename_i a rest h
    obtain ⟨m, e⟩ := a
    simp only [beq_iff_eq] at hq
    subst hq
    simp only [h, landAll, State.withInbox]
    rw [← h]

theorem nextReply_eq (s : State) :
    s.nextReply = (s.replyAt 0, { s with world := { s.world with
      bus := s.world.bus.drop 1
      busDraws := s.world.busDraws + (1 - s.world.bus.length) } }) := by
  unfold State.nextReply State.replyAt
  split <;> rename_i h <;> simp [h]

/-- A bus event that completes `OK` is seen on the bus and returns the level. -/
theorem busEvent_ok {s : State} {N n : Nat} (hq : Quiet s) (hb : BusOk s N) (h : n + 1 ≤ N)
    (e : List BusEvent) (l : Line) (p : Prim) (seen : Bool → BusEvent)
    (hs : ∀ b, eventUs (seen b) = 0) :
    (busEvent p seen).run (s.ran n e l)
      = .ok (s.levelAt n) (s.ran (n + 1) (e ++ [seen (s.levelAt n)]) l) := by
  have hr := replyAt_of_busOk hb (show n < N by omega)
  rw [← State.ran_ran s n 1 e [seen (s.levelAt n)] l l]
  unfold busEvent
  rw [Op.bind_ok _ (moment_quiet (by simpa using hq))]
  unfold takeReply EStateM.run
  simp only [nextReply_eq, replyAt_ran, Nat.add_zero, hr, Seq.next_eq]
  have hl : (s.ran n e l).line = l := rfl
  generalize s.ran n e l = t at hl ⊢
  simp [State.record, State.ran, State.afterBus, hs, hl]

/-- A bus event that completes `ERR(code)` ends the command: the replies up to it are used up, the failed
event is in the trace, and `LINE` is a free value (40_bit_transport.md R125). -/
theorem busEvent_err {s : State} {n : Nat} {code : Byte} (hq : Quiet s)
    (hr : s.replyAt n = .err code) (e : List BusEvent) (l : Line) (p : Prim)
    (seen : Bool → BusEvent) :
    (busEvent p seen).run (s.ran n e l)
      = .error (.raised (.portError code))
          (s.ran (n + 1) (e ++ [.failed p code]) l).loseLine := by
  rw [← State.ran_ran s n 1 e [.failed p code] l l]
  unfold busEvent
  rw [Op.bind_ok _ (moment_quiet (by simpa using hq))]
  unfold takeReply EStateM.run
  simp only [nextReply_eq, replyAt_ran, Nat.add_zero, hr, Seq.next_eq]
  generalize s.ran n e l = t
  simp [State.record, State.ran, State.afterBus, State.loseLine, eventUs]

section
variable {s : State} {N : Nat} (hq : Quiet s) (hb : BusOk s N)
include hq hb

theorem driveLow_ran {n : Nat} {e : List BusEvent} {l : Line} (h : n + 1 ≤ N) :
    driveLow.run (s.ran n e l) = .ok () (s.ran (n + 1) (e ++ [.driveLow]) .low) := by
  unfold driveLow
  rw [Op.bind_ok _ (busEvent_ok hq hb h e l _ _ fun _ => rfl), EStateM.run_modify]
  rfl

theorem release_ran {n : Nat} {e : List BusEvent} {l : Line} (h : n + 1 ≤ N) :
    release.run (s.ran n e l) = .ok () (s.ran (n + 1) (e ++ [.release]) .released) := by
  unfold release
  rw [Op.bind_ok _ (busEvent_ok hq hb h e l _ _ fun _ => rfl), EStateM.run_modify]
  rfl

theorem holdHigh_ran {n : Nat} {e : List BusEvent} {l : Line} (h : n + 1 ≤ N) :
    holdHigh.run (s.ran n e l) = .ok () (s.ran (n + 1) (e ++ [.hold]) .hold) := by
  unfold holdHigh
  rw [Op.bind_ok _ (busEvent_ok hq hb h e l _ _ fun _ => rfl), EStateM.run_modify]
  rfl

theorem sample_ran {n : Nat} {e : List BusEvent} {l : Line} (h : n + 1 ≤ N) :
    sample.run (s.ran n e l)
      = .ok (s.levelAt n) (s.ran (n + 1) (e ++ [.sample (s.levelAt n)]) l) :=
  busEvent_ok hq hb h e l _ _ fun _ => rfl

omit hb in
theorem delay_ran {n : Nat} {e : List BusEvent} {l : Line} (t : DelayName) :
    (delay t).run (s.ran n e l) = .ok () (s.ran n (e ++ [.delay t]) l) := by
  have hr := State.ran_ran s n 0 e [.delay t] l l
  rw [Nat.add_zero] at hr
  rw [← hr]
  unfold delay
  rw [Op.bind_ok _ (moment_quiet (by simpa using hq)), EStateM.run_modify]
  have hl : (s.ran n e l).line = l := rfl
  generalize s.ran n e l = u at hl ⊢
  simp [State.record, State.ran, State.afterBus, hl, eventUs, Seq.plus_zero]

end

end Sys2Proof.Machine
end

