-- ==== Sys2Proof/Laws/Bus.lean ====
section
/-!
SUPPORT. What the bus procedures do when no event from outside lands and no bus event fails: each in one
lemma, with the bus events it issues (40_bit_transport.md R127 to R133, 43_select_transactions.md R200).
-/

namespace Sys2Proof.Machine

section
variable {s : State} {N : Nat} (hq : Quiet s) (hb : BusOk s N)
include hq hb

theorem readSlot_ran {n : Nat} {e : List BusEvent} {l : Line} (h : n + 3 ≤ N) :
    readSlot.run (s.ran n e l) = .ok (s.levelAt (n + 2))
      (s.ran (n + 3) (e ++ readSlotTrace (s.levelAt (n + 2))) .released) := by
  unfold readSlot
  rw [Op.bind_ok _ (driveLow_ran hq hb (by omega)), Op.bind_ok _ (delay_ran hq _),
    Op.bind_ok _ (release_ran hq hb (by omega)), Op.bind_ok _ (delay_ran hq _),
    Op.bind_ok _ (sample_ran hq hb (by omega)), Op.bind_ok _ (delay_ran hq _), EStateM.run_pure]
  simp [readSlotTrace]

theorem writeSlot_ran {n : Nat} {e : List BusEvent} {l : Line} (v : Bool) (h : n + 2 ≤ N) :
    (writeSlot v).run (s.ran n e l) = .ok ()
      (s.ran (n + 2) (e ++ writeSlotTrace v) .released) := by
  unfold writeSlot
  rw [Op.bind_ok _ (driveLow_ran hq hb (by omega)), Op.bind_ok _ (delay_ran hq _),
    Op.bind_ok _ (release_ran hq hb (by omega)), delay_ran hq]
  simp [writeSlotTrace]

theorem writeBits_ran (b : Byte) (l : Line) (m : Nat) :
    ∀ (i n : Nat) (e : List BusEvent), n + 2 * m ≤ N →
    (writeBits m i b).run (s.ran n e l) = .ok ()
      (s.ran (n + 2 * m) (e ++ (List.range' i m).flatMap fun j => writeSlotTrace (b.getLsbD j))
        (if m = 0 then l else .released)) := by
  induction m generalizing l with
  | zero => intro i n e _; simp [writeBits, EStateM.run_pure]
  | succ m ih =>
    intro i n e h
    unfold writeBits
    rw [Op.bind_ok _ (writeSlot_ran hq hb _ (by omega)), ih _ _ _ _ (by omega)]
    simp [List.range'_succ, Nat.mul_add, Nat.add_assoc, Nat.add_comm 2]

theorem writeByteSeq_ran {n : Nat} {e : List BusEvent} {l : Line} (b : Byte) (hold : Bool)
    (h : n + 17 ≤ N) :
    (writeByteSeq b hold).run (s.ran n e l) = .ok ()
      (s.ran (n + 17) (e ++ writeByteTrace b hold) (if hold then .hold else .released)) := by
  unfold writeByteSeq
  rw [Op.bind_ok _ (writeBits_ran hq hb b l 8 0 n e (by omega))]
  cases hold
  · simp only [endOfByte, Bool.false_eq_true, if_false]
    rw [release_ran hq hb (by omega)]
    simp [writeByteTrace, List.range_eq_range']
  · simp only [endOfByte, if_true]
    rw [holdHigh_ran hq hb (by omega)]
    simp [writeByteTrace, List.range_eq_range']

theorem writeBytes_ran (hold : Bool) : ∀ (bs : List Byte) (l : Line) (n : Nat) (e : List BusEvent),
    n + 17 * bs.length ≤ N →
    (writeBytes bs hold).run (s.ran n e l) = .ok ()
      (s.ran (n + 17 * bs.length) (e ++ writeBytesTrace bs hold)
        (if bs = [] then l else if hold then .hold else .released)) := by
  intro bs
  induction bs with
  | nil => intro l n e _; simp [writeBytes, writeBytesTrace, EStateM.run_pure]
  | cons b rest ih =>
    intro l n e h
    cases rest with
    | nil =>
      simp only [writeBytes, writeBytesTrace]
      rw [writeByteSeq_ran hq hb b hold (by simpa using h)]
      simp
    | cons c rest =>
      simp only [writeBytes, writeBytesTrace]
      simp only [List.length_cons] at h ih
      rw [Op.bind_ok _ (writeByteSeq_ran hq hb b false (by omega)), ih _ _ _ (by omega)]
      simp [List.length_cons, Nat.mul_add, Nat.add_assoc, Nat.add_comm 17]

/-! ### Reading bytes -/

omit hq hb in
/-- The accumulation of `readBits` over the levels it reads. -/
theorem orBits_eq_byteOfBits (b0 b1 b2 b3 b4 b5 b6 b7 : Bool) :
    0#8 ||| (if b0 then 1#8 <<< 0 else 0#8) ||| (if b1 then 1#8 <<< 1 else 0#8)
      ||| (if b2 then 1#8 <<< 2 else 0#8) ||| (if b3 then 1#8 <<< 3 else 0#8)
      ||| (if b4 then 1#8 <<< 4 else 0#8) ||| (if b5 then 1#8 <<< 5 else 0#8)
      ||| (if b6 then 1#8 <<< 6 else 0#8) ||| (if b7 then 1#8 <<< 7 else 0#8)
      = byteOfBits [b0, b1, b2, b3, b4, b5, b6, b7] := by
  revert b0 b1 b2 b3 b4 b5 b6 b7
  decide +kernel

theorem readBits_succ {m i n : Nat} {e : List BusEvent} {l : Line} (acc : Byte)
    (h : n + 3 ≤ N) :
    (readBits (m + 1) i acc).run (s.ran n e l)
      = (readBits m (i + 1) (acc ||| (if s.levelAt (n + 2) then 1#8 <<< i else 0#8))).run
          (s.ran (n + 3) (e ++ readSlotTrace (s.levelAt (n + 2))) .released) := by
  conv_lhs => unfold readBits
  rw [Op.bind_ok _ (readSlot_ran hq hb h)]

theorem readByteSeq_ran {n : Nat} {e : List BusEvent} {l : Line} (h : n + 24 ≤ N) :
    readByteSeq.run (s.ran n e l) = .ok (s.byteRead n)
      (s.ran (n + 24) (e ++ s.readByteTrace n) .released) := by
  unfold readByteSeq
  iterate 8 rw [readBits_succ hq hb _ (by omega)]
  simp only [readBits, EStateM.run_pure, Nat.add_assoc, List.append_assoc]
  rw [show State.byteRead s n = byteOfBits [_, _, _, _, _, _, _, _] from rfl,
    ← orBits_eq_byteOfBits]
  rfl

omit hq hb in
theorem readIntoBuf_ran (m : Nat) : ∀ (s : State) (k n : Nat) (e : List BusEvent) (l : Line),
    Quiet s → BusOk s N → n + 24 * m ≤ N →
    (readIntoBuf m k).run (s.ran n e l) = .ok (s.bytesRead n m)
      (({ s with buf := storeBytes (s.bytesRead n m) k s.buf }).ran (n + 24 * m)
        (e ++ s.readBytesTrace n m) (if m = 0 then l else .released)) := by
  induction m with
  | zero => intro s k n e l _ _ _; simp [readIntoBuf, EStateM.run_pure, State.bytesRead, State.readBytesTrace, storeBytes]
  | succ m ih =>
    intro s k n e l hq hb h
    unfold readIntoBuf
    rw [Op.bind_ok _ (readByteSeq_ran hq hb (by omega)), Op.bind_ok _ (EStateM.run_modify _ _)]
    have hs : ({ s.ran (n + 24) (e ++ s.readByteTrace n) .released with
          buf := setByte (s.ran (n + 24) (e ++ s.readByteTrace n) .released).buf k (s.byteRead n) } : State)
        = ({ s with buf := setByte s.buf k (s.byteRead n) } : State).ran (n + 24)
            (e ++ s.readByteTrace n) .released := rfl
    rw [hs, Op.bind_ok _ (ih { s with buf := setByte s.buf k (s.byteRead n) } (k + 1) (n + 24) _ _ hq hb (by omega)), EStateM.run_pure]
    have hbytes : ({ s with buf := setByte s.buf k (s.byteRead n) } : State).bytesRead (n + 24) m
        = (List.range m).map fun j => s.byteRead (n + 24 * (j + 1)) := by
      apply List.map_congr_left
      intro j _
      rw [show n + 24 * (j + 1) = n + 24 + 24 * j by omega]
      rfl
    have htrace : ({ s with buf := setByte s.buf k (s.byteRead n) } : State).readBytesTrace (n + 24) m
        = (List.range m).flatMap fun j => s.readByteTrace (n + 24 * (j + 1)) := by
      apply List.flatMap_congr
      intro j _
      rw [show n + 24 * (j + 1) = n + 24 + 24 * j by omega]
      rfl
    have h1 : s.bytesRead n (m + 1)
        = s.byteRead n :: (List.range m).map fun j => s.byteRead (n + 24 * (j + 1)) := by
      simp [State.bytesRead, List.range_succ_eq_map, Function.comp_def]
    have h2 : s.readBytesTrace n (m + 1)
        = s.readByteTrace n ++ (List.range m).flatMap fun j => s.readByteTrace (n + 24 * (j + 1)) := by
      simp [State.readBytesTrace, List.range_succ_eq_map, List.flatMap_map]
    rw [hbytes, htrace, h1, h2]
    simp [storeBytes, Nat.mul_add, Nat.add_assoc, Nat.add_comm 24]

/-! ### The bus reset -/

theorem pollWireHigh_ran (k : Nat) : ∀ (m n : Nat) (e : List BusEvent) (l : Line),
    k < m → n + k + 1 ≤ N → (∀ j < k, s.levelAt (n + j) = false) → s.levelAt (n + k) = true →
    (pollWireHigh m).run (s.ran n e l) = .ok ()
      (s.ran (n + k + 1) (e ++ lowPollsTrace k ++ [.sample true]) l) := by
  induction k with
  | zero =>
    intro m n e l hm h _ hhigh
    obtain ⟨m, rfl⟩ : ∃ j, m = j + 1 := ⟨m - 1, by omega⟩
    unfold pollWireHigh
    rw [Op.bind_ok _ (sample_ran hq hb (by omega))]
    rw [Nat.add_zero] at hhigh
    simp [hhigh, EStateM.run_pure, lowPollsTrace]
  | succ k ih =>
    intro m n e l hm h hlow hhigh
    obtain ⟨m, rfl⟩ : ∃ j, m = j + 1 := ⟨m - 1, by omega⟩
    have h0 : s.levelAt n = false := hlow 0 (by omega)
    unfold pollWireHigh
    rw [Op.bind_ok _ (sample_ran hq hb (by omega))]
    simp only [h0, Bool.false_eq_true, if_false]
    rw [Op.bind_ok _ (delay_ran hq _), ih _ _ _ _ (by omega) (by omega)
      (fun j hj => by rw [show n + 1 + j = n + (j + 1) by omega]; exact hlow (j + 1) (by omega))
      (by rw [show n + 1 + k = n + (k + 1) by omega]; exact hhigh)]
    rw [show n + 1 + k + 1 = n + (k + 1) + 1 by omega]
    simp [lowPollsTrace]

theorem pollWireHigh_stuckLow (m : Nat) : ∀ (n : Nat) (e : List BusEvent) (l : Line),
    n + m ≤ N → (∀ j < m, s.levelAt (n + j) = false) →
    (pollWireHigh m).run (s.ran n e l) = .error (.raised .wireNotHigh)
      (s.ran (n + m) (e ++ lowPollsTrace m) l) := by
  induction m with
  | zero => intro n e l _ _; simp [pollWireHigh, Op.run_raise, lowPollsTrace]
  | succ m ih =>
    intro n e l h hlow
    have h0 : s.levelAt n = false := hlow 0 (by omega)
    unfold pollWireHigh
    rw [Op.bind_ok _ (sample_ran hq hb (by omega))]
    simp only [h0, Bool.false_eq_true, if_false]
    rw [Op.bind_ok _ (delay_ran hq _), ih _ _ _ (by omega)
      (fun j hj => by rw [show n + 1 + j = n + (j + 1) by omega]; exact hlow (j + 1) (by omega))]
    rw [show n + 1 + m = n + (m + 1) by omega]
    simp [lowPollsTrace]

theorem presenceWindow_ran (m : Nat) : ∀ (p : Bool) (n : Nat) (e : List BusEvent) (l : Line),
    n + m ≤ N →
    (presenceWindow m p).run (s.ran n e l) = .ok (p || ((List.range m).map fun j => s.levelAt (n + j)).any (!·))
      (s.ran (n + m) (e ++ ((List.range m).map fun j => s.levelAt (n + j)).flatMap
        fun v => [.delay .tPstep, .sample v]) l) := by
  induction m with
  | zero => intro p n e l _; simp [presenceWindow, EStateM.run_pure]
  | succ m ih =>
    intro p n e l h
    unfold presenceWindow
    rw [Op.bind_ok _ (delay_ran hq _), Op.bind_ok _ (sample_ran hq hb (by omega)),
      ih _ _ _ _ (by omega)]
    have hr : (List.range (m + 1)).map (fun j => s.levelAt (n + j))
        = s.levelAt n :: (List.range m).map fun j => s.levelAt (n + 1 + j) := by
      rw [List.range_succ_eq_map]
      simp [Function.comp_def, Nat.add_assoc, Nat.add_comm 1]
    rw [hr, show n + 1 + m = n + (m + 1) by omega]
    simp [Bool.or_assoc]

/-- The start of the wire-high check: a line that is not released is released first
(40_bit_transport.md R127). -/
theorem ensureWireHigh_eq (h : s.heldEvents ≤ N) :
    ensureWireHigh.run s = (pollWireHigh nWh).run (s.ran s.heldEvents s.releaseTrace .released) := by
  unfold ensureWireHigh
  rw [Op.bind_ok _ (EStateM.run_get _)]
  by_cases hl : s.line = .released
  · simp only [State.heldEvents, State.releaseTrace, hl, ne_eq, not_true, if_true, if_false]
    rw [← hl, State.ran_zero]
  · simp only [State.heldEvents, hl, if_false] at h
    simp only [State.heldEvents, State.releaseTrace, hl, ne_eq, not_false_eq_true, if_true, if_false]
    have h0 := State.ran_zero s
    have := release_ran hq hb (n := 0) (e := []) (l := s.line) (by omega)
    rw [h0] at this
    exact Op.bind_ok _ this

theorem ensureWireHigh_ran {k : Nat} (hk : WireHighAfter s k) (h : s.heldEvents + k + 1 ≤ N) :
    ensureWireHigh.run s = .ok () (s.ran (s.heldEvents + k + 1)
      (s.releaseTrace ++ lowPollsTrace k ++ [.sample true]) .released) := by
  rw [ensureWireHigh_eq hq hb (by omega)]
  exact pollWireHigh_ran hq hb k _ _ _ _ hk.1 h hk.2.1 hk.2.2

/-- A bus reset that completes (40_bit_transport.md R128). -/
theorem busReset_ran {k : Nat} (hk : WireHighAfter s k) (h : s.resetEvents k ≤ N) :
    busReset.run s = .ok (s.presenceSeen k)
      (({ s with presence := s.presenceSeen k }).ran (s.resetEvents k) (s.resetTrace k) .released) := by
  unfold State.resetEvents at h
  unfold busReset
  rw [Op.bind_ok _ (ensureWireHigh_ran hq hb hk (by omega)),
    Op.bind_ok _ (driveLow_ran hq hb (by omega)), Op.bind_ok _ (delay_ran hq _),
    Op.bind_ok _ (release_ran hq hb (by omega)), Op.bind_ok _ (delay_ran hq _),
    Op.bind_ok _ (presenceWindow_ran hq hb nPres _ _ _ _ (by unfold nPres; omega)),
    Op.bind_ok _ (delay_ran hq _), Op.bind_ok _ (EStateM.run_modify _ _), EStateM.run_pure]
  rw [show s.heldEvents + k + 1 + 1 + 1 = s.heldEvents + k + 3 by omega]
  have h10 : s.heldEvents + k + 3 + nPres = s.resetEvents k := by
    unfold nPres State.resetEvents; omega
  rw [h10, Bool.false_or]
  simp only [State.resetTrace, List.append_assoc]
  rfl

end

/-! ### Select and transactions -/

section
variable {s : State} {N : Nat} (hq : Quiet s) (hb : BusOk s N)

theorem addrBytes_length (a : Addr) : (addrBytes a).length = 8 := by
  simp [addrBytes, firstBytes]

include hq hb

theorem selectDevice_ran {n : Nat} {e : List BusEvent} {l : Line} (a : Addr) (h : n + 153 ≤ N) :
    (selectDevice a).run (s.ran n e l) = .ok ()
      (s.ran (n + 153) (e ++ selectTrace a s.parasite)
        (if s.parasite then .hold else .released)) := by
  unfold selectDevice sendSelectRom
  rw [Op.bind_ok _ (writeByteSeq_ran hq hb _ _ (by omega)), Op.bind_ok _ (EStateM.run_get _)]
  have hp : (s.ran (n + 17) (e ++ writeByteTrace 85 false) (if false = true then .hold else .released)).parasite
      = s.parasite := rfl
  have hne : addrBytes a ≠ [] := by
    intro hnil
    simpa [hnil] using addrBytes_length a
  rw [hp, writeBytes_ran hq hb _ _ _ _ _ (by rw [addrBytes_length]; omega)]
  rw [addrBytes_length]
  simp [selectTrace, hne, Nat.add_assoc]

end

end Sys2Proof.Machine
end

