-- ==== Sys2Proof/Laws/Command.lean ====
section
/-!
SUPPORT. The frame of a command: acceptance, the body, completion (30_encoding.md R86), and the
transactions and CRC evaluation that several commands share, when no event from outside lands.
-/

namespace Sys2Proof.Machine

@[simp] theorem Quiet_accept (s : State) : Quiet (accept s) = Quiet s := rfl

@[simp] theorem replyAt_accept (s : State) (k : Nat) : (accept s).replyAt k = s.replyAt k := rfl

@[simp] theorem levelAt_accept (s : State) (k : Nat) : (accept s).levelAt k = s.levelAt k := rfl

/-- Right after acceptance no bus event has been issued. -/
theorem accept_ran (s : State) : accept s = (accept s).ran 0 [] s.line :=
  (State.ran_zero (accept s)).symm

/-- A command that does nothing leaves what `afterCommand` says of no events. -/
theorem complete_accept (s : State) : complete (accept s) = s.afterCommand 0 [] s.line :=
  congrArg complete (accept_ran s)

/-- A body that returns, between two moments at which nothing lands. -/
theorem bracket_ok {body : Op Unit} {s t : State} (hs : Quiet s) (ht : Quiet t)
    (h : body.run s = .ok () t) : (bracket body).run s = .ok () t := by
  unfold bracket
  rw [Op.bind_ok _ (moment_quiet hs)]
  simp only [landLast, EStateM.run] at h ⊢
  rw [h]
  exact moment_quiet ht

/-- A body that raises ends the command where it raises. -/
theorem bracket_raised {body : Op Unit} {s t : State} {e : Error} (hs : Quiet s) (ht : Quiet t)
    (h : body.run s = .error (.raised e) t) : (bracket body).run s = .error (.raised e) t := by
  unfold bracket
  rw [Op.bind_ok _ (moment_quiet hs)]
  have hm := moment_quiet ht
  simp only [landLast, EStateM.run] at h hm ⊢
  simp only [h, hm]

/-- A command whose body returns is complete (30_encoding.md R86). -/
theorem runCommand_ok {isSearch : Bool} {body : Op Unit} {s t r : State} (hs : Quiet s)
    (h : body.run (accept s) = .ok () t) (ht : Quiet t) (hr : complete t = r) :
    runCommand isSearch body s = .next r := by
  unfold runCommand
  rw [bracket_ok (s := accept s) hs ht h, ← hr]
  rfl

/-- A command whose body raises records the error and is complete (60_exceptions.md R251). -/
theorem runCommand_raise {isSearch : Bool} {body : Op Unit} {s t r : State} {e : Error}
    (hs : Quiet s) (h : body.run (accept s) = .error (.raised e) t) (ht : Quiet t)
    (hr : complete (recordError isSearch e t) = r) : runCommand isSearch body s = .next r := by
  unfold runCommand
  rw [bracket_raised (s := accept s) hs ht h, ← hr]
  rfl

/-- The acceptance checks that pass. -/
theorem checkLen_ok {len : BitVec 5} (s : State) (h : len.toNat ≤ 16) :
    (checkLen len).run s = .ok () s := by
  unfold checkLen
  rw [if_neg (by omega), EStateM.run_pure]

theorem checkLen_raise {len : BitVec 5} (s : State) (h : 16 < len.toNat) :
    (checkLen len).run s = .error (.raised .badCommand) s := by
  unfold checkLen
  rw [if_pos h, Op.run_raise]

theorem checkSensor_ok {s : State} (h : s.sensorValid = true) : checkSensor.run s = .ok () s := by
  unfold checkSensor
  rw [Op.bind_ok _ (EStateM.run_get _), if_pos h, EStateM.run_pure]

theorem checkSensor_raise {s : State} (h : s.sensorValid = false) :
    checkSensor.run s = .error (.raised .noSensor) s := by
  unfold checkSensor
  rw [Op.bind_ok _ (EStateM.run_get _), if_neg (by simp [h]), Op.run_raise]

/-- A CRC check records both bytes, and raises when they differ (42_crc8.md R183). -/
theorem checkCrc_run (computed expected : Byte) (s : State) :
    (checkCrc computed expected).run s
      = if computed = expected then .ok () (s.crcEval computed expected)
        else .error (.raised (.crcMismatch computed expected)) (s.crcEval computed expected) := by
  unfold checkCrc
  rw [Op.bind_ok _ (EStateM.run_modify _ _)]
  split <;> rfl

section
variable {s : State} {N : Nat} (hq : Quiet s) (hb : BusOk s N)
include hq hb

/-- A payload of bytes, the final one held when `CTRL.PARASITE = 1` (43_select_transactions.md R203). -/
theorem sendPayload_ran {n : Nat} {e : List BusEvent} {l : Line} (bs : List Byte)
    (h : n + 17 * bs.length ≤ N) :
    (sendPayload bs).run (s.ran n e l) = .ok () (s.ran (n + 17 * bs.length)
      (e ++ writeBytesTrace bs s.parasite) (if bs = [] then l else lineAfter s.parasite)) := by
  unfold sendPayload
  rw [Op.bind_ok _ (EStateM.run_get _)]
  exact writeBytes_ran hq hb s.parasite bs l n e h

/-- A transaction whose payload is known by what it does: reset, select once, payload, reads
(43_select_transactions.md R203). -/
theorem transaction_ran {k m r : Nat} {a : Addr} {payload : Op Unit} {pt : List BusEvent}
    (hk : WireHighAfter s k) (h : s.resetEvents k + 153 + m + 24 * r ≤ N)
    (hp : ∀ u : State, Quiet u → BusOk u N → u.parasite = s.parasite → ∀ n e,
      n + m ≤ N → payload.run (u.ran n e (lineAfter s.parasite))
        = .ok () (u.ran (n + m) (e ++ pt) (lineAfter s.parasite))) :
    (transaction a payload r).run s = .ok (s.bytesRead (s.resetEvents k + 153 + m) r)
      (({ s with
          presence := s.presenceSeen k
          buf := storeBytes (s.bytesRead (s.resetEvents k + 153 + m) r) 0 s.buf }).ran
        (s.resetEvents k + 153 + m + 24 * r)
        (s.resetTrace k ++ selectTrace a s.parasite ++ pt
          ++ s.readBytesTrace (s.resetEvents k + 153 + m) r)
        (if r = 0 then lineAfter s.parasite else .released)) := by
  have hq' : Quiet { s with presence := s.presenceSeen k } := hq
  have hb' : BusOk { s with presence := s.presenceSeen k } N := hb
  unfold transaction
  rw [Op.bind_ok _ (busReset_ran hq hb hk (by omega)),
    Op.bind_ok _ (selectDevice_ran hq' hb' a (by omega))]
  have hpay := hp { s with presence := s.presenceSeen k } hq' hb' rfl (s.resetEvents k + 153)
    (s.resetTrace k ++ selectTrace a s.parasite) (by omega)
  unfold lineAfter at hpay
  rw [Op.bind_ok _ hpay, readIntoBuf_ran r _ 0 _ _ _ hq' hb' (by omega)]
  rfl

end

end Sys2Proof.Machine
end

