-- ==== Sys2Proof/Laws/Operands.lean ====
section
/-!
SUPPORT. Bytes, words and bits of the multi-byte groups: what a read after a write gives
(20_memory.md R63, 00_scope.md R15), and the highest set bit (41_device_search.md R150).
-/

namespace Sys2Proof.Machine

/-- A field of `w` bits at bit `p` of a group, written as `setByte` and `setWord` write it: inside the field
the new bits stand, outside it the old ones. -/
theorem getLsbD_setField {n w : Nat} (v : BitVec n) (p : Nat) (b : BitVec w) (i : Nat) (hi : i < n) :
    ((v &&& ~~~((BitVec.allOnes w).setWidth n <<< p)) ||| (b.setWidth n <<< p)).getLsbD i
      = if p ≤ i ∧ i < p + w then b.getLsbD (i - p) else v.getLsbD i := by
  by_cases h1 : i < p
  · simp [hi, h1, show ¬ p ≤ i by omega]
  · by_cases h2 : i < p + w
    · simp [hi, h1, h2, show p ≤ i by omega, show i - p < w by omega]
    · have hb : b.getLsbD (i - p) = false := BitVec.getLsbD_of_ge _ _ (by omega)
      simp [hi, h1, h2, hb, show ¬ i - p < w by omega]

theorem getLsbD_setByte {n : Nat} (v : BitVec n) (k : Nat) (b : Byte) (i : Nat) (hi : i < n) :
    (setByte v k b).getLsbD i
      = if 8 * k ≤ i ∧ i < 8 * k + 8 then b.getLsbD (i - 8 * k) else v.getLsbD i :=
  getLsbD_setField v (8 * k) b i hi

theorem getLsbD_setWord {n : Nat} (v : BitVec n) (k : Nat) (w : Word) (i : Nat) (hi : i < n) :
    (setWord v k w).getLsbD i
      = if 32 * k ≤ i ∧ i < 32 * k + 32 then w.getLsbD (i - 32 * k) else v.getLsbD i :=
  getLsbD_setField v (32 * k) w i hi

theorem getLsbD_byteAt {n : Nat} (v : BitVec n) (k i : Nat) :
    (byteAt v k).getLsbD i = (decide (i < 8) && v.getLsbD (8 * k + i)) :=
  BitVec.getLsbD_extractLsb' ..

theorem getLsbD_wordAt {n : Nat} (v : BitVec n) (k i : Nat) :
    (wordAt v k).getLsbD i = (decide (i < 32) && v.getLsbD (32 * k + i)) :=
  BitVec.getLsbD_extractLsb' ..

/-- Read after write of a byte. -/
theorem byteAt_setByte {n : Nat} (v : BitVec n) (k j : Nat) (b : Byte) (hj : 8 * j + 8 ≤ n) :
    byteAt (setByte v k b) j = if j = k then b else byteAt v j := by
  apply BitVec.eq_of_getLsbD_eq
  intro i hi
  rw [getLsbD_byteAt, getLsbD_setByte v k b _ (by omega)]
  by_cases h : j = k
  · subst h
    simp [hi, show 8 * j + i < 8 * j + 8 by omega]
  · rw [if_neg (by omega), if_neg h, getLsbD_byteAt]

/-- Read after write of a word. -/
theorem wordAt_setWord {n : Nat} (v : BitVec n) (k j : Nat) (w : Word) (hj : 32 * j + 32 ≤ n) :
    wordAt (setWord v k w) j = if j = k then w else wordAt v j := by
  apply BitVec.eq_of_getLsbD_eq
  intro i hi
  rw [getLsbD_wordAt, getLsbD_setWord v k w _ (by omega)]
  by_cases h : j = k
  · subst h
    simp [hi, show 32 * j + i < 32 * j + 32 by omega]
  · rw [if_neg (by omega), if_neg h, getLsbD_wordAt]

/-- Read after write of a bit of an address or bitmap. -/
theorem getLsbD_setBit (v : Addr) (i j : Nat) (b : Bool) (hj : j < 64) :
    (setBit v i b).getLsbD j = if j = i then b else v.getLsbD j := by
  unfold setBit
  by_cases h : j = i
  · subst h
    cases b <;> simp [hj]
  · rcases Nat.lt_or_gt_of_ne h with h' | h'
    · cases b <;> simp [hj, h, h']
    · have : j - i ≠ 0 := by omega
      cases b <;> simp [hj, h, show ¬ j < i by omega, this]

/-- Bytes stored from index `k` on (43_select_transactions.md R205). -/
theorem byteAt_storeBytes (bs : List Byte) : ∀ (k j : Nat) (buf : Buffer), j < 16 →
    byteAt (storeBytes bs k buf) j
      = if k ≤ j ∧ j < k + bs.length then bs.getD (j - k) 0 else byteAt buf j := by
  induction bs with
  | nil => intro k j buf _; rw [if_neg (by simp)]; rfl
  | cons b rest ih =>
    intro k j buf hj
    unfold storeBytes
    rw [ih _ _ _ hj, byteAt_setByte _ _ _ _ (by omega)]
    by_cases h : j = k
    · subst h; simp
    · by_cases h2 : k + 1 ≤ j ∧ j < k + 1 + rest.length
      · rw [if_pos h2, if_pos (by simp only [List.length_cons]; omega),
          show j - k = (j - (k + 1)) + 1 by omega, List.getD_cons_succ]
      · rw [if_neg h2, if_neg h, if_neg (by simp only [List.length_cons]; omega)]

theorem highestBelow_none (v : Addr) (n : Nat) :
    highestBelow v n = none ↔ ∀ j < n, v.getLsbD j = false := by
  induction n with
  | zero => simp [highestBelow]
  | succ n ih =>
    unfold highestBelow
    by_cases h : v.getLsbD n = true
    · rw [if_pos h]
      simp only [reduceCtorEq, false_iff, not_forall]
      exact ⟨n, by omega, by simp [h]⟩
    · rw [if_neg h, ih]
      constructor
      · intro ha j hj
        rcases Nat.lt_succ_iff_lt_or_eq.1 hj with hj | rfl
        · exact ha j hj
        · simpa using h
      · intro ha j hj; exact ha j (by omega)

theorem highestBelow_some (v : Addr) (n i : Nat) :
    highestBelow v n = some i ↔
      i < n ∧ v.getLsbD i = true ∧ ∀ j, i < j → j < n → v.getLsbD j = false := by
  induction n with
  | zero => simp [highestBelow]
  | succ n ih =>
    unfold highestBelow
    by_cases h : v.getLsbD n = true
    · rw [if_pos h]
      constructor
      · rintro ⟨⟩
        exact ⟨by omega, h, fun j h1 h2 => by omega⟩
      · rintro ⟨h1, _, h3⟩
        rcases Nat.lt_succ_iff_lt_or_eq.1 h1 with h1 | rfl
        · exact absurd h (by simp [h3 n h1 (by omega)])
        · rfl
    · rw [if_neg h, ih]
      constructor
      · rintro ⟨h1, h2, h3⟩
        refine ⟨by omega, h2, fun j h4 h5 => ?_⟩
        rcases Nat.lt_succ_iff_lt_or_eq.1 h5 with h5 | rfl
        · exact h3 j h4 h5
        · simpa using h
      · rintro ⟨h1, h2, h3⟩
        refine ⟨?_, h2, fun j h4 h5 => h3 j h4 (by omega)⟩
        rcases Nat.lt_succ_iff_lt_or_eq.1 h1 with h1 | rfl
        · exact h1
        · exact absurd h2 h

end Sys2Proof.Machine
end

