-- ==== Sys2Proof/Laws/Search.lean ====
section
/-!
SUPPORT. What the walk of a search does when no event from outside lands and no bus event fails: replay and
discovery bit by bit, each in one lemma (41_device_search.md R155, R157).
-/

namespace Sys2Proof.Machine

/-- The state in the course of a walk: the search address and bitmap as updated so far. -/
def State.withWalk (a d : Addr) (s : State) : State := { s with saddr := a, sdisc := d }

/-- The direction bit written at address bit `i` (41_device_search.md R157). -/
def State.dirBit (s : State) (ld : Option Nat) (e i : Nat) : Bool :=
  if ld = some i then true else s.trueBit e i

/-- Both bits of the pair read 0 away from the resumed position: a fork (41_device_search.md R157). -/
def State.forkBit (s : State) (ld : Option Nat) (e i : Nat) : Bool :=
  decide (ld ≠ some i) && (!s.trueBit e i && !s.compBit e i)

/-- The bus events of one bit of the walk that writes `dir`. -/
def State.bitTrace (s : State) (e i : Nat) (dir : Bool) : List BusEvent :=
  readSlotTrace (s.trueBit e i) ++ readSlotTrace (s.compBit e i) ++ writeSlotTrace dir

/-- A result is written, and nothing else (41_device_search.md R152). -/
theorem setResult_quiet {s : State} (r : SrchResult) (hq : Quiet s) :
    (setResult r).run s = .ok () { s with srchResult := r } := by
  unfold setResult
  rw [Op.bind_ok _ (moment_quiet hq), EStateM.run_modify]

/-- The enumeration is over (41_device_search.md R156). -/
theorem endSearch_quiet {s : State} (hq : Quiet s) :
    endSearch.run s = .ok () { s with sphase := .ended, srchResult := .noneEnd } := by
  unfold endSearch
  rw [Op.bind_ok _ (moment_quiet hq), Op.bind_ok _ (EStateM.run_modify _ _),
    setResult_quiet _ (by exact hq)]

/-- A device was found (41_device_search.md R158, R159). -/
theorem foundDevice_quiet {s : State} (new : Bool) (hq : Quiet s) :
    (foundDevice new).run s = .ok () (({ s with
      sphase := if !new && s.sdisc == 0 then .ended else .deviceFound
      found := s.saddr
      srchResult := .found } : State).crcEval (addrCrc s.saddr) (byteAt s.saddr 7)) := by
  unfold foundDevice
  rw [Op.bind_ok _ (EStateM.run_modify _ _), Op.bind_ok _ (EStateM.run_modify _ _),
    Op.bind_ok _ (setResult_quiet _ (by exact hq)), Op.bind_ok _ (moment_quiet (by exact hq))]
  rfl

section
variable {s : State} {N : Nat} (hq : Quiet s) (hb : BusOk s N)
include hq hb

/-- The pair of bit `i` is read in six bus events. -/
theorem pair_ran {e i n : Nat} {ev : List BusEvent} {l : Line} {α : Type}
    (f : Bool → Bool → Op α) (a d : Addr) (hn : n = e + 8 * i) (h : n + 6 ≤ N) :
    (readSlot >>= fun t => readSlot >>= f t).run ((s.withWalk a d).ran n ev l)
      = (f (s.trueBit e i) (s.compBit e i)).run ((s.withWalk a d).ran (n + 6)
          (ev ++ readSlotTrace (s.trueBit e i) ++ readSlotTrace (s.compBit e i)) .released) := by
  subst hn
  have h1 := readSlot_ran (s := s.withWalk a d) hq hb (n := e + 8 * i) (e := ev) (l := l) (by omega)
  rw [Op.bind_ok _ h1]
  have h2 := readSlot_ran (s := s.withWalk a d) hq hb (n := e + 8 * i + 3)
    (e := ev ++ readSlotTrace (s.trueBit e i)) (l := .released) (by omega)
  exact Op.bind_ok _ h2

/-- Replay of answered bits: the stored bits are sent again and nothing else is written
(41_device_search.md R155). -/
theorem replay_prefix (e : Nat) (r : Nat) : ∀ (m i : Nat) (ev : List BusEvent) (l : Line),
    (∀ j, i ≤ j → j < i + m → s.answered e j = true) → e + 8 * (i + m) ≤ N →
    (replay (m + r) i).run (s.ran (e + 8 * i) ev l)
      = (replay r (i + m)).run (s.ran (e + 8 * (i + m))
          (ev ++ (List.range' i m).flatMap fun j => s.bitTrace e j (s.saddr.getLsbD j))
          (if m = 0 then l else .released)) := by
  intro m
  induction m with
  | zero => intro i ev l _ _; simp
  | succ m ih =>
    intro i ev l ha hN
    have h0 : (s.trueBit e i && s.compBit e i) = false := by
      simpa only [State.answered, Bool.not_eq_true'] using ha i (by omega) (by omega)
    rw [show m + 1 + r = (m + r) + 1 by omega]
    conv_lhs => unfold replay
    have hp := pair_ran hq hb (e := e) (i := i) (n := e + 8 * i) (ev := ev) (l := l)
      (fun t c => if (t && c) = true then pure false else do
        writeSlot ((← get).saddr.getLsbD i)
        replay (m + r) (i + 1)) s.saddr s.sdisc rfl (by omega)
    refine Eq.trans hp ?_
    simp only [h0, Bool.false_eq_true, if_false]
    rw [Op.bind_ok _ (EStateM.run_get _)]
    have hw := writeSlot_ran hq hb (n := e + 8 * i + 6)
      (e := ev ++ readSlotTrace (s.trueBit e i) ++ readSlotTrace (s.compBit e i)) (l := .released)
      (s.saddr.getLsbD i) (by omega)
    refine Eq.trans (Op.bind_ok _ hw) ?_
    rw [show e + 8 * i + 6 + 2 = e + 8 * (i + 1) by omega,
      ih (i + 1) _ _ (fun j h1 h2 => ha j (by omega) (by omega)) (by omega)]
    rw [show i + 1 + m = i + (m + 1) by omega]
    simp [List.range'_succ, State.bitTrace]

/-- One bit of the walk is decided and its direction bit written (41_device_search.md R157). -/
theorem decideBit_ran {n : Nat} {ev : List BusEvent} {l : Line} (a d : Addr) (i : Nat)
    (disc : Option Bool) (dir : Bool) (h : n + 2 ≤ N) :
    (decideBit i disc dir).run ((s.withWalk a d).ran n ev l) = .ok ()
      ((s.withWalk (setBit a i dir) (match disc with
        | some b => setBit d i b
        | none => d)).ran (n + 2) (ev ++ writeSlotTrace dir) .released) := by
  unfold decideBit
  rw [Op.bind_ok _ (EStateM.run_modify _ _)]
  exact writeSlot_ran (s := s.withWalk (setBit a i dir) _) hq hb dir h

/-- Discovery of answered bits: from bit `i` on, each address bit is the direction bit, each discrepancy
bit is cleared at `ld`, set at a fork, and else kept (41_device_search.md R157). -/
theorem discover_prefix (ld : Option Nat) (e : Nat) (r : Nat) :
    ∀ (m i : Nat) (new : Bool) (a d : Addr) (ev : List BusEvent) (l : Line),
    (∀ j, i ≤ j → j < i + m → ld ≠ some j → s.answered e j = true) →
    (new = true → ∃ j < i, d.getLsbD j = true) → i + m ≤ 64 → e + 8 * (i + m) ≤ N →
    ∃ (new' : Bool) (a' d' : Addr),
      (discover ld (m + r) i new).run ((s.withWalk a d).ran (e + 8 * i) ev l)
        = (discover ld r (i + m) new').run ((s.withWalk a' d').ran (e + 8 * (i + m))
            (ev ++ (List.range' i m).flatMap fun j => s.bitTrace e j (s.dirBit ld e j))
            (if m = 0 then l else .released)) ∧
      (∀ j < 64, a'.getLsbD j
        = if i ≤ j ∧ j < i + m then s.dirBit ld e j else a.getLsbD j) ∧
      (∀ j < 64, d'.getLsbD j
        = if i ≤ j ∧ j < i + m then
            (if ld = some j then false else s.forkBit ld e j || d.getLsbD j)
          else d.getLsbD j) ∧
      (new' = true → ∃ j < i + m, d'.getLsbD j = true) := by
  intro m
  induction m with
  | zero =>
    intro i new a d ev l _ hnew _ _
    refine ⟨new, a, d, by simp, ?_, ?_, by simpa using hnew⟩
    · intro j _; rw [if_neg (by omega)]
    · intro j _; rw [if_neg (by omega)]
  | succ m ih =>
    intro i new a d ev l ha hnew h64 hN
    have step : ∃ (new1 : Bool) (disc : Option Bool),
        (discover ld (m + 1 + r) i new).run ((s.withWalk a d).ran (e + 8 * i) ev l)
          = (discover ld (m + r) (i + 1) new1).run
              ((s.withWalk (setBit a i (s.dirBit ld e i)) (match disc with
                | some b => setBit d i b
                | none => d)).ran (e + 8 * (i + 1))
                (ev ++ s.bitTrace e i (s.dirBit ld e i)) .released) ∧
        (match disc with
          | some b => b
          | none => d.getLsbD i) = (if ld = some i then false else s.forkBit ld e i || d.getLsbD i) ∧
        (new1 = true → new = true ∨ disc = some true) := by
      rw [show m + 1 + r = (m + r) + 1 by omega]
      conv in discover ld (m + r + 1) i new => unfold discover
      have hp := pair_ran hq hb (e := e) (i := i) (n := e + 8 * i) (ev := ev) (l := l)
        (fun t c => if ld = some i then do
            decideBit i (some false) true
            discover ld (m + r) (i + 1) new
          else if (t && c) = true then pure none
          else if (!t && !c) = true then do
            decideBit i (some true) false
            discover ld (m + r) (i + 1) true
          else do
            decideBit i none t
            discover ld (m + r) (i + 1) new) a d rfl (by omega)
      have hd := fun (disc : Option Bool) (dir : Bool) =>
        decideBit_ran hq hb (n := e + 8 * i + 6)
          (ev := ev ++ readSlotTrace (s.trueBit e i) ++ readSlotTrace (s.compBit e i))
          (l := .released) a d i disc dir (by omega)
      by_cases hld : ld = some i
      · refine ⟨new, some false, ?_, by simp [hld], fun h => .inl h⟩
        refine Eq.trans hp ?_
        simp only [hld, if_true]
        have h1 := hd (some false) true
        refine Eq.trans (Op.bind_ok _ h1) ?_
        simp [State.dirBit, State.bitTrace, Nat.mul_add, Nat.add_assoc]
      · have hans : (s.trueBit e i && s.compBit e i) = false := by
          simpa only [State.answered, Bool.not_eq_true'] using ha i (by omega) (by omega) hld
        by_cases hf : (!s.trueBit e i && !s.compBit e i) = true
        · have ht : s.trueBit e i = false := by simp at hf; exact hf.1
          have hc : s.compBit e i = false := by simp at hf; exact hf.2
          refine ⟨true, some true, ?_, by simp [hld, State.forkBit, ht, hc], fun _ => .inr rfl⟩
          refine Eq.trans hp ?_
          simp only [hld, if_false, hans, Bool.false_eq_true, hf, if_true]
          have h1 := hd (some true) false
          refine Eq.trans (Op.bind_ok _ h1) ?_
          simp [State.dirBit, hld, ht, State.bitTrace, Nat.mul_add, Nat.add_assoc]
        · have hf' : (!s.trueBit e i && !s.compBit e i) = false := by simpa using hf
          refine ⟨new, none, ?_, by simp [hld, State.forkBit, hf'], fun h => .inl h⟩
          refine Eq.trans hp ?_
          simp only [hld, if_false, hans, Bool.false_eq_true, hf']
          have h1 := hd none (s.trueBit e i)
          refine Eq.trans (Op.bind_ok _ h1) ?_
          simp [State.dirBit, hld, State.bitTrace, Nat.mul_add, Nat.add_assoc]
    obtain ⟨new1, disc, hrun, hdisc, hnew1⟩ := step
    have hd1 : ∀ j < 64, (match disc with
          | some b => setBit d i b
          | none => d).getLsbD j
        = if j = i then (if ld = some i then false else s.forkBit ld e i || d.getLsbD i)
          else d.getLsbD j := by
      intro j hj
      rw [← hdisc]
      cases disc with
      | none => by_cases h : j = i <;> simp [h]
      | some b => exact getLsbD_setBit d i j b hj
    obtain ⟨new', a', d', hrun', ha', hd', hnew'⟩ := ih (i + 1) new1 (setBit a i (s.dirBit ld e i)) _
      (ev ++ s.bitTrace e i (s.dirBit ld e i)) .released
      (fun j h1 h2 => ha j (by omega) (by omega))
      (by
        intro h1
        rcases hnew1 h1 with h1 | h1
        · obtain ⟨j, hj, hj'⟩ := hnew h1
          exact ⟨j, by omega, by rw [hd1 j (by omega), if_neg (by omega)]; exact hj'⟩
        · subst h1
          exact ⟨i, by omega, by
            show (setBit d i true).getLsbD i = true
            rw [getLsbD_setBit _ _ _ _ (by omega)]
            simp⟩)
      (by omega) (by omega)
    refine ⟨new', a', d', ?_, ?_, ?_, ?_⟩
    · rw [hrun, hrun', show i + 1 + m = i + (m + 1) by omega]
      simp [List.range'_succ]
    · intro j hj
      rw [ha' j hj, getLsbD_setBit _ _ _ _ hj]
      by_cases h : j = i
      · subst h
        rw [if_neg (show ¬(j + 1 ≤ j ∧ j < j + 1 + m) by omega), if_pos rfl,
          if_pos (show j ≤ j ∧ j < j + (m + 1) by omega)]
      · by_cases h2 : i + 1 ≤ j ∧ j < i + 1 + m
        · rw [if_pos h2, if_pos (by omega)]
        · rw [if_neg h2, if_neg h, if_neg (by omega)]
    · intro j hj
      rw [hd' j hj, hd1 j hj]
      by_cases h : j = i
      · subst h
        rw [if_neg (show ¬(j + 1 ≤ j ∧ j < j + 1 + m) by omega), if_pos rfl,
          if_pos (show j ≤ j ∧ j < j + (m + 1) by omega)]
      · by_cases h2 : i + 1 ≤ j ∧ j < i + 1 + m
        · rw [if_pos h2, if_neg h, if_pos (show i ≤ j ∧ j < i + (m + 1) by omega)]
        · rw [if_neg h2, if_neg h, if_neg (show ¬(i ≤ j ∧ j < i + (m + 1)) by omega)]
    · intro h
      obtain ⟨j, hj, hj'⟩ := hnew' h
      exact ⟨j, by omega, hj'⟩

end

end Sys2Proof.Machine
end

