-- ==== Sys2Proof/Laws/Frame.lean ====
section
/-!
SUPPORT. What a piece of a command does for every bus and every schedule of events: a triple that says what
holds after it returned, what holds when it raised, and that `RST` leaves the reset state
(60_exceptions.md R251, 70_reset_and_hazards.md R281).
-/

namespace Sys2Proof.Machine

/-- From a state with `P`: if `x` returns, `Q` holds; if it raises `e`, `E e` holds; if `RST` lands, the
state is the reset of one with `A`. -/
def Op.Triple {α : Type} (P : State → Prop) (x : Op α) (Q : α → State → Prop)
    (E : Error → State → Prop) (A : State → Prop) : Prop :=
  ∀ s, P s → match x.run s with
    | .ok a t => Q a t
    | .error (.raised e) t => E e t
    | .error .abandoned t => ∃ u, A u ∧ t = blockReset true u

namespace Op
variable {α β : Type} {P P' : State → Prop} {Q Q' : α → State → Prop} {R : β → State → Prop}
  {E E' : Error → State → Prop} {A A' : State → Prop}

theorem Triple.bind {x : Op α} {f : α → Op β} (hx : Triple P x Q E A)
    (hf : ∀ a, Triple (Q a) (f a) R E A) : Triple P (x >>= f) R E A := by
  intro s hs
  have h := hx s hs
  cases hr : x.run s with
  | ok a t =>
    rw [hr] at h
    rw [bind_ok f hr]
    exact hf a t h
  | error e t =>
    rw [hr] at h
    rw [bind_error f hr]
    cases e <;> exact h

theorem Triple.mono {x : Op α} (hx : Triple P x Q E A) (hP : ∀ s, P' s → P s)
    (hQ : ∀ a s, Q a s → Q' a s) (hE : ∀ e s, E e s → E' e s) (hA : ∀ s, A s → A' s) :
    Triple P' x Q' E' A' := by
  intro s hs
  have h := hx s (hP s hs)
  revert h
  cases x.run s with
  | ok a t => exact hQ a t
  | error e t =>
    cases e with
    | raised e => exact hE e t
    | abandoned =>
      rintro ⟨u, hu, rfl⟩
      exact ⟨u, hA u hu, rfl⟩

theorem Triple.pure {a : α} (h : ∀ s, P s → Q a s) :
    Triple P (Pure.pure a : Op α) Q E A := fun s hs => h s hs

theorem Triple.raise {e : Error} (h : ∀ s, P s → E e s) :
    Triple P (Machine.raise e : Op α) Q E A := fun s hs => h s hs

theorem Triple.get {Q : State → State → Prop} (h : ∀ s, P s → Q s s) :
    Triple P (MonadState.get : Op State) Q E A := fun s hs => h s hs

theorem Triple.onModify {Q : Unit → State → Prop} {f : State → State} (h : ∀ s, P s → Q () (f s)) :
    Triple P (modify f : Op Unit) Q E A := fun s hs => h s hs

theorem Triple.ite {c : Prop} [Decidable c] {x y : Op α} (hx : c → Triple P x Q E A)
    (hy : ¬c → Triple P y Q E A) : Triple P (if c then x else y) Q E A := by
  split
  · exact hx ‹_›
  · exact hy ‹_›

end Op

/-! ## What events from outside and bus events change -/

/-- `t` differs from `s` only in what a host access or a bus event can change while a command runs: `OVR`,
the line, the sequencer's count, the timebase and what is outside the block. -/
abbrev OnlyBus (s t : State) : Prop :=
  t = { s with
    ovr := t.ovr, seq := t.seq, line := t.line, timebase := t.timebase, world := t.world }

/-- What holds in the course of a command, and of every state that differs only by bus activity. -/
structure BusClosed (P : State → Prop) : Prop where
  running : ∀ s, P s → s.busy = true ∧ s.rst = false
  closed : ∀ s t, P s → OnlyBus s t → P t

/-- A port failure, in a state with `P`. -/
abbrev PortFails (P : State → Prop) (e : Error) (s : State) : Prop :=
  (∃ code, e = .portError code) ∧ P s

/-- A port failure or a failed wire-high check, in a state with `P`. -/
abbrev ResetFails (P : State → Prop) (e : Error) (s : State) : Prop :=
  ((∃ code, e = .portError code) ∨ e = .wireNotHigh) ∧ P s

/-- A host access to a running block changes nothing but `OVR` and the replies
(20_memory.md R66, R69). -/
theorem hostAccess_onlyBus (a : Access) {s : State} (hb : s.busy = true) (hr : s.rst = false) :
    OnlyBus s (hostAccess a s) := by
  cases s
  simp only at hb hr
  subst hb hr
  cases a with
  | read off lanes =>
    unfold hostAccess hostRead
    simp only [if_true, Bool.false_eq_true, if_false]
    split <;> rfl
  | write off lanes v =>
    unfold hostAccess hostWrite
    simp only [Bool.false_or, Bool.true_and]
    split
    · rfl
    · split
      · rfl
      · rename_i r _
        cases r <;> rfl

section
variable {P : State → Prop} (hP : BusClosed P)
include hP

theorem landAll_keeps : ∀ (l : List Arrival) (s : State), P s →
    (∀ t, landAll l s = (false, t) → P t) ∧
    (∀ t, landAll l s = (true, t) → ∃ u, P u ∧ t = blockReset true u) := by
  intro l
  induction l with
  | nil =>
    intro s hs
    refine ⟨fun t h => ?_, fun t h => ?_⟩
    · obtain ⟨-, rfl⟩ := Prod.mk.inj h
      exact hP.closed s _ hs rfl
    · simp [landAll] at h
  | cons a rest ih =>
    intro s hs
    obtain ⟨m, e⟩ := a
    cases m with
    | whenIdle =>
      refine ⟨fun t h => ?_, fun t h => ?_⟩
      · obtain ⟨-, rfl⟩ := Prod.mk.inj h
        exact hP.closed s _ hs rfl
      · simp [landAll] at h
    | after n =>
      cases n with
      | succ n =>
        refine ⟨fun t h => ?_, fun t h => ?_⟩
        · obtain ⟨-, rfl⟩ := Prod.mk.inj h
          exact hP.closed s _ hs rfl
        · simp [landAll] at h
      | zero =>
        cases e with
        | access x =>
          exact ih _ (hP.closed s _ hs (hostAccess_onlyBus x (hP.running s hs).1 (hP.running s hs).2))
        | rst b =>
          cases b with
          | true =>
            refine ⟨fun t h => ?_, fun t h => ?_⟩
            · simp [landAll] at h
            · obtain ⟨-, rfl⟩ := Prod.mk.inj h
              exact ⟨s.withInbox rest, hP.closed s _ hs rfl, rfl⟩
          | false =>
            have h0 : setRst false s = s := by
              unfold setRst
              simp [(hP.running s hs).2]
            have := ih s hs
            rw [← h0] at this
            exact this

theorem moment_keeps {E : Error → State → Prop} : Op.Triple P moment (fun _ => P) E P := by
  intro s hs
  have h := landAll_keeps hP s.world.inbox s hs
  rcases hl : landAll s.world.inbox s with ⟨b, t⟩
  simp only [moment, EStateM.run, hl]
  cases b with
  | false => exact h.1 t hl
  | true => exact h.2 t hl

theorem busEvent_keeps (p : Prim) (seen : Bool → BusEvent) :
    Op.Triple P (busEvent p seen) (fun _ => P) (PortFails P) P := by
  refine (moment_keeps hP).bind fun _ s hs => ?_
  simp only [takeReply, EStateM.run, nextReply_eq]
  cases s.replyAt 0 with
  | ok b => exact hP.closed s _ hs rfl
  | err c => exact ⟨⟨c, rfl⟩, hP.closed s _ hs rfl⟩

theorem driveLow_keeps : Op.Triple P driveLow (fun _ => P) (PortFails P) P :=
  (busEvent_keeps hP _ _).bind fun _ => .onModify fun s hs => hP.closed s _ hs rfl

theorem release_keeps : Op.Triple P release (fun _ => P) (PortFails P) P :=
  (busEvent_keeps hP _ _).bind fun _ => .onModify fun s hs => hP.closed s _ hs rfl

theorem holdHigh_keeps : Op.Triple P holdHigh (fun _ => P) (PortFails P) P :=
  (busEvent_keeps hP _ _).bind fun _ => .onModify fun s hs => hP.closed s _ hs rfl

theorem delay_keeps {E : Error → State → Prop} (t : DelayName) :
    Op.Triple P (delay t) (fun _ => P) E P :=
  (moment_keeps hP).bind fun _ => .onModify fun s hs => hP.closed s _ hs rfl

theorem readSlot_keeps : Op.Triple P readSlot (fun _ => P) (PortFails P) P :=
  (driveLow_keeps hP).bind fun _ => (delay_keeps hP _).bind fun _ =>
    (release_keeps hP).bind fun _ => (delay_keeps hP _).bind fun _ =>
    (busEvent_keeps hP _ _).bind fun _ => (delay_keeps hP _).bind fun _ => .pure fun _ hs => hs

theorem writeSlot_keeps (v : Bool) : Op.Triple P (writeSlot v) (fun _ => P) (PortFails P) P :=
  (driveLow_keeps hP).bind fun _ => (delay_keeps hP _).bind fun _ =>
    (release_keeps hP).bind fun _ => delay_keeps hP _

theorem readBits_keeps : ∀ (n i : Nat) (acc : Byte),
    Op.Triple P (readBits n i acc) (fun _ => P) (PortFails P) P
  | 0, _, _ => .pure fun _ hs => hs
  | n + 1, _, _ => (readSlot_keeps hP).bind fun _ => readBits_keeps n _ _

theorem writeBits_keeps : ∀ (n i : Nat) (b : Byte),
    Op.Triple P (writeBits n i b) (fun _ => P) (PortFails P) P
  | 0, _, _ => .pure fun _ hs => hs
  | n + 1, _, _ => (writeSlot_keeps hP _).bind fun _ => writeBits_keeps n _ _

theorem writeByteSeq_keeps (b : Byte) (hold : Bool) :
    Op.Triple P (writeByteSeq b hold) (fun _ => P) (PortFails P) P :=
  (writeBits_keeps hP _ _ _).bind fun _ => by
    cases hold
    · exact release_keeps hP
    · exact holdHigh_keeps hP

theorem writeBytes_keeps (hold : Bool) : ∀ bs : List Byte,
    Op.Triple P (writeBytes bs hold) (fun _ => P) (PortFails P) P
  | [] => .pure fun _ hs => hs
  | [b] => writeByteSeq_keeps hP b hold
  | _ :: c :: rest => (writeByteSeq_keeps hP _ _).bind fun _ => writeBytes_keeps hold (c :: rest)

theorem selectDevice_keeps (a : Addr) :
    Op.Triple P (selectDevice a) (fun _ => P) (PortFails P) P :=
  (writeByteSeq_keeps hP _ _).bind fun _ =>
    (Op.Triple.get (Q := fun _ => P) fun _ hs => hs).bind fun _ => writeBytes_keeps hP _ _

theorem sendPayload_keeps (bs : List Byte) :
    Op.Triple P (sendPayload bs) (fun _ => P) (PortFails P) P :=
  (Op.Triple.get (Q := fun _ => P) fun _ hs => hs).bind fun _ => writeBytes_keeps hP _ _

omit hP in
/-- What a port failure alone can end, a failed bus reset can. -/
theorem portFails_resetFails {α : Type} {x : Op α} {Q : α → State → Prop}
    (h : Op.Triple P x Q (PortFails P) P) : Op.Triple P x Q (ResetFails P) P :=
  h.mono (fun _ h => h) (fun _ _ h => h) (fun _ _ h => ⟨.inl h.1, h.2⟩) fun _ h => h

theorem pollWireHigh_keeps : ∀ n : Nat,
    Op.Triple P (pollWireHigh n) (fun _ => P) (ResetFails P) P
  | 0 => .raise fun _ hs => ⟨.inr rfl, hs⟩
  | n + 1 => by
    refine (portFails_resetFails (busEvent_keeps hP _ _)).bind fun b => ?_
    exact .ite (fun _ => .pure fun _ hs => hs)
      fun _ => (delay_keeps hP _).bind fun _ => pollWireHigh_keeps n

theorem presenceWindow_keeps : ∀ (n : Nat) (p : Bool),
    Op.Triple P (presenceWindow n p) (fun _ => P) (PortFails P) P
  | 0, _ => .pure fun _ hs => hs
  | n + 1, _ => (delay_keeps hP _).bind fun _ => (busEvent_keeps hP _ _).bind fun _ =>
    presenceWindow_keeps n _

/-- A bus reset changes besides only `PRESENCE` (40_bit_transport.md R128, 70_reset_and_hazards.md
R282). -/
theorem busReset_keeps (hp : ∀ s p, P s → P { s with presence := p }) :
    Op.Triple P busReset (fun _ => P) (ResetFails P) P := by
  have hw : Op.Triple P ensureWireHigh (fun _ => P) (ResetFails P) P := by
    refine (Op.Triple.get (Q := fun _ => P) fun _ hs => hs).bind fun s => ?_
    exact Op.Triple.ite
      (fun _ => (portFails_resetFails (release_keeps hP)).bind fun _ => pollWireHigh_keeps hP _)
      fun _ => pollWireHigh_keeps hP _
  exact hw.bind fun _ => (portFails_resetFails (driveLow_keeps hP)).bind fun _ =>
    (delay_keeps hP _).bind fun _ =>
    (portFails_resetFails (release_keeps hP)).bind fun _ => (delay_keeps hP _).bind fun _ =>
    (portFails_resetFails (presenceWindow_keeps hP _ _)).bind fun _ => (delay_keeps hP _).bind fun _ =>
    (Op.Triple.onModify (Q := fun _ => P) fun s hs => hp s _ hs).bind fun _ => .pure fun _ hs => hs

/-- Reading `r` bytes changes besides only the bytes of `BUF` read into (10_state.md R22). -/
theorem readIntoBuf_keeps : ∀ (r k : Nat),
    (∀ s j b, k ≤ j → j < k + r → P s → P { s with buf := setByte s.buf j b }) →
    Op.Triple P (readIntoBuf r k) (fun _ => P) (PortFails P) P
  | 0, _, _ => .pure fun _ hs => hs
  | r + 1, k, h => (readBits_keeps hP _ _ _).bind fun b =>
    (Op.Triple.onModify (Q := fun _ => P) fun s hs => h s k b (by omega) (by omega) hs).bind fun _ =>
    (readIntoBuf_keeps r (k + 1) fun s j b h1 h2 => h s j b (by omega) (by omega)).bind fun _ =>
    .pure fun _ hs => hs

/-- A transaction changes besides only `PRESENCE` and the bytes of `BUF` it reads into
(43_select_transactions.md R203). -/
theorem transaction_keeps {a : Addr} {payload : Op Unit} {r : Nat}
    (hp : ∀ s p, P s → P { s with presence := p })
    (hbuf : ∀ s j b, j < r → P s → P { s with buf := setByte s.buf j b })
    (hpay : Op.Triple P payload (fun _ => P) (PortFails P) P) :
    Op.Triple P (transaction a payload r) (fun _ => P) (ResetFails P) P := by
  exact (busReset_keeps hP hp).bind fun _ =>
    (portFails_resetFails (selectDevice_keeps hP a)).bind fun _ =>
    (portFails_resetFails hpay).bind fun _ =>
    portFails_resetFails (readIntoBuf_keeps hP r 0 fun s j b _ h2 =>
      hbuf s j b (by omega))

theorem replay_keeps : ∀ n i : Nat, Op.Triple P (replay n i) (fun _ => P) (PortFails P) P
  | 0, _ => .pure fun _ hs => hs
  | n + 1, i => (readSlot_keeps hP).bind fun _ => (readSlot_keeps hP).bind fun _ =>
    .ite (fun _ => .pure fun _ hs => hs) fun _ =>
      (Op.Triple.get (Q := fun _ => P) fun _ hs => hs).bind fun _ =>
      (writeSlot_keeps hP _).bind fun _ => replay_keeps n (i + 1)

theorem discover_keeps (hw : ∀ s a d, P s → P { s with saddr := a, sdisc := d })
    (ld : Option Nat) : ∀ (n i : Nat) (new : Bool),
    Op.Triple P (discover ld n i new) (fun _ => P) (PortFails P) P
  | 0, _, _ => .pure fun _ hs => hs
  | n + 1, i, _ => by
    have hd : ∀ disc dir, Op.Triple P (decideBit i disc dir) (fun _ => P) (PortFails P) P :=
      fun disc dir => (Op.Triple.onModify (Q := fun _ => P) fun s hs => hw s _ _ hs).bind fun _ =>
        writeSlot_keeps hP _
    refine (readSlot_keeps hP).bind fun _ => (readSlot_keeps hP).bind fun _ => ?_
    exact .ite (fun _ => (hd _ _).bind fun _ => discover_keeps hw ld n _ _) fun _ =>
      .ite (fun _ => .pure fun _ hs => hs) fun _ =>
      .ite (fun _ => (hd _ _).bind fun _ => discover_keeps hw ld n _ _) fun _ =>
      (hd _ _).bind fun _ => discover_keeps hw ld n _ _

/-- A search call changes besides only `PRESENCE`, the search state, its results and `CRC`
(41_device_search.md R152, R161). -/
theorem search_keeps {send : Op Unit} (hsend : Op.Triple P send (fun _ => P) (PortFails P) P)
    (hp : ∀ s p, P s → P { s with presence := p })
    (hw : ∀ s a d, P s → P { s with saddr := a, sdisc := d })
    (hph : ∀ s ph, P s → P { s with sphase := ph })
    (hr : ∀ s r, P s → P { s with srchResult := r })
    (hf : ∀ s f, P s → P { s with found := f })
    (hc : ∀ s c x, P s → P (s.crcEval c x)) :
    Op.Triple P (search send) (fun _ => P) (ResetFails P) P := by
  have hres : ∀ r, Op.Triple P (setResult r) (fun _ => P) (ResetFails P) P := fun r =>
    (moment_keeps hP).bind fun _ => .onModify fun s hs => hr s r hs
  have hdf : ∀ ld n, Op.Triple P (discoverFrom ld n) (fun _ => P) (ResetFails P) P := by
    intro ld n
    refine (portFails_resetFails (discover_keeps hP hw ld _ _ _)).bind fun o => ?_
    cases o with
    | none => exact hres _
    | some new =>
      exact (Op.Triple.onModify (Q := fun _ => P) fun s hs => hph s _ hs).bind fun _ =>
        (Op.Triple.onModify (Q := fun _ => P) fun s hs => hf s s.saddr hs).bind fun _ =>
        (hres _).bind fun _ => (moment_keeps hP).bind fun _ => .onModify fun s hs => hc s _ _ hs
  refine (Op.Triple.get (Q := fun _ => P) fun _ hs => hs).bind fun s => ?_
  refine .ite (fun _ => hres _) fun _ => (busReset_keeps hP hp).bind fun p => ?_
  refine .ite (fun _ => ?_) fun _ => hres _
  refine (portFails_resetFails hsend).bind fun _ => ?_
  refine (Op.Triple.get (Q := fun _ => P) fun _ hs => hs).bind fun u => ?_
  cases lastDiscrepancy u.sdisc with
  | some ld =>
    refine (portFails_resetFails (replay_keeps hP _ _)).bind fun ok => ?_
    exact .ite (fun _ => hdf _ _) fun _ => hres _
  | none =>
    exact .ite (fun _ => (moment_keeps hP).bind fun _ =>
      (Op.Triple.onModify (Q := fun _ => P) fun s hs => hph s .ended hs).bind fun _ => hres _)
      fun _ => hdf _ _

/-- The moments around a body land events only, whether it returned or raised. -/
theorem bracket_triple {body : Op Unit} {Q : State → Prop} {E : Error → State → Prop}
    {A : State → Prop} (hQ : BusClosed Q) (hE : ∀ e, BusClosed (E e))
    (h : Op.Triple P body (fun _ => Q) E A)
    (hPA : ∀ s, P s → A s) (hQA : ∀ s, Q s → A s) (hEA : ∀ e s, E e s → A s) :
    Op.Triple P (bracket body) (fun _ => Q) E A := by
  refine ((moment_keeps hP).mono (fun _ h => h) (fun _ _ h => h) (fun _ _ h => h) hPA).bind
    fun _ s hs => ?_
  have hb := h s hs
  simp only [landLast, EStateM.run] at hb ⊢
  cases hr : body s with
  | ok _ u =>
    rw [hr] at hb
    exact ((moment_keeps hQ).mono (fun _ h => h) (fun _ _ h => h) (fun _ _ h => h) hQA) u hb
  | error e u =>
    rw [hr] at hb
    cases e with
    | abandoned => exact hb
    | raised e =>
      have hm := (moment_keeps (E := E) (hE e)) u hb
      simp only [EStateM.run] at hm ⊢
      cases hl : moment u with
      | ok _ v =>
        rw [hl] at hm
        exact hm
      | error f v =>
        rw [hl] at hm
        cases f with
        | raised f => exact hm
        | abandoned =>
          obtain ⟨w, hw, hv⟩ := hm
          exact ⟨w, hEA e w hw, hv⟩

end

/-- What a command leaves, from a triple of its bracketed body: the three ways it can end
(30_encoding.md R86, 60_exceptions.md R251, 70_reset_and_hazards.md R281). -/
theorem runCommand_cases {isSearch : Bool} {body : Op Unit} {P Q A : State → Prop}
    {E : Error → State → Prop} {s t : State} (h : Op.Triple P (bracket body) (fun _ => Q) E A)
    (hs : P (accept s)) (ht : runCommand isSearch body s = .next t) :
    (∃ u, Q u ∧ t = complete u) ∨ (∃ e u, E e u ∧ t = complete (recordError isSearch e u)) ∨
      ∃ u, A u ∧ t = blockReset true u := by
  have h := h (accept s) hs
  unfold runCommand at ht
  cases hr : (bracket body).run (accept s) with
  | ok a u =>
    rw [hr] at h ht
    exact .inl ⟨u, h, (Host.Outcome.next.inj ht).symm⟩
  | error e u =>
    rw [hr] at h ht
    cases e with
    | raised e => exact .inr (.inl ⟨e, u, h, (Host.Outcome.next.inj ht).symm⟩)
    | abandoned =>
      obtain ⟨v, hv, rfl⟩ := h
      exact .inr (.inr ⟨v, hv, (Host.Outcome.next.inj ht).symm⟩)

end Sys2Proof.Machine
end

