-- ==== Sys2Proof/Laws/PerInstr.lean ====
section
/-!
SUPPORT. Per-instruction laws about the syntax: `Shape` says how long an instruction's encoding is
(30_encoding.md R80) and that a command word has every reserved bit 0 (R81).
-/

namespace Sys2Proof.Laws.Shape

/-- Four bytes for a host command, one for a wire command; bits 7:5, 15:12 and 31:21 of a command word
are 0. -/
def Statement (i : Instr) : Prop :=
  (encode i).length = (if i.isHost then 4 else 1) ∧
    (i.isHost = true → encodeWord i &&& 0xFFE0F0E0#32 = 0#32)

/-- Reserved bits of an assembled word are 0 (30_encoding.md R81). -/
theorem hostWord_reserved : ∀ (op : BitVec 5) (hold bitval force seed : Bool) (len : BitVec 5),
    hostWord op hold bitval force seed len &&& 0xFFE0F0E0#32 = 0#32 := by decide +kernel

theorem nop : Statement .nop := ⟨rfl, fun _ => hostWord_reserved _ _ _ _ _ _⟩
theorem owReset : Statement .owReset := ⟨rfl, fun _ => hostWord_reserved _ _ _ _ _ _⟩
theorem owReadBit : Statement .owReadBit := ⟨rfl, fun _ => hostWord_reserved _ _ _ _ _ _⟩
theorem owWriteBit (v : Bool) : Statement (.owWriteBit v) := ⟨rfl, fun _ => hostWord_reserved _ _ _ _ _ _⟩
theorem owReadByte : Statement .owReadByte := ⟨rfl, fun _ => hostWord_reserved _ _ _ _ _ _⟩
theorem owWriteByte (v : Bool) : Statement (.owWriteByte v) := ⟨rfl, fun _ => hostWord_reserved _ _ _ _ _ _⟩
theorem owSelect : Statement .owSelect := ⟨rfl, fun _ => hostWord_reserved _ _ _ _ _ _⟩
theorem searchInit : Statement .searchInit := ⟨rfl, fun _ => hostWord_reserved _ _ _ _ _ _⟩
theorem searchNext : Statement .searchNext := ⟨rfl, fun _ => hostWord_reserved _ _ _ _ _ _⟩
theorem searchAlarm : Statement .searchAlarm := ⟨rfl, fun _ => hostWord_reserved _ _ _ _ _ _⟩
theorem crcCheckRom : Statement .crcCheckRom := ⟨rfl, fun _ => hostWord_reserved _ _ _ _ _ _⟩
theorem crc8Compute (v : Bool) (n : BitVec 5) : Statement (.crc8Compute v n) := ⟨rfl, fun _ => hostWord_reserved _ _ _ _ _ _⟩
theorem rsWrite (n : BitVec 5) : Statement (.rsWrite n) := ⟨rfl, fun _ => hostWord_reserved _ _ _ _ _ _⟩
theorem rsRead (n : BitVec 5) : Statement (.rsRead n) := ⟨rfl, fun _ => hostWord_reserved _ _ _ _ _ _⟩
theorem dsBind (v : Bool) : Statement (.dsBind v) := ⟨rfl, fun _ => hostWord_reserved _ _ _ _ _ _⟩
theorem dsStart : Statement .dsStart := ⟨rfl, fun _ => hostWord_reserved _ _ _ _ _ _⟩
theorem dsRead : Statement .dsRead := ⟨rfl, fun _ => hostWord_reserved _ _ _ _ _ _⟩
theorem splitTemp : Statement .splitTemp := ⟨rfl, fun _ => hostWord_reserved _ _ _ _ _ _⟩
theorem reserved1213 (n : BitVec 5) : Statement (.reserved1213 n) := ⟨rfl, fun _ => hostWord_reserved _ _ _ _ _ _⟩
theorem reserved1417 (n : BitVec 5) : Statement (.reserved1417 n) := ⟨rfl, fun _ => hostWord_reserved _ _ _ _ _ _⟩
theorem reserved181F (n : BitVec 5) : Statement (.reserved181F n) := ⟨rfl, fun _ => hostWord_reserved _ _ _ _ _ _⟩
theorem wireSearchRom : Statement .wireSearchRom := ⟨rfl, fun h => nomatch h⟩
theorem wireAlarmSearch : Statement .wireAlarmSearch := ⟨rfl, fun h => nomatch h⟩
theorem wireSelectRom : Statement .wireSelectRom := ⟨rfl, fun h => nomatch h⟩
theorem wireConvertT : Statement .wireConvertT := ⟨rfl, fun h => nomatch h⟩
theorem wireReadScratchpad : Statement .wireReadScratchpad := ⟨rfl, fun h => nomatch h⟩

end Sys2Proof.Laws.Shape
end

