-- ==== Sys2Proof/Laws/Port.lean ====
section
/-!
SUPPORT. What a piece of a command does when bus event `f` completes with `ERR(code)` and nothing lands:
`Acts` says at once that the piece completes when it ends before event `f`, and that it stops there else;
such pieces compose (40_bit_transport.md R125).
-/

namespace Sys2Proof.Machine

/-- The state in which bus event `f` has failed, with `events` put out up to it. -/
def State.lost (f : Nat) (events : List BusEvent) (s : State) : State :=
  (s.ran (f + 1) events s.line).loseLine

/-- `LINE` after these events (10_state.md R40). -/
def lineEnd : List BusEvent → Line → Line
  | [], l => l
  | .driveLow :: rest, _ => lineEnd rest .low
  | .release :: rest, _ => lineEnd rest .released
  | .hold :: rest, _ => lineEnd rest .hold
  | .sample _ :: rest, l => lineEnd rest l
  | .delay _ :: rest, l => lineEnd rest l
  | .failed _ _ :: rest, l => lineEnd rest l

theorem lineEnd_append : ∀ (a b : List BusEvent) (l : Line),
    lineEnd (a ++ b) l = lineEnd b (lineEnd a l)
  | [], _, _ => rfl
  | e :: a, b, l => by cases e <;> exact lineEnd_append a b _

@[simp] theorem busCount_nil : busCount [] = 0 := rfl

@[simp] theorem busCount_append (a b : List BusEvent) :
    busCount (a ++ b) = busCount a + busCount b := List.countP_append

@[simp] theorem busCount_readSlotTrace (v : Bool) : busCount (readSlotTrace v) = 3 := rfl

@[simp] theorem busCount_writeSlotTrace (v : Bool) : busCount (writeSlotTrace v) = 2 := rfl

theorem busCount_flatMap {α : Type} (g : α → List BusEvent) (c : Nat) (h : ∀ a, busCount (g a) = c) :
    ∀ l : List α, busCount (l.flatMap g) = c * l.length
  | [] => rfl
  | a :: l => by
    rw [List.flatMap_cons, busCount_append, h, busCount_flatMap g c h l, List.length_cons,
      Nat.mul_succ, Nat.add_comm]

@[simp] theorem busCount_writeByteTrace (b : Byte) (hold : Bool) :
    busCount (writeByteTrace b hold) = 17 := by
  rw [writeByteTrace, busCount_append, busCount_flatMap _ 2 fun _ => rfl]
  cases hold <;> rfl

@[simp] theorem busCount_writeBytesTrace (hold : Bool) : ∀ bs : List Byte,
    busCount (writeBytesTrace bs hold) = 17 * bs.length
  | [] => rfl
  | [b] => busCount_writeByteTrace b hold
  | b :: c :: rest => by
    have h : writeBytesTrace (b :: c :: rest) hold
        = writeByteTrace b false ++ writeBytesTrace (c :: rest) hold := rfl
    rw [h, busCount_append, busCount_writeByteTrace, busCount_writeBytesTrace hold (c :: rest),
      List.length_cons (a := b), Nat.mul_succ, Nat.add_comm]

@[simp] theorem busCount_selectTrace (a : Addr) (parasite : Bool) :
    busCount (selectTrace a parasite) = 153 := by
  simp [selectTrace, addrBytes_length]

@[simp] theorem busCount_readByteTrace (s : State) (e : Nat) : busCount (s.readByteTrace e) = 24 :=
  rfl

@[simp] theorem busCount_readBytesTrace (s : State) (e n : Nat) :
    busCount (s.readBytesTrace e n) = 24 * n := by
  rw [State.readBytesTrace, busCount_flatMap _ 24 fun _ => rfl, List.length_range]

@[simp] theorem busCount_lowPollsTrace : ∀ k : Nat, busCount (lowPollsTrace k) = k
  | 0 => rfl
  | k + 1 => by
    rw [lowPollsTrace, busCount_append, busCount_lowPollsTrace k]
    exact Nat.add_comm 1 k

@[simp] theorem busCount_resetTrace (s : State) (k : Nat) :
    busCount (s.resetTrace k) = s.resetEvents k := by
  have h : busCount s.releaseTrace = s.heldEvents := by
    unfold State.releaseTrace State.heldEvents
    split <;> rfl
  simp only [State.resetTrace, busCount_append, h, busCount_lowPollsTrace]
  rfl

@[simp] theorem busCount_walkTrace (s : State) (ld : Option Nat) (e i : Nat) :
    busCount (s.walkTrace ld e i) = 8 := rfl

/-! ## Where a trace is cut -/

@[simp] theorem busCount_delay (t : DelayName) (a : List BusEvent) :
    busCount (.delay t :: a) = busCount a := rfl

theorem busCount_bus {e : BusEvent} (h : e.isBus = true) (a : List BusEvent) :
    busCount (e :: a) = busCount a + 1 := by
  simp [busCount, h]

theorem failAt_bus {e : BusEvent} (h : e.isBus = true) (code : Byte) (f : Nat) (a : List BusEvent) :
    failAt code (f + 1) (e :: a) = e :: failAt code f a := by
  cases e <;> first | rfl | cases h

theorem failAt_zero_bus {e : BusEvent} (h : e.isBus = true) (code : Byte) (a : List BusEvent) :
    failAt code 0 (e :: a) = [.failed e.prim code] := by
  cases e <;> first | rfl | cases h

theorem failAt_append_left (code : Byte) : ∀ (a b : List BusEvent) (f : Nat), f < busCount a →
    failAt code f (a ++ b) = failAt code f a
  | [], _, _, h => absurd h (Nat.not_lt_zero _)
  | e :: a, b, f, h => by
    cases he : e.isBus with
    | true =>
      rw [busCount_bus he] at h
      cases f with
      | zero => rw [List.cons_append, failAt_zero_bus he, failAt_zero_bus he]
      | succ f =>
        rw [List.cons_append, failAt_bus he, failAt_bus he, failAt_append_left code a b f (by omega)]
    | false =>
      cases e with
      | delay d => exact congrArg (BusEvent.delay d :: ·) (failAt_append_left code a b f h)
      | driveLow | release | hold | sample | failed => cases he

theorem failAt_append_right (code : Byte) : ∀ (a b : List BusEvent) (f : Nat),
    failAt code (busCount a + f) (a ++ b) = a ++ failAt code f b
  | [], _, _ => by simp
  | e :: a, b, f => by
    cases he : e.isBus with
    | true =>
      rw [busCount_bus he, show busCount a + 1 + f = busCount a + f + 1 by omega, List.cons_append,
        failAt_bus he, failAt_append_right code a b f]
      rfl
    | false =>
      cases e <;> first | exact congrArg _ (failAt_append_right code a b f) | cases he

theorem failAt_append_ge (code : Byte) {a : List BusEvent} (b : List BusEvent) {f : Nat}
    (h : busCount a ≤ f) : failAt code f (a ++ b) = a ++ failAt code (f - busCount a) b := by
  obtain ⟨g, rfl⟩ := Nat.exists_eq_add_of_le h
  rw [failAt_append_right, Nat.add_sub_cancel_left]

/-! ## Pieces of a command -/

/-- From event `n` on `x` puts `tr` on the bus and returns `a`, when it ends before event `f`; else event
`f` is the one of `tr` that fails. -/
def Acts {α : Type} (s : State) (f : Nat) (code : Byte) (x : Op α) (n : Nat) (tr : List BusEvent)
    (a : α) : Prop :=
  n ≤ f → ∀ (e : List BusEvent) (l : Line), x.run (s.ran n e l) =
    if n + busCount tr ≤ f then .ok a (s.ran (n + busCount tr) (e ++ tr) (lineEnd tr l))
    else .error (.raised (.portError code)) (s.lost f (e ++ failAt code (f - n) tr))

section
variable {s : State} {f : Nat} {code : Byte}

theorem Acts.bind {α β : Type} {x : Op α} {g : α → Op β} {n : Nat} {tr tr' : List BusEvent} {a : α}
    {b : β} (hx : Acts s f code x n tr a) (hg : Acts s f code (g a) (n + busCount tr) tr' b) :
    Acts s f code (x >>= g) n (tr ++ tr') b := by
  intro hn e l
  have h := hx hn e l
  by_cases h1 : n + busCount tr ≤ f
  · rw [if_pos h1] at h
    rw [Op.bind_ok _ h, hg h1, busCount_append, Nat.add_assoc, List.append_assoc, lineEnd_append,
      show f - n = busCount tr + (f - (n + busCount tr)) by omega, failAt_append_right,
      List.append_assoc]
  · rw [if_neg h1] at h
    rw [Op.bind_error _ h, if_neg (by rw [busCount_append]; omega),
      failAt_append_left _ _ _ _ (by omega)]

theorem Acts.pure {α : Type} (n : Nat) (a : α) : Acts s f code (Pure.pure a : Op α) n [] a := by
  intro hn e l
  rw [if_pos (by simpa using hn), EStateM.run_pure]
  simp [lineEnd]

/-- A piece that ends before event `f`. -/
theorem Acts.ok {α : Type} {x : Op α} {n : Nat} {tr : List BusEvent} {a : α} (h : Acts s f code x n tr a)
    (hf : n + busCount tr ≤ f) (e : List BusEvent) (l : Line) :
    x.run (s.ran n e l) = .ok a (s.ran (n + busCount tr) (e ++ tr) (lineEnd tr l)) := by
  rw [h (by omega), if_pos hf]

/-- A piece that event `f` ends. -/
theorem Acts.error {α : Type} {x : Op α} {n : Nat} {tr : List BusEvent} {a : α}
    (h : Acts s f code x n tr a) (hn : n ≤ f) (hf : f < n + busCount tr) (e : List BusEvent) (l : Line) :
    x.run (s.ran n e l)
      = .error (.raised (.portError code)) (s.lost f (e ++ failAt code (f - n) tr)) := by
  rw [h hn, if_neg (by omega)]

variable (hq : Quiet s) (hb : BusOk s f) (hr : s.replyAt f = .err code)
include hq hb hr

omit hq hb hr in
/-- A piece that is one bus event. -/
theorem acts_of_event {α : Type} {x : Op α} {n : Nat} {ev : BusEvent} {a : α} (hev : ev.isBus = true)
    (hok : n + 1 ≤ f → ∀ e l,
      x.run (s.ran n e l) = .ok a (s.ran (n + 1) (e ++ [ev]) (lineEnd [ev] l)))
    (herr : n = f → ∀ e l, x.run (s.ran n e l)
      = .error (.raised (.portError code)) (s.ran (n + 1) (e ++ [.failed ev.prim code]) l).loseLine) :
    Acts s f code x n [ev] a := by
  intro hn e l
  have h1 : busCount [ev] = 1 := busCount_bus hev []
  rw [h1]
  by_cases hf : n + 1 ≤ f
  · rw [if_pos hf, hok hf]
  · obtain rfl : n = f := by omega
    rw [if_neg hf, herr rfl, Nat.sub_self, failAt_zero_bus hev]
    rfl

theorem driveLow_acts (n : Nat) : Acts s f code driveLow n [.driveLow] () :=
  acts_of_event rfl (fun h _ _ => driveLow_ran hq hb h)
    fun h e l => Op.bind_error _ (busEvent_err hq (h ▸ hr) e l _ _)

theorem release_acts (n : Nat) : Acts s f code release n [.release] () :=
  acts_of_event rfl (fun h _ _ => release_ran hq hb h)
    fun h e l => Op.bind_error _ (busEvent_err hq (h ▸ hr) e l _ _)

theorem holdHigh_acts (n : Nat) : Acts s f code holdHigh n [.hold] () :=
  acts_of_event rfl (fun h _ _ => holdHigh_ran hq hb h)
    fun h e l => Op.bind_error _ (busEvent_err hq (h ▸ hr) e l _ _)

/-- A sample reads the level; of a failed one the level says nothing. -/
theorem sample_acts {n : Nat} {v : Bool} (hv : n < f → s.levelAt n = v) :
    Acts s f code sample n [.sample v] v :=
  acts_of_event rfl (fun h e l => by rw [← hv h]; exact sample_ran hq hb h)
    fun h e l => busEvent_err hq (h ▸ hr) e l _ _

omit hb hr in
theorem delay_acts (t : DelayName) (n : Nat) : Acts s f code (delay t) n [.delay t] () := by
  intro hn e l
  rw [if_pos (by simpa using hn)]
  exact delay_ran hq t

/-! ### Slots and bytes -/

theorem readSlot_acts (n : Nat) : Acts s f code readSlot n (readSlotTrace (s.levelAt (n + 2)))
    (s.levelAt (n + 2)) :=
  (driveLow_acts hq hb hr n).bind <| (delay_acts hq _ _).bind <| (release_acts hq hb hr _).bind <|
    (delay_acts hq _ _).bind <| (sample_acts hq hb hr fun _ => rfl).bind <|
    (delay_acts hq _ _).bind <| .pure _ _

theorem writeSlot_acts (v : Bool) (n : Nat) : Acts s f code (writeSlot v) n (writeSlotTrace v) () :=
  (driveLow_acts hq hb hr n).bind <| (delay_acts hq _ _).bind <| (release_acts hq hb hr _).bind <|
    delay_acts hq _ _

theorem writeBits_acts (b : Byte) : ∀ m i n : Nat, Acts s f code (writeBits m i b) n
    ((List.range' i m).flatMap fun j => writeSlotTrace (b.getLsbD j)) ()
  | 0, _, _ => .pure _ _
  | m + 1, i, n => by
    rw [List.range'_succ, List.flatMap_cons]
    exact (writeSlot_acts hq hb hr _ n).bind (writeBits_acts b m (i + 1) _)

theorem writeByteSeq_acts (b : Byte) (hold : Bool) (n : Nat) :
    Acts s f code (writeByteSeq b hold) n (writeByteTrace b hold) () := by
  unfold writeByteTrace
  rw [List.range_eq_range']
  refine (writeBits_acts hq hb hr b 8 0 n).bind ?_
  cases hold
  · exact release_acts hq hb hr _
  · exact holdHigh_acts hq hb hr _

theorem writeBytes_acts (hold : Bool) : ∀ (bs : List Byte) (n : Nat),
    Acts s f code (writeBytes bs hold) n (writeBytesTrace bs hold) ()
  | [], _ => .pure _ _
  | [b], n => writeByteSeq_acts hq hb hr b hold n
  | b :: c :: rest, n =>
    (writeByteSeq_acts hq hb hr b false n).bind (writeBytes_acts hold (c :: rest) _)

omit hq hb hr in
/-- Reading a register that bus activity does not change. -/
theorem Acts.withGet {α : Type} {g : State → Op α} {n : Nat} {tr : List BusEvent} {a : α}
    (h : ∀ e l, Acts s f code (g (s.ran n e l)) n tr a) :
    Acts s f code (get >>= g) n tr a := by
  intro hn e l
  rw [Op.bind_ok _ (EStateM.run_get _)]
  exact h e l hn e l

theorem selectDevice_acts (a : Addr) (n : Nat) :
    Acts s f code (selectDevice a) n (selectTrace a s.parasite) () :=
  (writeByteSeq_acts hq hb hr _ _ n).bind <| .withGet fun _ _ => writeBytes_acts hq hb hr _ _ _

theorem sendPayload_acts (bs : List Byte) (n : Nat) :
    Acts s f code (sendPayload bs) n (writeBytesTrace bs s.parasite) () :=
  .withGet fun _ _ => writeBytes_acts hq hb hr _ _ _

theorem readBits_acts : ∀ (m i n : Nat) (acc : Byte), ∃ v, Acts s f code (readBits m i acc) n
    ((List.range m).flatMap fun j => readSlotTrace (s.levelAt (n + 3 * j + 2))) v
  | 0, _, _, acc => ⟨acc, .pure _ _⟩
  | m + 1, i, n, acc => by
    have htr : (List.range (m + 1)).flatMap (fun j => readSlotTrace (s.levelAt (n + 3 * j + 2)))
        = readSlotTrace (s.levelAt (n + 2))
          ++ (List.range m).flatMap fun j => readSlotTrace (s.levelAt (n + 3 + 3 * j + 2)) := by
      rw [List.range_succ_eq_map, List.flatMap_cons, List.flatMap_map]
      refine congrArg _ (List.flatMap_congr fun j _ => ?_)
      rw [show n + 3 * Nat.succ j + 2 = n + 3 + 3 * j + 2 by omega]
    obtain ⟨v, h⟩ := readBits_acts m (i + 1) (n + 3)
      (acc ||| (if s.levelAt (n + 2) then 1#8 <<< i else 0#8))
    exact ⟨v, htr ▸ (readSlot_acts hq hb hr n).bind h⟩

/-- The levels it reads are those `readByteTrace` names. -/
theorem readByteSeq_acts (n : Nat) : ∃ v, Acts s f code readByteSeq n (s.readByteTrace n) v := by
  obtain ⟨v, h⟩ := readBits_acts hq hb hr 8 0 n 0
  refine ⟨v, ?_⟩
  have htr : s.readByteTrace n
      = (List.range 8).flatMap fun j => readSlotTrace (s.levelAt (n + 3 * j + 2)) := by
    rw [State.readByteTrace, State.slotLevels, List.flatMap_map]
  exact htr ▸ h

/-! ### Pieces that event `f` ends -/

/-- Event `f` is one of the events `tr` that `x` puts on the bus from event `n` on, and ends it. -/
def Ends {α : Type} (s : State) (f : Nat) (code : Byte) (x : Op α) (n : Nat) (tr : List BusEvent) :
    Prop :=
  n ≤ f → f < n + busCount tr → ∀ (e : List BusEvent) (l : Line),
    x.run (s.ran n e l)
      = .error (.raised (.portError code)) (s.lost f (e ++ failAt code (f - n) tr))

omit hq hb hr in
theorem Acts.ends {α : Type} {x : Op α} {n : Nat} {tr : List BusEvent} {a : α}
    (h : Acts s f code x n tr a) : Ends s f code x n tr := fun hn hf => h.error hn hf

omit hq hb hr in
theorem Ends.bind {α β : Type} {x : Op α} {n : Nat} {tr : List BusEvent} (h : Ends s f code x n tr)
    (g : α → Op β) : Ends s f code (x >>= g) n tr := fun hn hf e l => Op.bind_error _ (h hn hf e l)

omit hq hb hr in
theorem Acts.bindEnds {α β : Type} {x : Op α} {g : α → Op β} {n : Nat} {tr tr' : List BusEvent} {a : α}
    (hx : Acts s f code x n tr a) (hg : Ends s f code (g a) (n + busCount tr) tr') :
    Ends s f code (x >>= g) n (tr ++ tr') := by
  intro hn hf e l
  by_cases h1 : n + busCount tr ≤ f
  · rw [Op.bind_ok _ (hx.ok h1 e l), hg h1 (by rw [busCount_append] at hf; omega),
      show f - n = busCount tr + (f - (n + busCount tr)) by omega, failAt_append_right,
      List.append_assoc]
  · rw [Op.bind_error _ (hx.error hn (by omega) e l), failAt_append_left _ _ _ _ (by omega)]

/-! ### The bus reset -/

theorem pollWireHigh_acts : ∀ (k m n : Nat), k < m →
    (∀ j < k, n + j < f → s.levelAt (n + j) = false) → (n + k < f → s.levelAt (n + k) = true) →
    Acts s f code (pollWireHigh m) n (lowPollsTrace k ++ [.sample true]) ()
  | 0, m + 1, n, _, _, hhigh =>
    (sample_acts hq hb hr (v := true) hhigh).bind (.pure _ _)
  | k + 1, m + 1, n, hm, hlow, hhigh => by
    have ih := pollWireHigh_acts k m (n + 1) (by omega)
      (fun j hj hf => by
        rw [show n + 1 + j = n + (j + 1) by omega] at hf ⊢
        exact hlow (j + 1) (by omega) hf)
      (fun hf => by
        rw [show n + 1 + k = n + (k + 1) by omega] at hf ⊢
        exact hhigh hf)
    exact (sample_acts hq hb hr (v := false) fun hf => hlow 0 (by omega) hf).bind
      ((delay_acts hq _ _).bind ih)

theorem presenceWindow_acts : ∀ (m : Nat) (p : Bool) (n : Nat), ∃ v,
    Acts s f code (presenceWindow m p) n
      (((List.range m).map fun j => s.levelAt (n + j)).flatMap
        fun v => [.delay .tPstep, .sample v]) v
  | 0, p, _ => ⟨p, .pure _ _⟩
  | m + 1, p, n => by
    obtain ⟨v, h⟩ := presenceWindow_acts m (p || !s.levelAt n) (n + 1)
    have hl : (List.range (m + 1)).map (fun j => s.levelAt (n + j))
        = s.levelAt n :: (List.range m).map fun j => s.levelAt (n + 1 + j) := by
      rw [List.range_succ_eq_map]
      simp [Function.comp_def, Nat.add_assoc, Nat.add_comm 1]
    refine ⟨v, ?_⟩
    rw [hl, List.flatMap_cons]
    exact (delay_acts hq _ _).bind ((sample_acts hq hb hr fun _ => rfl).bind h)

/-- A bus reset that event `f` ends leaves `PRESENCE` (10_state.md R30). -/
theorem busReset_error {k : Nat} (hk : PollsBefore s k f) (hf : f < s.resetEvents k) :
    busReset.run s
      = .error (.raised (.portError code)) (s.lost f (failAt code f (s.resetTrace k))) := by
  obtain ⟨v, hv⟩ := presenceWindow_acts hq hb hr nPres false (s.heldEvents + k + 3)
  have hpolls := pollWireHigh_acts hq hb hr k nWh s.heldEvents hk.1 hk.2.1 hk.2.2
  have h3 : s.heldEvents + busCount (lowPollsTrace k ++ [.sample true]) + busCount [.driveLow]
      + busCount [.delay .tRstl] + busCount [.release] + busCount [.delay .tPdwait]
      = s.heldEvents + k + 3 := by
    rw [busCount_append, busCount_lowPollsTrace]
    show s.heldEvents + (k + 1) + 1 + 0 + 1 + 0 = _
    omega
  have hrest : ∀ g : Bool → Op Bool, Ends s f code (do
      pollWireHigh nWh
      driveLow
      delay .tRstl
      release
      delay .tPdwait
      let p ← presenceWindow nPres false
      delay .tRstrem
      g p) s.heldEvents ((lowPollsTrace k ++ [.sample true]) ++ ([.driveLow] ++ ([.delay .tRstl]
        ++ ([.release] ++ ([.delay .tPdwait] ++ ((s.presenceLevels k).flatMap
          (fun l => [.delay .tPstep, .sample l]) ++ [.delay .tRstrem])))))) := fun g =>
    hpolls.bindEnds <| (driveLow_acts hq hb hr _).bindEnds <| (delay_acts hq _ _).bindEnds <|
      (release_acts hq hb hr _).bindEnds <| (delay_acts hq _ _).bindEnds <| by
        rw [h3]
        exact hv.bindEnds ((delay_acts hq _ _).ends.bind _)
  have htr : s.resetTrace k = s.releaseTrace ++ ((lowPollsTrace k ++ [.sample true]) ++ ([.driveLow]
      ++ ([.delay .tRstl] ++ ([.release] ++ ([.delay .tPdwait] ++ ((s.presenceLevels k).flatMap
        (fun l => [.delay .tPstep, .sample l]) ++ [.delay .tRstrem])))))) := by
    simp [State.resetTrace]
  have hheld : busCount s.releaseTrace = s.heldEvents := by
    unfold State.releaseTrace State.heldEvents
    split <;> rfl
  by_cases h0 : s.heldEvents ≤ f
  · have he := ensureWireHigh_eq hq hb h0
    have hb' := busCount_resetTrace s k
    rw [htr, busCount_append, hheld] at hb'
    unfold busReset
    refine Eq.trans (by rw [EStateM.run_bind, he, ← EStateM.run_bind]) ?_
    rw [hrest _ h0 (by omega), htr]
    congr 2
    rw [failAt_append_ge (a := s.releaseTrace) _ _ (by omega), hheld]
  · have hl : s.line ≠ .released := fun h => h0 (by simp [State.heldEvents, h])
    have hf0 : f = 0 := by
      have : s.heldEvents = 1 := if_neg hl
      omega
    subst hf0
    have hrel := (release_acts hq hb hr 0).error (Nat.le_refl 0) (show 0 < 0 + 1 by omega) [] s.line
    rw [State.ran_zero] at hrel
    have hens : ensureWireHigh.run s
        = .error (.raised (.portError code)) (s.lost 0 ([] ++ failAt code 0 [.release])) := by
      unfold ensureWireHigh
      rw [Op.bind_ok _ (EStateM.run_get _)]
      simp only [ne_eq, hl, not_false_eq_true, if_true]
      exact Op.bind_error _ hrel
    unfold busReset
    rw [Op.bind_error _ hens, htr, State.releaseTrace, if_neg hl]
    rfl

omit hr in
/-- A bus reset that ends before event `f`. -/
theorem busReset_before {k : Nat} (hk : PollsBefore s k f) (hf : s.resetEvents k ≤ f) :
    busReset.run s = .ok (s.presenceSeen k)
      (({ s with presence := s.presenceSeen k }).ran (s.resetEvents k) (s.resetTrace k) .released) :=
  busReset_ran hq hb
    ⟨hk.1, fun j hj => hk.2.1 j hj (by unfold State.resetEvents at hf; omega),
      hk.2.2 (by unfold State.resetEvents at hf; omega)⟩ hf

end

/-! ### Reading into `BUF`, transactions -/

/-- Event `f` ends the reading of bytes: the bytes complete before it stand in `BUF`
(43_select_transactions.md R205). -/
theorem readIntoBuf_error {f : Nat} {code : Byte} : ∀ (m : Nat) (s : State) (k n : Nat)
    (e : List BusEvent) (l : Line), Quiet s → BusOk s f → s.replyAt f = .err code →
    n ≤ f → f < n + 24 * m →
    (readIntoBuf m k).run (s.ran n e l) = .error (.raised (.portError code))
      (({ s with buf := storeBytes (s.bytesRead n ((f - n) / 24)) k s.buf }).lost f
        (e ++ failAt code (f - n) (s.readBytesTrace n m))) := by
  intro m
  induction m with
  | zero => intro s k n e l _ _ _ h1 h2; omega
  | succ m ih =>
    intro s k n e l hq hb hr hn hf
    obtain ⟨v, hv⟩ := readByteSeq_acts hq hb hr n
    have htr : s.readBytesTrace n (m + 1)
        = s.readByteTrace n ++ s.readBytesTrace (n + 24) m := by
      rw [State.readBytesTrace, List.range_succ_eq_map, List.flatMap_cons, List.flatMap_map]
      refine congrArg _ (List.flatMap_congr fun j _ => ?_)
      rw [show n + 24 * Nat.succ j = n + 24 + 24 * j by omega]
    unfold readIntoBuf
    by_cases h24 : n + 24 ≤ f
    · have hbytes : s.bytesRead n ((f - n) / 24)
          = s.byteRead n :: s.bytesRead (n + 24) ((f - (n + 24)) / 24) := by
        rw [State.bytesRead, show (f - n) / 24 = (f - (n + 24)) / 24 + 1 by omega,
          List.range_succ_eq_map, List.map_cons, List.map_map]
        refine congrArg _ (List.map_congr_left fun j _ => ?_)
        show s.byteRead (n + 24 * Nat.succ j) = _
        rw [show n + 24 * Nat.succ j = n + 24 + 24 * j by omega]
      rw [Op.bind_ok _ (readByteSeq_ran hq hb h24), Op.bind_ok _ (EStateM.run_modify _ _)]
      have hi := ih { s with buf := setByte s.buf k (s.byteRead n) } (k + 1) (n + 24)
        (e ++ s.readByteTrace n) .released hq hb hr h24 (by omega)
      refine Eq.trans (Op.bind_error _ hi) ?_
      rw [hbytes, htr, show f - n = busCount (s.readByteTrace n) + (f - (n + 24)) by
        rw [busCount_readByteTrace]; omega, failAt_append_right, ← List.append_assoc]
      rfl
    · rw [Op.bind_error _ (hv.error hn (by rw [busCount_readByteTrace]; omega) e l), htr,
        failAt_append_left _ _ _ _ (by rw [busCount_readByteTrace]; omega),
        show (f - n) / 24 = 0 by omega]
      rfl

/-- Event `f` ends a transaction: `PRESENCE` is written if the bus reset was complete, and the bytes read
before it stand in `BUF` (43_select_transactions.md R203, R205). -/
theorem transaction_error {s : State} {f : Nat} {code : Byte} (hq : Quiet s) (hb : BusOk s f)
    (hr : s.replyAt f = .err code) {k r : Nat} {a : Addr} {payload : Op Unit} {pt : List BusEvent}
    (hk : PollsBefore s k f)
    (hp : ∀ u : State, Quiet u → BusOk u f → u.replyAt f = .err code → u.parasite = s.parasite →
      ∀ n, Acts u f code payload n pt ())
    (hf : f < s.resetEvents k + 153 + busCount pt + 24 * r) :
    (transaction a payload r).run s = .error (.raised (.portError code))
      (({ s with
          presence := if s.resetEvents k ≤ f then s.presenceSeen k else s.presence
          buf := storeBytes (s.bytesRead (s.resetEvents k + 153 + busCount pt)
            ((f - (s.resetEvents k + 153 + busCount pt)) / 24)) 0 s.buf }).lost f
        (failAt code f (s.resetTrace k ++ selectTrace a s.parasite ++ pt
          ++ s.readBytesTrace (s.resetEvents k + 153 + busCount pt) r))) := by
  unfold transaction
  by_cases h1 : s.resetEvents k ≤ f
  · have hsel : Acts { s with presence := s.presenceSeen k } f code (selectDevice a) (s.resetEvents k)
        (selectTrace a s.parasite) () :=
      selectDevice_acts (s := { s with presence := s.presenceSeen k }) hq hb hr a _
    have hpay := hp { s with presence := s.presenceSeen k } hq hb hr rfl (s.resetEvents k + 153)
    rw [Op.bind_ok _ (busReset_before hq hb hk h1), if_pos h1]
    have hR := busCount_resetTrace s k
    have hS := busCount_selectTrace a s.parasite
    by_cases h2 : s.resetEvents k + 153 + busCount pt ≤ f
    · have h3 := hsel.ok (by omega) (s.resetTrace k) .released
      rw [hS] at h3
      rw [Op.bind_ok _ h3, Op.bind_ok _ (hpay.ok h2 _ _),
        readIntoBuf_error (code := code) r { s with presence := s.presenceSeen k } 0 _ _ _ hq hb hr h2
          hf, failAt_append_ge (f := f) _ _ (by simp only [busCount_append]; omega)]
      simp only [busCount_append, hR, hS]
      rfl
    · rw [failAt_append_left _ _ _ _ (by simp only [busCount_append]; omega),
        show f - (s.resetEvents k + 153 + busCount pt) = 0 by omega, Nat.zero_div]
      have hends : Ends { s with presence := s.presenceSeen k } f code (do
          selectDevice a
          payload
          readIntoBuf r 0) (s.resetEvents k) (selectTrace a s.parasite ++ pt) :=
        hsel.bindEnds ((hS.symm ▸ hpay).ends.bind _)
      rw [hends h1 (by rw [busCount_append]; omega), List.append_assoc,
        failAt_append_ge (a := s.resetTrace k) _ _ (by omega), hR]
      rfl
  · rw [Op.bind_error _ (busReset_error hq hb hr hk (by omega)), if_neg h1, List.append_assoc,
      List.append_assoc, failAt_append_left _ _ _ _ (by rw [busCount_resetTrace]; omega),
      show f - (s.resetEvents k + 153 + busCount pt) = 0 by omega, Nat.zero_div]
    rfl

/-! ### The walk of a search -/

/-- Where the walk is cut: after `b` whole bits, inside bit `b`. -/
theorem failAt_bits (code : Byte) (g : Nat → List BusEvent) (hg : ∀ j, busCount (g j) = 8)
    {i b o r : Nat} (hb : b < r) (ho : o < 8) :
    failAt code (8 * b + o) ((List.range' i r).flatMap g)
      = (List.range' i b).flatMap g ++ failAt code o (g (i + b)) := by
  obtain ⟨c, rfl⟩ : ∃ c, r = b + (c + 1) := ⟨r - b - 1, by omega⟩
  have hs := List.range'_append (s := i) (m := b) (n := c + 1) (step := 1)
  rw [Nat.one_mul] at hs
  rw [← hs, List.flatMap_append, List.range'_succ, List.flatMap_cons]
  have hc : busCount ((List.range' i b).flatMap g) = 8 * b := by
    rw [busCount_flatMap g 8 hg, List.length_range']
  rw [failAt_append_ge _ _ (by omega), hc, Nat.add_sub_cancel_left,
    failAt_append_left _ _ _ _ (by rw [hg]; exact ho)]

section
variable {s : State} {f : Nat} {code : Byte}
  (hq : Quiet s) (hb : BusOk s f) (hr : s.replyAt f = .err code)
include hq hb hr

/-- The pair of bit `i`, and what follows it. -/
theorem pair_ends {e i : Nat} {α : Type} (g : Bool → Bool → Op α) (tr : List BusEvent)
    (hg : e + 8 * i + 6 ≤ f → Ends s f code (g (s.trueBit e i) (s.compBit e i)) (e + 8 * i + 6) tr) :
    Ends s f code (readSlot >>= fun t => readSlot >>= g t) (e + 8 * i)
      (readSlotTrace (s.trueBit e i) ++ (readSlotTrace (s.compBit e i) ++ tr)) :=
  (readSlot_acts hq hb hr _).bindEnds ((readSlot_acts hq hb hr _).bindEnds fun hn => hg hn hn)

/-- Event `f` ends the replay: nothing is written (41_device_search.md R155, R160). -/
theorem replay_error (e r : Nat) (ev : List BusEvent) (l : Line) (h1 : e ≤ f) (h2 : f < e + 8 * r)
    (hans : ∀ j < r, e + 8 * j + 6 ≤ f → s.answered e j = true) :
    (replay r 0).run (s.ran e ev l) = .error (.raised (.portError code))
      (s.lost f (ev ++ failAt code (f - e)
        ((List.range' 0 r).flatMap fun j => s.bitTrace e j (s.saddr.getLsbD j)))) := by
  obtain ⟨b, o, hbo, ho⟩ : ∃ b o, f - e = 8 * b + o ∧ o < 8 :=
    ⟨(f - e) / 8, (f - e) % 8, by omega, by omega⟩
  obtain ⟨c, rfl⟩ : ∃ c, r = b + (c + 1) := ⟨r - b - 1, by omega⟩
  have hpre := replay_prefix hq hb e (c + 1) b 0 ev l (fun j _ hj => hans j (by omega) (by omega))
    (by omega)
  have hbit : Ends s f code (replay (c + 1) b) (e + 8 * b) (s.bitTrace e b (s.saddr.getLsbD b)) := by
    unfold State.bitTrace replay
    rw [List.append_assoc]
    refine pair_ends hq hb hr (e := e) (i := b) _ _ fun h6 => ?_
    have ha : (s.trueBit e b && s.compBit e b) = false := by
      simpa only [State.answered, Bool.not_eq_true'] using hans b (by omega) h6
    rw [if_neg (by simp [ha])]
    intro hn hf ev l
    rw [Op.bind_ok _ (EStateM.run_get _)]
    exact ((writeSlot_acts hq hb hr _ _).ends.bind _) hn hf ev l
  rw [Nat.zero_add] at hpre
  refine Eq.trans hpre ?_
  rw [hbit (by omega) (by show f < e + 8 * b + 8; omega), hbo,
    failAt_bits code _ (fun _ => rfl) (by omega) ho, Nat.zero_add,
    show f - (e + 8 * b) = o by omega, List.append_assoc]

/-- Event `f` ends the discovery: the bits decided before it are written, also the one whose write slot
fails (41_device_search.md R157, R160). -/
theorem discover_error (ld : Option Nat) (e r i : Nat) (a d : Addr) (ev : List BusEvent) (l : Line)
    (h1 : e + 8 * i ≤ f) (h2 : f < e + 8 * (i + r)) (h64 : i + r ≤ 64)
    (hans : ∀ j, i ≤ j → j < i + r → ld ≠ some j → e + 8 * j + 6 ≤ f → s.answered e j = true) :
    ∃ a' d' : Addr,
      (discover ld r i false).run ((s.withWalk a d).ran (e + 8 * i) ev l)
        = .error (.raised (.portError code)) ((s.withWalk a' d').lost f (ev ++
            failAt code (f - (e + 8 * i))
              ((List.range' i r).flatMap fun j => s.bitTrace e j (s.dirBit ld e j)))) ∧
      (∀ j < 64, a'.getLsbD j
        = if i ≤ j ∧ e + 8 * j + 6 ≤ f then s.dirBit ld e j else a.getLsbD j) ∧
      (∀ j < 64, d'.getLsbD j
        = if i ≤ j ∧ e + 8 * j + 6 ≤ f then
            (if ld = some j then false else s.forkBit ld e j || d.getLsbD j)
          else d.getLsbD j) := by
  obtain ⟨b, o, hbo, ho⟩ : ∃ b o, f - (e + 8 * i) = 8 * b + o ∧ o < 8 :=
    ⟨(f - (e + 8 * i)) / 8, (f - (e + 8 * i)) % 8, by omega, by omega⟩
  obtain ⟨c, rfl⟩ : ∃ c, r = b + (c + 1) := ⟨r - b - 1, by omega⟩
  obtain ⟨new, a1, d1, hpre, ha1, hd1, -⟩ := discover_prefix hq hb ld e (c + 1) b i false a d ev l
    (fun j h3 h4 h5 => hans j h3 (by omega) h5 (by omega)) (by simp) (by omega) (by omega)
  have hcut : ∀ (u : State), (discover ld (c + 1) (i + b) new).run
        ((s.withWalk a1 d1).ran (e + 8 * (i + b))
          (ev ++ (List.range' i b).flatMap fun j => s.bitTrace e j (s.dirBit ld e j))
          (if b = 0 then l else .released))
      = .error (.raised (.portError code)) (u.lost f
          (ev ++ ((List.range' i b).flatMap fun j => s.bitTrace e j (s.dirBit ld e j))
            ++ failAt code o (s.bitTrace e (i + b) (s.dirBit ld e (i + b))))) →
      (discover ld (b + (c + 1)) i false).run ((s.withWalk a d).ran (e + 8 * i) ev l)
        = .error (.raised (.portError code)) (u.lost f (ev ++
            failAt code (f - (e + 8 * i)) ((List.range' i (b + (c + 1))).flatMap fun j =>
              s.bitTrace e j (s.dirBit ld e j)))) := by
    intro u hu
    refine Eq.trans hpre (Eq.trans hu ?_)
    rw [hbo, failAt_bits code _ (fun _ => rfl) (by omega) ho, List.append_assoc]
  have hfo : f - (e + 8 * (i + b)) = o := by omega
  have hW : ∀ (a d : Addr), Quiet (s.withWalk a d) ∧ BusOk (s.withWalk a d) f ∧
      (s.withWalk a d).replyAt f = .err code := fun _ _ => ⟨hq, hb, hr⟩
  by_cases h6 : o < 6
  · -- the pair of bit `i + b` is not complete: nothing of this bit is written
    refine ⟨a1, d1, hcut _ ?_, ?_, ?_⟩
    · obtain ⟨q1, q2, q3⟩ := hW a1 d1
      unfold discover
      have hE := pair_ends (s := s.withWalk a1 d1) q1 q2 q3 (e := e) (i := i + b)
        (fun t c' => if ld = some (i + b) then do
            decideBit (i + b) (some false) true
            discover ld c (i + b + 1) new
          else if (t && c') = true then pure none
          else if (!t && !c') = true then do
            decideBit (i + b) (some true) false
            discover ld c (i + b + 1) true
          else do
            decideBit (i + b) none t
            discover ld c (i + b + 1) new)
        (writeSlotTrace (s.dirBit ld e (i + b))) (fun h => absurd h (by omega))
      refine Eq.trans (hE (by omega) (by show f < e + 8 * (i + b) + 8; omega) _ _) ?_
      rw [hfo]
      simp only [State.bitTrace, List.append_assoc]
      rfl
    · intro j hj
      rw [ha1 j hj]
      exact if_congr (by omega) rfl rfl
    · intro j hj
      rw [hd1 j hj]
      exact if_congr (by omega) rfl rfl
  · -- the pair is complete: the bit is decided, and its write slot fails
    have hans' : ld ≠ some (i + b) → (s.trueBit e (i + b) && s.compBit e (i + b)) = false := fun h => by
      simpa only [State.answered, Bool.not_eq_true'] using
        hans (i + b) (by omega) (by omega) h (by omega)
    have hdec : ∀ (disc : Option Bool) {α : Type} (g : Unit → Op α) (ev : List BusEvent),
        (decideBit (i + b) disc (s.dirBit ld e (i + b)) >>= g).run
          ((s.withWalk a1 d1).ran (e + 8 * (i + b) + 6) ev .released)
        = .error (.raised (.portError code)) ((s.withWalk (setBit a1 (i + b) (s.dirBit ld e (i + b)))
            (match disc with
              | some x => setBit d1 (i + b) x
              | none => d1)).lost f
            (ev ++ failAt code (o - 6) (writeSlotTrace (s.dirBit ld e (i + b))))) := by
      intro disc α g ev
      refine Op.bind_error _ ?_
      unfold decideBit
      rw [Op.bind_ok _ (EStateM.run_modify _ _)]
      obtain ⟨q1, q2, q3⟩ := hW (setBit a1 (i + b) (s.dirBit ld e (i + b))) (match disc with
              | some x => setBit d1 (i + b) x
              | none => d1)
      have hE := (writeSlot_acts q1 q2 q3 (s.dirBit ld e (i + b)) (e + 8 * (i + b) + 6)).ends
        (by omega) (by show f < _ + 2; omega) ev .released
      rw [show f - (e + 8 * (i + b) + 6) = o - 6 by omega] at hE
      exact hE
    have hbit : ∃ disc : Option Bool, (discover ld (c + 1) (i + b) new).run
        ((s.withWalk a1 d1).ran (e + 8 * (i + b))
          (ev ++ (List.range' i b).flatMap fun j => s.bitTrace e j (s.dirBit ld e j))
          (if b = 0 then l else .released))
      = .error (.raised (.portError code))
          ((s.withWalk (setBit a1 (i + b) (s.dirBit ld e (i + b)))
            (match disc with
              | some x => setBit d1 (i + b) x
              | none => d1)).lost f
          (ev ++ ((List.range' i b).flatMap fun j => s.bitTrace e j (s.dirBit ld e j))
            ++ failAt code o (s.bitTrace e (i + b) (s.dirBit ld e (i + b))))) ∧
        disc.getD (d1.getLsbD (i + b))
          = (if ld = some (i + b) then false else s.forkBit ld e (i + b) || d1.getLsbD (i + b)) := by
      have htr : ∀ ev, ev ++ failAt code o (s.bitTrace e (i + b) (s.dirBit ld e (i + b)))
          = ev ++ readSlotTrace (s.trueBit e (i + b)) ++ readSlotTrace (s.compBit e (i + b))
            ++ failAt code (o - 6) (writeSlotTrace (s.dirBit ld e (i + b))) := by
        intro ev
        unfold State.bitTrace
        rw [failAt_append_ge _ _ (by show 6 ≤ o; omega)]
        simp
      have hp := pair_ran hq hb (e := e) (i := i + b) (n := e + 8 * (i + b))
        (ev := ev ++ (List.range' i b).flatMap fun j => s.bitTrace e j (s.dirBit ld e j))
        (l := if b = 0 then l else .released)
        (fun t c' => if ld = some (i + b) then do
            decideBit (i + b) (some false) true
            discover ld c (i + b + 1) new
          else if (t && c') = true then pure none
          else if (!t && !c') = true then do
            decideBit (i + b) (some true) false
            discover ld c (i + b + 1) true
          else do
            decideBit (i + b) none t
            discover ld c (i + b + 1) new) a1 d1 rfl (by omega)
      unfold discover
      by_cases hld : ld = some (i + b)
      · refine ⟨some false, Eq.trans hp ?_, by simp [hld]⟩
        have h := fun α g ev => hdec (some false) (α := α) g ev
        have hdir : s.dirBit ld e (i + b) = true := if_pos hld
        rw [htr]
        simp only [hdir] at h ⊢
        simp only [hld, if_true]
        exact h _ _ _
      · have hdir : s.dirBit ld e (i + b) = s.trueBit e (i + b) := if_neg hld
        have hans'' := hans' hld
        by_cases hf : (!s.trueBit e (i + b) && !s.compBit e (i + b)) = true
        · have ht : s.trueBit e (i + b) = false := by simp at hf; exact hf.1
          have hc : s.compBit e (i + b) = false := by simp at hf; exact hf.2
          refine ⟨some true, Eq.trans hp ?_, by simp [hld, State.forkBit, ht, hc]⟩
          have h := fun α g ev => hdec (some true) (α := α) g ev
          rw [htr]
          rw [hdir, ht] at h
          rw [hdir, ht, hc]
          simp only [hld, if_false, Bool.false_eq_true, Bool.and_self, Bool.not_false, if_true]
          exact h _ _ _
        · have hf' : (!s.trueBit e (i + b) && !s.compBit e (i + b)) = false := by simpa using hf
          refine ⟨none, Eq.trans hp ?_, by simp [hld, State.forkBit, hf']⟩
          have h := fun α g ev => hdec none (α := α) g ev
          rw [htr]
          rw [hdir] at h ⊢
          simp only [hld, if_false, hans'', Bool.false_eq_true, hf']
          exact h _ _ _
    obtain ⟨disc, hrun, hdisc⟩ := hbit
    refine ⟨_, _, hcut _ hrun, ?_, ?_⟩
    · intro j hj
      rw [getLsbD_setBit _ _ _ _ hj, ha1 j hj]
      by_cases h : j = i + b
      · subst h; rw [if_pos rfl, if_pos (by omega)]
      · rw [if_neg h]; exact if_congr (by omega) rfl rfl
    · intro j hj
      have hset : (match disc with
          | some x => setBit d1 (i + b) x
          | none => d1).getLsbD j
          = if j = i + b then disc.getD (d1.getLsbD (i + b)) else d1.getLsbD j := by
        cases disc with
        | none => by_cases h : j = i + b <;> simp [h]
        | some x => exact getLsbD_setBit d1 (i + b) j x hj
      rw [hset, hdisc, hd1 (i + b) (by omega), hd1 j hj]
      by_cases h : j = i + b
      · subst h
        rw [if_pos rfl, if_neg (show ¬(i ≤ i + b ∧ i + b < i + b) by omega),
          if_pos (show i ≤ i + b ∧ e + 8 * (i + b) + 6 ≤ f by omega)]
      · rw [if_neg h]; exact if_congr (by omega) rfl rfl

end

end Sys2Proof.Machine
end

