-- ==== Sys2Proof/Tests/Slice0.lean ====
section
/-!
SUPPORT. Tests of the model against 95_test_vectors.md (each test names its vector), and for each statement
with hypotheses a concrete state that meets them all.
-/

namespace Sys2Proof.Tests

open Sys2Proof.Machine

/-! ## Ill-formed instructions are refused -/

theorem test_wf_reserved1213 : Instr.wf (.reserved1213 0x11) = false ∧
    Instr.wf (.reserved1213 0x14) = false ∧ Instr.wf (.reserved1213 0x13) = true := by decide

theorem test_wf_reserved1417 : Instr.wf (.reserved1417 0x13) = false ∧
    Instr.wf (.reserved1417 0x18) = false ∧ Instr.wf (.reserved1417 0x17) = true := by decide

theorem test_wf_reserved181F : Instr.wf (.reserved181F 0x17) = false ∧
    Instr.wf (.reserved181F 0x1F) = true := by decide

/-! ## Words written out from the spec's encodings (V-E, 30_encoding.md R81, R85, R91) -/

/-- V-E1 to V-E6, V-E19. -/
theorem test_decode_transport :
    decode (wordBytes 0x00000000#32) = .ok .nop ∧
    decode (wordBytes 0x00000001#32) = .ok .owReset ∧
    decode (wordBytes 0x00000002#32) = .ok .owReadBit ∧
    decode (wordBytes 0x00000003#32) = .ok (.owWriteBit false) ∧
    decode (wordBytes 0x00000203#32) = .ok (.owWriteBit true) ∧
    decode (wordBytes 0x00000223#32) = .ok (.owWriteBit true) ∧
    decode (wordBytes 0x00000004#32) = .ok .owReadByte ∧
    decode (wordBytes 0x00000005#32) = .ok (.owWriteByte false) ∧
    decode (wordBytes 0x00000105#32) = .ok (.owWriteByte true) := by decide

/-- V-E7 to V-E13. -/
theorem test_decode_search_crc_select :
    decode (wordBytes 0x00000006#32) = .ok .owSelect ∧
    decode (wordBytes 0x00000007#32) = .ok .searchInit ∧
    decode (wordBytes 0x00000008#32) = .ok .searchNext ∧
    decode (wordBytes 0x00000009#32) = .ok .searchAlarm ∧
    decode (wordBytes 0x0000000A#32) = .ok .crcCheckRom ∧
    decode (wordBytes 0x0009000B#32) = .ok (.crc8Compute false 9) ∧
    decode (wordBytes 0x0008080B#32) = .ok (.crc8Compute true 8) ∧
    decode (wordBytes 0x0011000C#32) = .ok (.rsWrite 17) ∧
    decode (wordBytes 0x0002000D#32) = .ok (.rsRead 2) := by decide

/-- V-E14 to V-E18, V-E20. -/
theorem test_decode_ds_reserved :
    decode (wordBytes 0x0000000E#32) = .ok (.dsBind false) ∧
    decode (wordBytes 0x0000040E#32) = .ok (.dsBind true) ∧
    decode (wordBytes 0x0011000F#32) = .ok .dsStart ∧
    decode (wordBytes 0x00000010#32) = .ok .dsRead ∧
    decode (wordBytes 0x00000011#32) = .ok .splitTemp ∧
    decode (wordBytes 0x00000032#32) = .ok (.reserved1213 0x12) ∧
    decode (wordBytes 0x00000015#32) = .ok (.reserved1417 0x15) ∧
    decode (wordBytes 0x0000001F#32) = .ok (.reserved181F 0x1F) ∧
    decode (wordBytes 0xFFE0F0E0#32) = .ok .nop := by decide

/-- R91, and what is no instruction. -/
theorem test_decode_wire :
    decode [0xF0#8] = .ok .wireSearchRom ∧ decode [0xEC#8] = .ok .wireAlarmSearch ∧
    decode [0x55#8] = .ok .wireSelectRom ∧ decode [0x44#8] = .ok .wireConvertT ∧
    decode [0xBE#8] = .ok .wireReadScratchpad ∧
    decode [0xCC#8] = .error (.notAWireCommand 0xCC) ∧
    decode [] = .error (.badLength 0) ∧ decode [0x00#8, 0x00#8] = .error (.badLength 2) := by decide

/-- V-E4, V-E6, V-E11, V-E12, V-E14: the encoder writes the same words. -/
theorem test_encode :
    encodeWord (.owWriteBit true) = 0x203#32 ∧ encodeWord (.owWriteByte true) = 0x105#32 ∧
    encodeWord (.crc8Compute true 9) = 0x0009080B#32 ∧ encodeWord (.rsWrite 16) = 0x0010000C#32 ∧
    encodeWord (.dsBind true) = 0x40E#32 ∧ encode .wireConvertT = [0x44#8] := by decide

/-! ## Small states -/

/-- The reset state with these bus replies to come. -/
def on (bus : List BusReply) : State := { State.reset with world := { World.empty with bus := bus } }

/-- `n` events that complete, the line high. -/
def high (n : Nat) : List BusReply := List.replicate n (.ok true)

/-- `n` events that complete, the line low. -/
def low (n : Nat) : List BusReply := List.replicate n (.ok false)

/-- A read slot that samples `v`. -/
def slot (v : Bool) : List BusReply := high 2 ++ [.ok v]

/-- A byte read that returns `b`. -/
def byteSlots (b : Byte) : List BusReply := (List.range 8).flatMap fun i => slot (b.getLsbD i)

/-- A bus reset of a released line, with these presence samples. -/
def resets (samples : List Bool) : List BusReply := high 3 ++ samples.map .ok

/-- A bus reset with a presence pulse on the first sample (V-R6). -/
def present : List BusReply := resets [false, true, true, true, true, true, true]

/-- The pairs that devices `D` answer along the address `path`, and the direction slots
(41_device_search.md R163). -/
def walkReplies (D : List Addr) (path : Addr) (bits : Nat) : List BusReply :=
  (List.range bits).flatMap fun i =>
    let here := D.filter fun d => (List.range i).all fun j => d.getLsbD j == path.getLsbD j
    slot (here.all (·.getLsbD i)) ++ slot (here.all fun d => !d.getLsbD i) ++ high 2

/-- The state after one step. -/
def stepped (s : State) : State :=
  match step s with
  | .next t => t
  | .fault _ | .refused _ => State.reset

/-- The state after a command word is written to `CMD`. -/
def after (w : Word) (s : State) : State :=
  stepped { s with world := { s.world with inbox := [commandArrival w] } }

/-- The state after a wire command is sent. -/
def sent (b : Byte) (s : State) : State := stepped { s with wireCmd := some b }

/-- The state a piece of a command leaves. -/
def leftBy (x : Op Unit) (s : State) : State :=
  match x.run s with
  | .ok () t => t
  | .error _ t => t

/-- How many bus events a state has seen. -/
def events (s : State) : Nat := busCount s.world.trace

/-- The bits of the write slots, in time order. -/
def writtenBits (s : State) : List Bool :=
  s.world.trace.reverse.filterMap fun e =>
    match e with
    | .delay .tW1l => some true
    | .delay .tW0l => some false
    | _ => none

/-- Addresses of 95_test_vectors.md section 0. -/
def d1 : Addr := 0x0CFFEEDDCCBBAA28
def addrA : Addr := 0x2900000000000128
def addrB : Addr := 0x7000000000000228
def addrC : Addr := 0xA200000000000310
def romX : Addr := 0xA200000001B81C02

/-- The scratchpads SP85 and SP25, byte 0 lowest. -/
def sp85 : Buffer := 0x1C100CFF7F464B0550
def sp25 : Buffer := 0x25100FFF7F464B0191

/-- Bound to D1. -/
def bound (s : State) : State := { s with sensor := d1, sensorValid := true }

/-! ## Control and transport -/

/-- V-A5. -/
theorem test_nop : let t := after 0x0 { State.reset with err := .crcMismatch, errInfo := 0xA3A2 }
    statusWord t = 0 ∧ t.errInfo = 0xA3A2 := by decide +kernel

/-- V-A6. -/
theorem test_reserved : let t := after 0x12 { State.reset with sensorValid := true }
    statusWord t = 0x608 ∧ t.errInfo = 0 ∧ events t = 0 := by decide +kernel

/-- R134 example: presence samples 1,1,0,0,1,1,1. -/
theorem test_owReset_presence :
    let t := after 0x1 (on (resets [true, true, false, false, true, true, true]))
    statusWord t = 0x2 ∧ events t = 10 := by decide +kernel

/-- V-R3. -/
theorem test_owReset_stuck_low : let t := after 0x1 (on (low 125))
    statusWord t = 0x100 ∧ t.errInfo = 0 ∧ events t = 125 := by decide +kernel

/-- V-T1. -/
theorem test_owReadBit : let t := after 0x2 (on (slot false))
    t.data = 0 ∧ statusWord t = 0 ∧ t.world.trace.reverse =
      [.driveLow, .delay .tRl, .release, .delay .tRs, .sample false, .delay .tRpad] := by
  decide +kernel

/-- V-T9. -/
theorem test_owReadBit_ends_hold : let t := after 0x2 { on (slot true) with line := .hold }
    t.data = 1 ∧ statusWord t = 0 := by decide +kernel

/-- V-T3. -/
theorem test_owWriteBit : let t := after 0x203 (on (high 2))
    t.line = .released ∧ t.world.trace.reverse =
      [.driveLow, .delay .tW1l, .release, .delay .tW1h] := by decide +kernel

/-- V-T5. -/
theorem test_owReadByte : let t := after 0x4 (on (byteSlots 0x14))
    t.data = 0x14 ∧ events t = 24 := by decide +kernel

/-- V-T12: the sample of slot 5 fails. -/
theorem test_owReadByte_port_error :
    let t := after 0x4 { on (high 14 ++ [.err 0x21]) with data := 0x77 }
    t.err = .portError ∧ t.errInfo = 0x21 ∧ t.data = 0x77 := by decide +kernel

/-- V-T8. -/
theorem test_owWriteByte_hold : let t := after 0x105 { on (high 17) with data := 0x1CC }
    statusWord t = 0x80000 ∧ events t = 17 ∧
      writtenBits t = [false, false, true, true, false, false, true, true] := by decide +kernel

/-- V-T11: event 3 fails. -/
theorem test_owWriteByte_port_error :
    let t := after 0x5 { on (high 2 ++ [.err 0x33]) with data := 0xCC }
    t.err = .portError ∧ t.errInfo = 0x33 ∧ events t = 3 ∧ writtenBits t = [false] := by
  decide +kernel

/-! ## Select and transactions -/

/-- V-X1, V-X2: the bytes 55 28 aa … 0c. -/
theorem test_owSelect : let t := after 0x6 { on (high 153) with rom := d1, parasite := true }
    statusWord t = 0x80000 ∧ events t = 153 ∧
      byteOfBits ((writtenBits t).take 8) = 0x55 ∧
      byteOfBits (((writtenBits t).drop 8).take 8) = 0x28 ∧
      byteOfBits ((writtenBits t).drop 64) = 0x0C := by decide +kernel

/-- V-X4. -/
theorem test_rsWrite :
    let t := after 0x4000C
      { on (present ++ high 221) with rom := d1, buf := 0x0302014E, parasite := true }
    statusWord t = 0x80002 ∧ events t = 231 ∧ byteOfBits (((writtenBits t).drop 72).take 8) = 0x4E ∧
      byteOfBits ((writtenBits t).drop 96) = 0x03 := by decide +kernel

/-- V-X8. -/
theorem test_rsRead_long : let t := after 0x11000D State.reset
    t.err = .badCommand ∧ events t = 0 := by decide +kernel

/-- V-X6. -/
theorem test_rsRead_no_device : let t := after 0x2000D (on (high 211))
    statusWord t = 0 ∧ t.buf = 0xFFFF ∧ events t = 211 := by decide +kernel

/-! ## Search -/

/-- V-S5. -/
theorem test_searchInit :
    let t := after 0x7 { State.reset with
      presence := true, crcOk := true, srchResult := .noneEnd, sphase := .ended, saddr := addrA }
    statusWord t = 0x6 ∧ t.saddr = 0 ∧ t.sdisc = 0 := by decide +kernel

/-- V-S1. -/
theorem test_searchNext_one_device :
    let t := after 0x8 (on (present ++ high 17 ++ walkReplies [d1] d1 64))
    statusWord t = 0x21006 ∧ t.found = d1 ∧ t.sdisc = 0 ∧ regWord t .crc = 0x0C0C ∧
      events t = 539 := by decide +kernel

/-- V-S7, call 2: the abort after the resumed branch keeps the partial walk. -/
theorem test_searchNext_abort :
    let t := after 0x8 { on (present ++ high 17 ++ walkReplies [addrA, addrB] addrA 9
        ++ slot true ++ slot true) with
      saddr := addrB, sdisc := 0x100, sphase := .deviceFound, srchResult := .found
      found := addrB, crcOk := true }
    statusWord t = 0x14006 ∧ t.saddr = 0x7000000000000328 ∧ t.sdisc = 0 ∧ t.found = addrB := by
  decide +kernel

/-- V-S2, call 2: devices A, B and C after C. -/
theorem test_searchAlarm_resumes :
    let t := after 0x9 { on (present ++ high 17 ++ walkReplies [addrA, addrB, addrC] addrB 64) with
      saddr := addrC, sdisc := 0x8, sphase := .deviceFound }
    statusWord t = 0x11006 ∧ t.found = addrB ∧ t.sdisc = 0x100 ∧
      (writtenBits t).take 8 = [false, false, true, true, false, true, true, true] := by
  decide +kernel

/-- V-S11: no device in alarm. -/
theorem test_searchAlarm_no_response :
    let t := after 0x9 (on (present ++ high 23))
    statusWord t = 0x4002 ∧ events t = 33 := by decide +kernel

/-! ## CRC-8 -/

/-- V-C1. -/
theorem test_crc8_values :
    crc8z [0x31, 0x32, 0x33, 0x34, 0x35, 0x36, 0x37, 0x38, 0x39] = 0xA1 ∧ crc8z [] = 0 ∧
    crc8z [0x01] = 0x5E ∧ crc8z [0x80] = 0x8C ∧ crc8z [0xFF] = 0x35 ∧
    crc8z (List.replicate 8 0xFF) = 0xC9 ∧ addrCrc d1 = 0x0C ∧ addrCrc addrB = 0x70 ∧
    crc8z (firstBytes sp25 8) = 0x25 := by decide +kernel

/-- V-C3. -/
theorem test_crcCheckRom : let t := after 0xA { State.reset with rom := romX }
    statusWord t = 0x4 ∧ regWord t .crc = 0xA2A2 := by decide +kernel

/-- V-C3, byte 7 wrong. -/
theorem test_crcCheckRom_mismatch :
    let t := after 0xA { State.reset with rom := 0xA300000001B81C02 }
    statusWord t = 0x200 ∧ regWord t .crc = 0xA3A2 ∧ t.errInfo = 0xA3A2 := by decide +kernel

/-- V-C4. -/
theorem test_crc8Compute : let t := after 0x0008080B { State.reset with rom := d1, buf := sp85 }
    statusWord t = 0 ∧ regWord t .crc = 0x1C := by decide +kernel

/-! ## DS18B20 -/

/-- V-D1. -/
theorem test_dsBind : let t := after 0xE { State.reset with rom := d1 }
    statusWord t = 0x8 ∧ regWord t .sensorLo = 0xCCBBAA28 ∧ regWord t .sensorCfg = 3 := by
  decide +kernel

/-- V-D2. -/
theorem test_dsBind_family : let t := after 0xE { State.reset with rom := romX }
    statusWord t = 0x300 ∧ t.errInfo = 0x0228 := by decide +kernel

/-- V-D4, RES 1. -/
theorem test_dsStart_wait :
    let t := after 0xF { bound (on (present ++ high 170)) with sensorRes := 1 }
    t.waitMs = 188 ∧ statusWord t = 0xA ∧ events t = 180 := by decide +kernel

/-- V-E20: `LEN` does not matter. -/
theorem test_dsStart_no_sensor : let t := after 0x0011000F State.reset
    statusWord t = 0x500 ∧ events t = 0 := by decide +kernel

/-- V-D9, first row. -/
theorem test_dsRead :
    let t := after 0x10 (bound (on (present ++ high 170
      ++ (firstBytes sp25 9).flatMap byteSlots)))
    statusWord t = 0xE ∧ t.tempRaw = 0x0191 ∧ t.tempSplit = 0x02710019 ∧ t.buf = sp25 ∧
      events t = 396 := by decide +kernel

/-- V-D6: no device. -/
theorem test_dsRead_no_device : let t := after 0x10 (bound (on (high 396)))
    statusWord t = 0x208 ∧ t.errInfo = 0xFFC9 ∧ regWord t .crc = 0xFFC9 := by decide +kernel

/-- V-P1. -/
theorem test_splitTemp : (after 0x11 { State.reset with data := 0x1234FE6F }).tempSplit = 0xFD8FFFE7 ∧
    (after 0x11 { State.reset with data := 0x8000 }).tempSplit = 0x0000F800 ∧
    (after 0x11 { State.reset with data := 0xFFF8 }).tempSplit = 0xEC780000 := by decide +kernel

/-! ## Wire commands -/

/-- V-E: the slots of 0xEC in time order. -/
theorem test_wireAlarmSearch :
    writtenBits (sent 0xEC (on (high 17))) = [false, false, true, true, false, true, true, true] := by
  decide +kernel

/-- V-E: the slots of 0xBE, held for parasite power (43_select_transactions.md R203). -/
theorem test_wireReadScratchpad : let t := sent 0xBE { on (high 17) with parasite := true }
    writtenBits t = [false, true, true, true, true, true, false, true] ∧ t.line = .hold := by
  decide +kernel

/-! ## Host accesses and reset -/

/-- V-A1, V-A4: a `CMD` write lands in a command; another word to `STATUS` clears nothing. -/
theorem test_write_while_busy :
    let t := stepped { State.reset with world := { World.empty with
      bus := slot false
      inbox := [commandArrival 0x2, ⟨.after 1, .access (.write 0x04 0xF 0x1)⟩,
        ⟨.after 0, .access (.write 0x08 0xF 0xFFFFFFEF)⟩] } }
    statusWord t = 0x10 ∧ events t = 3 ∧ t.world.inbox = [] := by decide +kernel

/-- A `STATUS` read in the clock of a completion that raises (60_exceptions.md R260, 20_memory.md R67):
`BUSY = 1` with the new `CRC_OK`, the error not yet recorded; after it V-C3, byte 7 wrong. -/
theorem test_read_before_raise :
    let t := stepped { State.reset with
      rom := 0xA300000001B81C02, crcOk := true
      world := { World.empty with
        inbox := [commandArrival 0xA, ⟨.after 1, .access (.read 0x08 0xF)⟩] } }
    t.world.replies = [⟨0x08, 0xF, 0x1⟩] ∧ statusWord t = 0x200 ∧ t.world.inbox = [] := by
  decide +kernel

/-- A `STATUS` read between steps S7 and S8 of a search (41_device_search.md R152): `SPHASE` is written,
`SRCH_RESULT` and `CRC_OK` are not. -/
theorem test_read_inside_found :
    let t := leftBy (foundDevice false) { State.reset with
      busy := true, saddr := d1, seq := .busy 0x8 539
      world := { World.empty with inbox := [⟨.after 0, .access (.read 0x08 0xF)⟩] } }
    t.world.replies = [⟨0x08, 0xF, 0x20001⟩] ∧ statusWord t = 0x21005 := by decide +kernel

/-- A `STATUS` read after a bus reset without presence wrote `PRESENCE` and before step S2 writes
`SRCH_RESULT` (41_device_search.md R152, 20_memory.md R67): of the 23 moments of the call the last but one. -/
theorem test_read_inside_no_presence :
    let t := stepped { on (high 10) with
      presence := true
      world := { World.empty with
        bus := high 10
        inbox := [commandArrival 0x8, ⟨.after 21, .access (.read 0x08 0xF)⟩] } }
    t.world.replies = [⟨0x08, 0xF, 0x1⟩] ∧ statusWord t = 0x3000 ∧ t.world.inbox = [] := by
  decide +kernel

/-- A narrower read (20_memory.md R68): byte lanes 1 and 2 of `DATA`. -/
theorem test_narrow_read :
    (hostAccess (.read 0x14 0x6) { State.reset with data := 0x44332211 }).world.replies
      = [⟨0x14, 0x6, 0x00332200⟩] := by decide +kernel

/-- V-A9, V-A10, V-A11. -/
theorem test_window :
    (hostAccess (.read 0x04 0xF) State.reset).world.replies = [⟨0x04, 0xF, 0⟩] ∧
    (hostAccess (.read 0x7C 0xF) State.reset).world.replies = [⟨0x7C, 0xF, 0⟩] ∧
    hostAccess (.write 0x00 0x1 0x1) State.reset = State.reset ∧
    regAt 0x4C = some .tempSplit ∧ regAt 0x5F = some .buf3 ∧ regAt 0x60 = none := by decide +kernel

/-- V-I1. -/
theorem test_reset_values : regWord State.reset .ctrl = 6 ∧ regWord State.reset .status = 0 ∧
    regWord State.reset .sensorCfg = 3 ∧ regWord State.reset .tempSplit = 0 := by decide

/-- V-I2: `RST` lands in a search. -/
theorem test_rst_in_search :
    let t := stepped { State.reset with world := { World.empty with
      bus := present ++ high 600
      inbox := [commandArrival 0x8, ⟨.after 30, .rst true⟩, ⟨.whenIdle, .rst false⟩] } }
    t.rst = true ∧ RegsReset t ∧ 0 < events t ∧ events t < 30 := by decide +kernel

/-! ## Witnesses: the hypotheses of each statement can be met, at the edges of its clauses -/

/-- The state after an instruction. -/
def ran (i : Instr) (s : State) : State :=
  match exec i s with
  | .next t => t
  | .fault _ | .refused _ => State.reset

/-- These events still to land. -/
def fed (inbox : List Arrival) (s : State) : State :=
  { s with world := { s.world with inbox := inbox } }

/-- Replies that are queued and all `OK`. -/
theorem busOk_of_all {s : State} {n : Nat} (h : s.world.bus.all BusReply.isOk = true)
    (hn : n ≤ s.world.bus.length) : BusOk s n := by
  intro k hk
  unfold State.replyAt
  rw [List.getElem?_eq_getElem (by omega)]
  exact List.all_eq_true.1 h _ (List.getElem_mem _)

/-- How two devices answer. -/
theorem devicesAnswer_pair {a b path : Addr} {s : State} {e : Nat}
    (h : ∀ i < 64,
      (s.trueBit e i = true ↔ (agreesBelow a path i → a.getLsbD i = true) ∧
        (agreesBelow b path i → b.getLsbD i = true)) ∧
      (s.compBit e i = true ↔ (agreesBelow a path i → a.getLsbD i = false) ∧
        (agreesBelow b path i → b.getLsbD i = false))) : DevicesAnswer [a, b] s e path :=
  fun i hi => ⟨(h i hi).1.trans (by simp), (h i hi).2.trans (by simp)⟩

/-- The forks of two devices left to visit. -/
theorem pendingExact_pair {a b path disc : Addr}
    (h : ∀ i < 64, disc.getLsbD i = true ↔ path.getLsbD i = false ∧
      ((agreesBelow a path i ∧ a.getLsbD i = true) ∨
        (agreesBelow b path i ∧ b.getLsbD i = true))) : PendingExact [a, b] path disc :=
  fun i hi => (h i hi).trans (by simp)

theorem witness_DecodeOfEncodeIsIdentity :
    Instr.wf (.crc8Compute true 31) = true ∧ Instr.wf (.reserved1213 0x12) = true ∧
      Instr.wf (.reserved181F 0x1F) = true ∧ Instr.wf .wireConvertT = true := by decide

theorem witness_ReservedBitsDoNotMatter :
    (0xFFE0F2E3#32) &&& 0x001F0F1F#32 = 0x00000203#32 &&& 0x001F0F1F#32 := by decide

theorem witness_StepRunsTheCommandWritten :
    let s := fed [⟨.whenIdle, .access (.write 0x07 0xF 0x105)⟩] State.reset
    s.wireCmd = none ∧ s.rst = false ∧ s.busy = false ∧
    s.world.inbox = ⟨.whenIdle, .access (.write 0x07 0xF 0x105)⟩ :: [] ∧
    regAt 0x07 = some .cmd ∧ decode (wordBytes 0x105) = .ok (.owWriteByte true) := by decide

theorem witness_StepRunsTheWireCommand :
    let s := { State.reset with wireCmd := some 0x44 }
    s.wireCmd = some 0x44 ∧ decode [0x44] = .ok .wireConvertT := by decide

/-- A level of `RST`, a read, and a write for each reason that it starts no command. -/
theorem witness_StepTakesTheNextEvent :
    State.reset.wireCmd = none ∧ State.reset.world.inbox = [] ∧
    (fed [⟨.after 0, .rst true⟩] State.reset).world.inbox = ⟨.after 0, .rst true⟩ :: [] ∧
    (fed [⟨.whenIdle, .access (.read 0x7F 0)⟩] State.reset).world.inbox
      = ⟨.whenIdle, .access (.read 0x7F 0)⟩ :: [] ∧
    (fed [⟨.whenIdle, .access (.write 0x04 0x7 1)⟩] State.reset).world.inbox
      = ⟨.whenIdle, .access (.write 0x04 0x7 1)⟩ :: [] ∧
    ({ State.reset with rst := true } : State).rst = true ∧
    ({ State.reset with busy := true } : State).busy = true ∧
    (0x7#4) ≠ 0xF ∧ regAt 0x00 ≠ some .cmd ∧ regAt 0x60 ≠ some .cmd := by decide

/-- A bound sensor, the end of an enumeration, and a command to run. -/
def wInv : State :=
  fed [commandArrival 0x8] { bound State.reset with
    err := .crcMismatch, errInfo := 0xA3A2, crcComputed := 0xA2, crcExpected := 0xA3
    sphase := .ended, saddr := addrA, found := addrA, srchResult := .found, waitMs := 750 }

theorem witness_StepKeepsInvariant : Inv wInv ∧ step wInv = .next (stepped wInv) :=
  ⟨⟨by decide, by decide, by decide, by decide, by decide, by decide, by decide, by decide, by decide,
    by decide⟩, rfl⟩

theorem witness_ResetAtAcceptanceAbandons :
    (fed [⟨.after 0, .rst true⟩] State.reset).world.inbox = ⟨.after 0, .rst true⟩ :: [] := rfl

theorem witness_ResetLandsAsReset :
    let s := fed [⟨.after 5, .rst true⟩] (on (high 17))
    s.rst = false ∧ exec (.owWriteByte true) s = .next (ran (.owWriteByte true) s) ∧
      (ran (.owWriteByte true) s).rst = true := ⟨rfl, rfl, by decide +kernel⟩

/-- The block held in reset. -/
theorem witness_ResetInputHoldsTheBlock : ({ State.reset with rst := true } : State).rst = true := rfl

/-- Each clause at an edge of its range of offsets; the lanes are free. -/
theorem witness_ReadsReturnTheRegister :
    State.reset.rst = false ∧ regAt 0x60 = none ∧ regAt 0x7F = none ∧
    (regAt 0x5F = some .buf3 ∧ State.reset.busy = false) ∧
    (regAt 0x0B = some .status ∧ ({ State.reset with busy := true } : State).busy = true) := by decide

/-- One register of each of the three outcomes. -/
theorem witness_WritesWhileBusyAreDropped :
    let s := { State.reset with busy := true }
    s.rst = false ∧ s.busy = true ∧ regAt 0x00 = some .ctrl ∧ regAt 0x5C = some .buf3 ∧
      regAt 0x08 = some .status ∧ regAt 0x4C = some .tempSplit := by decide

theorem witness_PartialAndReservedWritesAreIgnored :
    (0x7#4) ≠ 0xF ∧ (0x0#4) ≠ 0xF ∧ regAt 0x60 = none ∧ regAt 0x7C = none := by decide

theorem witness_WritableRegistersHoldWhatIsWritten :
    State.reset.rst = false ∧ State.reset.busy = false ∧ regAt 0x00 = some .ctrl ∧
      regAt 0x1C = some .romHi ∧ regAt 0x5C = some .buf3 := by decide

theorem witness_HostAccessesDoNotDisturbCommands :
    let s := fed [⟨.after 0, .access (.write 0x14 0xF 5)⟩, ⟨.whenIdle, .access (.read 0x08 0xF)⟩]
      (on (high 17))
    s.rst = false ∧ ∀ a ∈ s.world.inbox, ∃ x, a.event = .access x := by
  refine ⟨rfl, fun a ha => ?_⟩
  rcases List.mem_cons.1 ha with rfl | ha
  · exact ⟨_, rfl⟩
  · rcases List.mem_cons.1 ha with rfl | ha
    · exact ⟨_, rfl⟩
    · exact absurd ha (by simp)

/-- `Quiet` with and without an event to come: `NopOnlyClearsErr`, `SearchInitIsFresh`,
`CheckRomComparesTheCrc`, `BindChecksTheFamilyCode`, `SplitTempPacksBothParts`. -/
theorem witness_Quiet : Quiet State.reset = true ∧ Quiet (fed [commandArrival 0x8] State.reset) = true := by
  decide

/-- The first `LEN` too long, and no binding; a reserved OP needs no more. -/
theorem witness_AcceptanceChecksRaise :
    Quiet State.reset = true ∧ 16 < (0x11#5).toNat ∧ State.reset.sensorValid = false := by decide

theorem witness_ReadBitStoresTheSample :
    Quiet (on (slot false)) = true ∧ BusOk (on (slot false)) 3 := by decide

theorem witness_WriteBitSendsOneSlot : Quiet (on (high 2)) = true ∧ BusOk (on (high 2)) 2 := by decide

theorem witness_ReadByteIsLsbFirst :
    Quiet (on (byteSlots 0x14)) = true ∧ BusOk (on (byteSlots 0x14)) 24 := by decide +kernel

theorem witness_WriteByteIsLsbFirst : Quiet (on (high 17)) = true ∧ BusOk (on (high 17)) 17 := by
  decide +kernel

/-- V-R4 and V-R5 together: a held line that reads low for three polls. -/
def wReset : State := { on (high 1 ++ low 3 ++ high 10) with line := .hold }

theorem witness_ResetCommandDetectsPresence :
    Quiet wReset = true ∧ WireHighAfter wReset 3 ∧ BusOk wReset (wReset.resetEvents 3) := by
  decide +kernel

/-- A held line that stays low for all 125 polls. -/
def wStuck : State := { on (high 1 ++ low 125) with line := .hold }

theorem witness_StuckLineRaisesWireNotHigh :
    Quiet wStuck = true ∧ resetsBus .searchNext wStuck = true ∧
    resetsBus (.rsWrite 16) wStuck = true ∧ BusOk wStuck (wStuck.heldEvents + 125) ∧
    ∀ j < 125, wStuck.levelAt (wStuck.heldEvents + j) = false := by decide +kernel

/-- The last event of a byte write fails. -/
theorem witness_PortFailureEndsTransport :
    let s := on (high 16 ++ [.err 0x33])
    Quiet s = true ∧ 16 < fixedEvents .wireConvertT ∧ BusOk s 16 ∧ s.replyAt 16 = .err 0x33 := by
  decide +kernel

/-- A failure in the wire-high check of a held line, at the last event of a bus reset (event 9), and in byte
1 of a read. -/
theorem witness_PortFailureEndsTransactions :
    (let s := { on (high 1 ++ low 3 ++ [.err 0x11]) with line := .hold }
     Quiet s = true ∧ resetsBus .owReset s = true ∧ Instr.isSearch .owReset = false ∧
      PollsBefore s 3 4 ∧ BusOk s 4 ∧ s.replyAt 4 = .err 0x11 ∧ 4 < busCount (s.issues 3 .owReset)) ∧
    (let s := on (high 9 ++ [.err 0x12])
     Quiet s = true ∧ resetsBus (.rsWrite 16) s = true ∧ PollsBefore s 0 9 ∧ BusOk s 9 ∧
      s.replyAt 9 = .err 0x12 ∧ 9 < busCount (s.issues 0 (.rsWrite 16))) ∧
    (let s := bound (on (present ++ high 194 ++ [.err 0x13]))
     Quiet s = true ∧ resetsBus .dsRead s = true ∧ PollsBefore s 0 204 ∧
      s.replyAt 204 = .err 0x13 ∧ 204 < busCount (s.issues 0 .dsRead) ∧
      s.readStart 0 .dsRead = some 180) ∧
    BusOk (bound (on (present ++ high 194 ++ [.err 0x13]))) 204 := by
  refine ⟨by decide +kernel, by decide +kernel, by decide +kernel, fun k hk => ?_⟩
  have h : (bound (on (present ++ high 194 ++ [.err 0x13]))).replyAt k
      = ((present ++ high 194)[k]?).getD (.err 0x13) := by
    unfold State.replyAt
    show (match (present ++ high 194 ++ [.err 0x13])[k]? with
      | some r => r
      | none => _) = _
    rw [List.getElem?_append_left (by exact hk), List.getElem?_eq_getElem (by exact hk)]
    rfl
  rw [h, List.getElem?_eq_getElem (by exact hk)]
  have hall : (present ++ high 194).all BusReply.isOk = true := by decide +kernel
  exact List.all_eq_true.1 hall _ (List.getElem_mem _)

/-- V-S12: the `Release` of the complement read of bit 1 fails (event 40 of V-S12, counted from 1). -/
def wSearchFails : State :=
  on (present ++ high 17 ++ walkReplies [addrA, addrB] addrB 1 ++ slot false ++ high 1 ++ [.err 0x5A])

theorem witness_PortFailureEndsASearch :
    Quiet wSearchFails = true ∧ Instr.isSearch .searchNext = true ∧ wSearchFails.sphase ≠ .ended ∧
      PollsBefore wSearchFails 0 39 ∧ BusOk wSearchFails 39 ∧ wSearchFails.replyAt 39 = .err 0x5A ∧
      39 < busCount (wSearchFails.issues 0 .searchNext) ∧ 27 = wSearchFails.resetEvents 0 + 17 ∧
      none = lastDiscrepancy wSearchFails.sdisc ∧
      ∀ j < 64, some j ≠ (none : Option Nat) → 27 + 8 * j + 6 ≤ 39 →
        wSearchFails.answered 27 j = true := by
  decide +kernel

theorem witness_WireCommandsSendTheirByte :
    Instr.isHost .wireSearchRom = false ∧ Quiet (on (high 17)) = true ∧ BusOk (on (high 17)) 17 := by
  decide +kernel

theorem witness_SelectSendsTheRom :
    Quiet (on (high 153)) = true ∧ BusOk (on (high 153)) 153 :=
  ⟨rfl, busOk_of_all (by decide +kernel) (by decide +kernel)⟩

/-- A bus on which `n` events after a bus reset with presence complete. -/
def wAnswered (n : Nat) : State := bound (on (present ++ high n))

theorem witness_TransactionWritesTheBuffer :
    let s := wAnswered 425
    Quiet s = true ∧ (16#5).toNat ≤ 16 ∧ WireHighAfter s 0 ∧
      BusOk s (s.resetEvents 0 + 153 + 17 * (16#5).toNat) :=
  ⟨rfl, by decide, by decide +kernel, busOk_of_all (by decide +kernel) (by decide +kernel)⟩

theorem witness_TransactionReadsIntoTheBuffer :
    let s := wAnswered 537
    Quiet s = true ∧ (16#5).toNat ≤ 16 ∧ WireHighAfter s 0 ∧
      BusOk s (s.resetEvents 0 + 153 + 24 * (16#5).toNat) :=
  ⟨rfl, by decide, by decide +kernel, busOk_of_all (by decide +kernel) (by decide +kernel)⟩

theorem witness_SearchCallsThatReturnNothing :
    let s := { State.reset with sphase := .ended }
    Instr.isSearch .searchAlarm = true ∧ Quiet s = true ∧ s.sphase = .ended := by decide

theorem witness_SearchCallsThatReturnNothing_presence :
    let s := on (high 10)
    Instr.isSearch .searchNext = true ∧ Quiet s = true ∧ s.sphase ≠ .ended ∧ WireHighAfter s 0 ∧
      BusOk s (s.resetEvents 0) ∧ s.presenceSeen 0 = false := by decide +kernel

theorem witness_SearchCallsThatReturnNothing_over :
    let s := { wAnswered 17 with sphase := .deviceFound }
    Instr.isSearch .searchNext = true ∧ Quiet s = true ∧ s.sphase = .deviceFound ∧ s.sdisc = 0 ∧
      WireHighAfter s 0 ∧ BusOk s (s.resetEvents 0 + 17) ∧ s.presenceSeen 0 = true := by
  decide +kernel

/-- A walk of devices A and B on a fresh search, and after B was found. -/
def wFresh : State := on (present ++ high 17 ++ walkReplies [addrA, addrB] addrB 64)
def wResumed : State :=
  { on (present ++ high 17 ++ walkReplies [addrA, addrB] addrA 64) with
    saddr := addrB, sdisc := 0x100, sphase := .deviceFound, found := addrB, srchResult := .found }

theorem wFresh_busOk : BusOk wFresh (27 + 512) :=
  busOk_of_all (by decide +kernel) (by decide +kernel)

theorem wResumed_busOk : BusOk wResumed (27 + 512) :=
  busOk_of_all (by decide +kernel) (by decide +kernel)

/-- With no discrepancy pending. -/
theorem witness_SearchCallReturnsADevice :
    (Instr.isSearch .searchNext = true ∧ Quiet wFresh = true ∧ wFresh.sphase ≠ .ended ∧
      WireHighAfter wFresh 0 ∧ wFresh.presenceSeen 0 = true ∧ 27 = wFresh.resetEvents 0 + 17 ∧
      none = lastDiscrepancy wFresh.sdisc ∧ wFresh.sphase ≠ .deviceFound ∧
      ∀ j < 64, some j ≠ (none : Option Nat) → wFresh.answered 27 j = true) ∧
    BusOk wFresh (27 + 512) := ⟨by decide +kernel, wFresh_busOk⟩

/-- With one. -/
theorem witness_SearchCallReturnsADevice_resumed :
    (Instr.isSearch .searchAlarm = true ∧ Quiet wResumed = true ∧ wResumed.sphase ≠ .ended ∧
      WireHighAfter wResumed 0 ∧ wResumed.presenceSeen 0 = true ∧
      27 = wResumed.resetEvents 0 + 17 ∧ some 8 = lastDiscrepancy wResumed.sdisc ∧
      ∀ j < 64, some j ≠ some 8 → wResumed.answered 27 j = true) ∧
    BusOk wResumed (27 + 512) := ⟨by decide +kernel, wResumed_busOk⟩

/-- An abort at bit 0 of a fresh search (V-S11). -/
theorem witness_SearchAbortKeepsPartialWalk :
    let s := on (present ++ high 23)
    Instr.isSearch .searchAlarm = true ∧ Quiet s = true ∧ s.sphase ≠ .ended ∧ WireHighAfter s 0 ∧
      s.presenceSeen 0 = true ∧ 27 = s.resetEvents 0 + 17 ∧ BusOk s (27 + 8 * 0 + 6) ∧
      none = lastDiscrepancy s.sdisc ∧ s.sphase ≠ .deviceFound ∧ some 0 ≠ (none : Option Nat) ∧
      s.answered 27 0 = false := by decide +kernel

/-- The walk of V-S7: an abort at bit 9, after the resumed bit 8. -/
def wAborted : State :=
  { on (present ++ high 17 ++ walkReplies [addrA, addrB] addrA 9 ++ slot true ++ slot true) with
    saddr := addrB, sdisc := 0x100, sphase := .deviceFound }

theorem witness_SearchAbortKeepsPartialWalk_resumed :
    Instr.isSearch .searchNext = true ∧ Quiet wAborted = true ∧ wAborted.sphase ≠ .ended ∧
      WireHighAfter wAborted 0 ∧ wAborted.presenceSeen 0 = true ∧
      27 = wAborted.resetEvents 0 + 17 ∧ BusOk wAborted (27 + 8 * 9 + 6) ∧
      some 8 = lastDiscrepancy wAborted.sdisc ∧ some 9 ≠ some 8 ∧
      wAborted.answered 27 9 = false ∧
      ∀ j < 9, some j ≠ some 8 → wAborted.answered 27 j = true := by decide +kernel

theorem witness_FreshSearchFindsTheFirstDevice :
    (Instr.isSearch .searchNext = true ∧ Quiet wFresh = true ∧ [addrA, addrB] ≠ [] ∧
      wFresh.sphase = .initialized ∧ wFresh.sdisc = 0 ∧ WireHighAfter wFresh 0 ∧
      wFresh.presenceSeen 0 = true ∧ 27 = wFresh.resetEvents 0 + 17) ∧
    BusOk wFresh (27 + 512) ∧ exec .searchNext wFresh = .next (ran .searchNext wFresh) ∧
    DevicesAnswer [addrA, addrB] wFresh 27 (ran .searchNext wFresh).saddr := by
  have h : (ran .searchNext wFresh).saddr = addrB := by decide +kernel
  refine ⟨by decide +kernel, wFresh_busOk, rfl, ?_⟩
  rw [h]
  exact devicesAnswer_pair (by decide +kernel)

theorem witness_ResumedSearchFindsTheNextDevice :
    (Instr.isSearch .searchNext = true ∧ Quiet wResumed = true ∧ wResumed.sphase = .deviceFound ∧
      wResumed.sdisc ≠ 0 ∧ WireHighAfter wResumed 0 ∧ wResumed.presenceSeen 0 = true ∧
      27 = wResumed.resetEvents 0 + 17) ∧
    PendingExact [addrA, addrB] wResumed.saddr wResumed.sdisc ∧
    BusOk wResumed (27 + 512) ∧ exec .searchNext wResumed = .next (ran .searchNext wResumed) ∧
    DevicesAnswer [addrA, addrB] wResumed 27 (ran .searchNext wResumed).saddr := by
  have h : (ran .searchNext wResumed).saddr = addrA := by decide +kernel
  refine ⟨by decide +kernel, pendingExact_pair (by decide +kernel), wResumed_busOk, rfl, ?_⟩
  rw [h]
  exact devicesAnswer_pair (by decide +kernel)

/-- A valid address. -/
theorem witness_CrcResidueIsZero : addrCrc d1 = byteAt d1 7 := by decide +kernel

theorem witness_ComputeReportsTheCrc : Quiet State.reset = true ∧ (16#5).toNat ≤ 16 := by decide

theorem witness_StartConvertsAndReportsTheWait :
    let s := wAnswered 170
    Quiet s = true ∧ s.sensorValid = true ∧ WireHighAfter s 0 ∧ BusOk s (s.resetEvents 0 + 170) :=
  ⟨rfl, rfl, by decide +kernel, busOk_of_all (by decide +kernel) (by decide +kernel)⟩

theorem witness_ReadChecksAndDecodesTheScratchpad :
    let s := wAnswered 386
    Quiet s = true ∧ s.sensorValid = true ∧ WireHighAfter s 0 ∧ 180 = s.resetEvents 0 + 170 ∧
      BusOk s (180 + 216) :=
  ⟨rfl, rfl, by decide +kernel, by decide, busOk_of_all (by decide +kernel) (by decide +kernel)⟩

/-- An instruction of each frame statement, run to the end with `RST` low throughout. -/
theorem witness_frames :
    State.reset.rst = false ∧
    exec (.owWriteByte true) State.reset = .next (ran (.owWriteByte true) State.reset) ∧
    exec (.rsWrite 16) State.reset = .next (ran (.rsWrite 16) State.reset) ∧
    exec (.rsRead 16) State.reset = .next (ran (.rsRead 16) State.reset) ∧
    (exec .searchNext State.reset = .next (ran .searchNext State.reset) ∧
      Instr.isSearch .searchNext = true) ∧
    exec .crcCheckRom State.reset = .next (ran .crcCheckRom State.reset) ∧
    (exec .dsRead State.reset = .next (ran .dsRead State.reset) ∧ Instr.isHost .dsRead = true) :=
  ⟨rfl, rfl, rfl, rfl, ⟨rfl, by decide⟩, rfl, ⟨rfl, by decide⟩⟩

end Sys2Proof.Tests
end

section
/-!
SUPPORT. Host accesses to the register window: what a write stores, what a read returns, what neither can
change (10_state.md R20 to R27, 20_memory.md R63 to R69).
-/

namespace Sys2Proof.Machine

/-! ## What a stored register reads as -/

/-- `CTRL` reads back the bits it defines (10_state.md R27). -/
theorem ctrlFields_eq_and_seven (v : Word) :
    0#29 ++ v.extractLsb' 1 2 ++ BitVec.ofBool (v.getLsbD 0) = v &&& 0x7#32 := by
  apply BitVec.eq_of_getLsbD_eq
  intro i hi
  simp only [BitVec.getLsbD_append, BitVec.getLsbD_and]
  interval_cases i <;> simp

/-- A write to one word of `ROM` leaves every other register's word (20_memory.md R63). -/
theorem regWord_setRom {s : State} {q : Reg} {k : Nat} {v : Word}
    (hq : [Reg.romLo, .romHi][k]? ≠ some q) :
    regWord { s with rom := setWord s.rom k v } q = regWord s q := by
  cases q
  case romLo | romHi =>
    exact (wordAt_setWord _ _ _ _ (by decide)).trans (if_neg (by rintro rfl; exact hq rfl))
  all_goals rfl

/-- A write to one word of `BUF` leaves every other register's word (20_memory.md R63). -/
theorem regWord_setBuf {s : State} {q : Reg} {k : Nat} {v : Word}
    (hq : [Reg.buf0, .buf1, .buf2, .buf3][k]? ≠ some q) :
    regWord { s with buf := setWord s.buf k v } q = regWord s q := by
  cases q
  case buf0 | buf1 | buf2 | buf3 =>
    exact (wordAt_setWord _ _ _ _ (by decide)).trans (if_neg (by rintro rfl; exact hq rfl))
  all_goals rfl

/-- A store changes no word but that of its own register (10_state.md R20). -/
theorem regWord_storeReg_other {r q : Reg} (hq : r ≠ q) (v : Word) (s : State) :
    regWord (storeReg r v s) q = regWord s q := by
  cases r with
  | romLo => exact regWord_setRom (k := 0) (by simpa using hq)
  | romHi => exact regWord_setRom (k := 1) (by simpa using hq)
  | buf0 => exact regWord_setBuf (k := 0) (by simpa using hq)
  | buf1 => exact regWord_setBuf (k := 1) (by simpa using hq)
  | buf2 => exact regWord_setBuf (k := 2) (by simpa using hq)
  | buf3 => exact regWord_setBuf (k := 3) (by simpa using hq)
  | ctrl =>
    cases q with
    | ctrl => exact absurd rfl hq
    | _ => rfl
  | data =>
    cases q with
    | data => exact absurd rfl hq
    | _ => rfl
  | status =>
    cases q with
    | status => exact absurd rfl hq
    | _ => rfl
  | _ => rfl

/-- The registers a host write stores to and a read gives back. -/
abbrev Reg.stored : List Reg := [.ctrl, .data, .romLo, .romHi, .buf0, .buf1, .buf2, .buf3]

theorem regWord_storeReg_same {r : Reg} (hr : r ∈ Reg.stored) (v : Word) (s : State) :
    regWord (storeReg r v s) r = if r = .ctrl then v &&& 0x7 else v := by
  cases r with
  | ctrl => exact ctrlFields_eq_and_seven v
  | data => rfl
  | romLo | romHi | buf0 | buf1 | buf2 | buf3 => exact wordAt_setWord _ _ _ _ (by decide)
  | _ => exact absurd hr (by decide)

/-! ## What a host access does -/

/-- A 32-bit write to an idle block is the store (10_state.md R20). -/
theorem hostAccess_write_idle {s : State} {off : BitVec 7} {r : Reg} (hrst : s.rst = false)
    (hbusy : s.busy = false) (hr : regAt off = some r) (v : Word) :
    hostAccess (.write off 0xF v) s = storeReg r v s := by
  simp [hostAccess, hostWrite, hrst, hbusy, hr]

/-- A read only adds a reply and at most one draw of a free value (20_memory.md R69). -/
theorem hostRead_eq_reply (off : BitVec 7) (lanes : BitVec 4) (s : State) :
    ∃ v : Word, ∃ n ≤ 1, hostRead off lanes s = reply off lanes v n s := by
  unfold hostRead
  split
  · exact ⟨_, 1, le_rfl, rfl⟩
  · split
    · exact ⟨_, 0, Nat.zero_le 1, rfl⟩
    · exact ⟨_, 0, Nat.zero_le 1, rfl⟩
    · split
      · exact ⟨_, 1, le_rfl, rfl⟩
      · exact ⟨_, 0, Nat.zero_le 1, rfl⟩

/-- A write is ignored, dropped with `OVR`, or stored (20_memory.md R65, R66, R68). -/
theorem hostWrite_cases (off : BitVec 7) (lanes : BitVec 4) (v : Word) (s : State) :
    hostWrite off lanes v s = s ∨ hostWrite off lanes v s = { s with ovr := true } ∨
      ∃ r, regAt off = some r ∧ hostWrite off lanes v s = storeReg r v s := by
  unfold hostWrite
  split
  · exact .inl rfl
  · split
    · exact .inl rfl
    · split
      · exact .inr (.inl rfl)
      · exact .inr (.inr ⟨_, ‹_›, rfl⟩)

/-- `t` differs from `s` only where the host can write, in the replies and in the free values they drew. -/
abbrev OnlyHost (s t : State) : Prop :=
  t = { s with
    parasite := t.parasite, res := t.res, data := t.data, rom := t.rom, buf := t.buf
    ovr := t.ovr
    world := { s.world with replies := t.world.replies, readDraws := t.world.readDraws } }

theorem storeReg_onlyHost (r : Reg) (v : Word) (s : State) : OnlyHost s (storeReg r v s) := by
  cases r <;> rfl

theorem hostAccess_onlyHost (a : Access) (s : State) : OnlyHost s (hostAccess a s) := by
  cases a with
  | read off lanes =>
    obtain ⟨v, n, -, h⟩ := hostRead_eq_reply off lanes s
    rw [hostAccess, h]
    rfl
  | write off lanes v =>
    rw [hostAccess]
    obtain h | h | ⟨r, -, h⟩ := hostWrite_cases off lanes v s
    · rw [h]
    · rw [h]
    · rw [h]
      exact storeReg_onlyHost r v s

/-! ## The fields of `STATUS` -/

/-- The flags of `STATUS`, one bit each (10_state.md R29 to R33), and reserved bit 15. -/
theorem statusWord_flags (s : State) :
    (statusWord s).getLsbD 0 = s.busy ∧ (statusWord s).getLsbD 1 = s.presence ∧
    (statusWord s).getLsbD 2 = s.crcOk ∧ (statusWord s).getLsbD 3 = s.sensorValid ∧
    (statusWord s).getLsbD 4 = s.ovr ∧ (statusWord s).getLsbD 15 = false := by
  refine ⟨?_, ?_, ?_, ?_, ?_, ?_⟩ <;>
    simp only [statusWord, BitVec.getLsbD_append, BitVec.getLsbD_ofBool] <;> simp

/-- The fields of `STATUS` of several bits (10_state.md R34 to R37), and the reserved ones. -/
theorem statusWord_fields (s : State) :
    (statusWord s).extractLsb' 5 3 = 0#3 ∧ (statusWord s).extractLsb' 8 4 = s.err.toBits ∧
    (statusWord s).extractLsb' 12 3 = s.srchResult.toBits ∧
    (statusWord s).extractLsb' 16 2 = s.sphase.toBits ∧
    (statusWord s).extractLsb' 18 2 = lineBits s.line ∧
    (statusWord s).extractLsb' 20 12 = 0#12 := by
  simp (disch := decide) only [statusWord, BitVec.extractLsb'_append_eq_of_le,
    BitVec.extractLsb'_append_eq_of_add_le, BitVec.extractLsb'_eq_self, Nat.reduceSub, and_self]

/-! ## The obligations -/

/-- Settles O19: the write is a store, and the store's word reads back alone. -/
theorem writableRegistersHoldWhatIsWritten : Obligations.WritableRegistersHoldWhatIsWritten := by
  intro s off v r hrst hbusy hr hmem
  rw [hostAccess_write_idle hrst hbusy hr]
  exact ⟨regWord_storeReg_same hmem v s, fun q hq => regWord_storeReg_other hq.symm v s⟩

/-- Settles O20, from the frames of a reply and of a store. -/
theorem hostCannotWriteReadOnlyState : Obligations.HostCannotWriteReadOnlyState :=
  hostAccess_onlyHost

/-- Settles O9: the fields of one fixed state. -/
theorem resetHasTheStatedValues : Obligations.ResetHasTheStatedValues := by
  unfold Obligations.ResetHasTheStatedValues
  decide

/-- Settles O10: every register is at its reset value, so every condition of `Inv` on a flag, an error or a
search result that is not there is empty. -/
theorem resetMeetsInvariant : Obligations.ResetMeetsInvariant where
  atRest := ⟨rfl, rfl, rfl⟩
  inReset := fun _ => rfl
  crcFlag := fun _ => rfl
  mismatch := fun h => absurd h (by decide)
  noDetail := fun _ => rfl
  branches := rfl
  ended := fun _ => rfl
  foundAddr := fun h => absurd h (by decide)
  unbound := fun _ => ⟨rfl, rfl, rfl⟩
  waits := .inl rfl

/-- Settles O21: the places from `statusWord_flags` and `statusWord_fields`; the codes are the tables of
10_state.md R34 to R37. -/
theorem statusFieldPlaces : Obligations.StatusFieldPlaces := by
  refine ⟨fun s => ?_, by decide, by decide, by decide, by decide⟩
  obtain ⟨hbusy, hpresence, hcrcOk, hvalid, hovr, h15⟩ := statusWord_flags s
  obtain ⟨h5, herr, hresult, hphase, hline, h20⟩ := statusWord_fields s
  exact ⟨hbusy, hpresence, hcrcOk, hvalid, hovr, h5, herr, hresult, h15, hphase, hline, h20⟩

end Sys2Proof.Machine
end

section
/-!
SUPPORT. What one host access does case by case (20_memory.md R61 to R69), and the step of an event that
starts no command.
-/

namespace Sys2Proof.Machine

/-! ## Offsets and lanes -/

/-- An offset selects entry `off / 4` of the map: bits `[1:0]` are not decoded (20_memory.md R61). -/
theorem regAt_eq_div (off : BitVec 7) : regAt off = regMap[off.toNat / 4]? := by
  have hword : (off.extractLsb' 2 5).toNat = off.toNat / 4 := by
    rw [BitVec.extractLsb'_toNat, Nat.shiftRight_eq_div_pow]
    exact Nat.mod_eq_of_lt (by omega)
  rw [regAt, hword]

/-- The lanes an access covers stand as they are, the others as 0 (20_memory.md R68). -/
theorem byteAt_laneMask (lanes : BitVec 4) (v : Word) {j : Nat} (hj : j < 4) :
    byteAt (laneMask lanes v) j = if lanes.getLsbD j then byteAt v j else 0 := by
  have hlane : byteAt (laneMask lanes v) j
      = byteAt v j &&& if lanes.getLsbD j then 0xFF#8 else 0#8 := by
    rw [byteAt, laneMask, BitVec.extractLsb'_and]
    interval_cases j <;> simp (disch := decide) only [byteAt, BitVec.extractLsb'_append_eq_of_le,
      BitVec.extractLsb'_append_eq_of_add_le, BitVec.extractLsb'_eq_self, Nat.reduceMul, Nat.reduceSub]
  rw [hlane]
  split
  · exact BitVec.and_allOnes
  · exact BitVec.and_zero

/-! ## Reads and writes with `RST` low -/

section
variable {s : State} {off : BitVec 7} (hrst : s.rst = false)
include hrst

theorem hostRead_reserved (lanes : BitVec 4) (h : regAt off = none) :
    hostRead off lanes s = reply off lanes 0 0 s := by
  simp [hostRead, hrst, h]

/-- An idle block, and `STATUS` at any time, reads the register's word (20_memory.md R67). -/
theorem hostRead_register {r : Reg} (lanes : BitVec 4) (h : regAt off = some r)
    (hread : s.busy = false ∨ r = .status) :
    hostRead off lanes s = reply off lanes (regWord s r) 0 s := by
  by_cases hr : r = .status
  · subst hr
    simp [hostRead, hrst, h, regWord]
  · simp [hostRead, hrst, h, hread.resolve_right hr]

/-- A 32-bit write is dropped with `OVR`, or stored (20_memory.md R66). -/
theorem hostWrite_register {r : Reg} (v : Word) (h : regAt off = some r) :
    hostWrite off 0xF v s
      = if s.busy && r.dropsWhileBusy then { s with ovr := true } else storeReg r v s := by
  simp [hostWrite, hrst, h]

end

/-- A write without all four lanes, or to a reserved offset, is ignored (20_memory.md R65, R68). -/
theorem hostWrite_ignored {off : BitVec 7} {lanes : BitVec 4}
    (h : lanes ≠ 0xF ∨ regAt off = none) (v : Word) (s : State) : hostWrite off lanes v s = s := by
  rcases h with hlanes | hoff
  · have hpartial : (lanes != 0xF#4) = true := by simpa using hlanes
    rw [hostWrite, hpartial, Bool.or_true, if_pos rfl]
  · simp [hostWrite, hoff]

/-! ## The step of an event that starts no command -/

/-- What keeps a write from starting a command (30_encoding.md R86; 20_memory.md R66, R68). -/
theorem commandWord_write_none {s : State} {off : BitVec 7} {lanes : BitVec 4} {v : Word}
    (h : s.rst = true ∨ s.busy = true ∨ lanes ≠ 0xF ∨ regAt off ≠ some .cmd) :
    commandWord (.write off lanes v) s = none := by
  refine if_neg fun hc => ?_
  simp only [Bool.and_eq_true, Bool.not_eq_true', beq_iff_eq] at hc
  obtain ⟨⟨⟨hrst, hbusy⟩, hlanes⟩, hcmd⟩ := hc
  simp [hrst, hbusy, hlanes, hcmd] at h

theorem stepEvent_access_of_no_command {a : Access} {s : State} (h : commandWord a s = none) :
    stepEvent (.access a) s = .next (hostAccess a s) := by
  simp only [stepEvent, h]

/-- With no wire command pending a step takes the next event (log entry 1). -/
theorem step_event {s : State} {a : Arrival} {rest : List Arrival} (hw : s.wireCmd = none)
    (h : s.world.inbox = a :: rest) : step s = stepEvent a.event (s.withInbox rest) := by
  simp only [step, hw, h]

/-! ## The obligations -/

/-- Settles O8: a level of `RST` is `setRst`, and an access that starts no command is its effect. -/
theorem stepTakesTheNextEvent : Obligations.StepTakesTheNextEvent := by
  intro s m rest hw
  refine ⟨fun h => ?_, fun level h => ?_, fun off lanes h => ?_, fun off lanes v h hno => ?_⟩
  · simp only [step, hw, h]
  · exact step_event hw h
  · rw [step_event hw h]
    exact stepEvent_access_of_no_command rfl
  · rw [step_event hw h]
    exact stepEvent_access_of_no_command (commandWord_write_none hno)

/-- Settles O15: a read is a reply. -/
theorem readsHaveNoSideEffect : Obligations.ReadsHaveNoSideEffect := by
  intro s off lanes
  obtain ⟨v, n, hn, h⟩ := hostRead_eq_reply off lanes s
  exact ⟨v, n, hn, h⟩

/-- Settles O16: the map by offset, the reply by register, the lanes byte by byte. -/
theorem readsReturnTheRegister : Obligations.ReadsReturnTheRegister := by
  intro s off lanes hrst
  exact ⟨regAt_eq_div off, hostRead_reserved hrst lanes, fun _ => hostRead_register hrst lanes,
    fun v _ => ⟨laneMask lanes v, rfl, fun _ => byteAt_laneMask lanes v⟩⟩

/-- Settles O17: `Reg.dropsWhileBusy` tells the dropped writes from the stores, and the store of a read-only
register is no change. -/
theorem writesWhileBusyAreDropped : Obligations.WritesWhileBusyAreDropped := by
  intro s off v r hrst hr
  simp only [hostAccess, hostWrite_register hrst v hr]
  refine ⟨fun hmem hbusy => ?_, ?_, fun hmem => ?_⟩
  · have hdrops : ∀ r ∈ [Reg.cmd, .ctrl, .data, .romLo, .romHi, .buf0, .buf1, .buf2, .buf3],
        r.dropsWhileBusy = true := by decide
    simp [hbusy, hdrops r hmem]
  · rintro rfl
    simp [Reg.dropsWhileBusy, storeReg]
  · cases r with
    | ctrl | cmd | data | romLo | romHi | buf0 | buf1 | buf2 | buf3 | status =>
      exact absurd (by decide) hmem
    | _ => simp [Reg.dropsWhileBusy, storeReg]

/-- Settles O18: both ways a write is ignored are in `hostWrite_ignored`. -/
theorem partialAndReservedWritesAreIgnored : Obligations.PartialAndReservedWritesAreIgnored :=
  fun s _ _ v h => hostWrite_ignored h v s

end Sys2Proof.Machine
end

section
/-!
SUPPORT. A command with host accesses landing inside it, and the same command with none: the two runs go in
step, and differ only in `State.withHost` (20_memory.md R66, R69, R75; 70_reset_and_hazards.md R290).
-/

namespace Sys2Proof.Machine

/-- What host accesses can change while a command runs, and the events still to land. -/
structure HostSide where
  ovr : Bool
  inbox : List Arrival
  replies : List Reply
  readDraws : Nat

/-- The state with its host side replaced. -/
def State.withHost (h : HostSide) (s : State) : State :=
  { s with
    ovr := h.ovr
    world := { s.world with inbox := h.inbox, replies := h.replies, readDraws := h.readDraws } }

/-- The host side a command starts with. -/
def State.hostSide (s : State) : HostSide := ⟨s.ovr, s.world.inbox, s.world.replies, s.world.readDraws⟩

/-- A block in the course of a command at which nothing is left to land. -/
abbrev Running (u : State) : Prop := u.busy = true ∧ u.rst = false ∧ u.world.inbox = []

/-! ## One access, one moment -/

theorem ovrAfterEvent_partial {lanes : BitVec 4} (hl : lanes ≠ 0xF) (o : Bool) (off : BitVec 7)
    (v : Word) : ovrAfterEvent o (.access (.write off lanes v)) = o := by
  unfold ovrAfterEvent
  split
  · rename_i h
    cases h
    exact absurd rfl hl
  · rfl

theorem ovrAfterEvent_reserved {off : BitVec 7} (hr : regAt off = none) (o : Bool) (v : Word) :
    ovrAfterEvent o (.access (.write off 0xF v)) = o := by
  simp [ovrAfterEvent, hr]

theorem ovrAfterEvent_register {off : BitVec 7} {r : Reg} (hr : regAt off = some r) (o : Bool)
    (v : Word) : ovrAfterEvent o (.access (.write off 0xF v))
      = if r.dropsWhileBusy then true else if r = .status then o && !v.getLsbD 4 else o := by
  cases r <;> simp [ovrAfterEvent, hr, Reg.dropsWhileBusy]

/-- A write to a running block changes `OVR` alone, as `ovrAfterEvent` says (20_memory.md R66). -/
theorem hostWrite_running {s : State} (hbusy : s.busy = true) (hrst : s.rst = false) (off : BitVec 7)
    (lanes : BitVec 4) (v : Word) :
    hostWrite off lanes v s
      = { s with ovr := ovrAfterEvent s.ovr (.access (.write off lanes v)) } := by
  by_cases hl : lanes = 0xF
  · subst hl
    cases hr : regAt off with
    | none => rw [hostWrite_ignored (.inr hr), ovrAfterEvent_reserved hr]
    | some r =>
      have hdrop : (s.busy && r.dropsWhileBusy) = r.dropsWhileBusy := by rw [hbusy, Bool.true_and]
      rw [hostWrite_register hrst v hr, hdrop, ovrAfterEvent_register hr]
      cases r <;> rfl
  · rw [hostWrite_ignored (.inl hl), ovrAfterEvent_partial hl]

/-- An access to a running block changes its host side alone. -/
theorem hostAccess_withHost {u : State} (hu : Running u) (h : HostSide) (a : Access) :
    ∃ h', hostAccess a (u.withHost h) = u.withHost h' ∧ h'.ovr = ovrAfterEvent h.ovr (.access a) := by
  obtain ⟨hbusy, hrst, -⟩ := hu
  cases a with
  | read off lanes =>
    obtain ⟨v, n, -, hread⟩ := hostRead_eq_reply off lanes (u.withHost h)
    exact ⟨⟨h.ovr, h.inbox, ⟨off, lanes, laneMask lanes v⟩ :: h.replies, h.readDraws + n⟩,
      hread, rfl⟩
  | write off lanes v =>
    exact ⟨{ h with ovr := ovrAfterEvent h.ovr (.access (.write off lanes v)) },
      hostWrite_running (s := u.withHost h) hbusy hrst off lanes v, rfl⟩

/-- What of an arrival stays while it waits: its event, and whether it waits for an idle block. -/
def Arrival.key (a : Arrival) : Event × Bool := (a.event, a.moment == .whenIdle)

/-- From `h` on, exactly `landed` has landed, in order, and `h'` is left. -/
structure Landed (h : HostSide) (landed : List Arrival) (h' : HostSide) : Prop where
  split : ∃ left, h.inbox = landed ++ left ∧ h'.inbox.map Arrival.key = left.map Arrival.key
  ovr : h'.ovr = ovrAfter h.ovr landed
  notIdle : ∀ a ∈ landed, a.moment ≠ .whenIdle

/-- The first event, if it is due, is one of `landed`. -/
abbrev DueLands (h : HostSide) (landed : List Arrival) : Prop :=
  ∀ a, h.inbox.head? = some a → a.moment = .after 0 → a ∈ landed

theorem Landed.refl (h : HostSide) : Landed h [] h :=
  ⟨⟨h.inbox, rfl, rfl⟩, rfl, fun _ ha => absurd ha List.not_mem_nil⟩

theorem ovrAfter_append (o : Bool) (l m : List Arrival) :
    ovrAfter o (l ++ m) = ovrAfter (ovrAfter o l) m :=
  List.foldl_append

theorem ovrAfter_congr {l m : List Arrival} (h : l.map Arrival.key = m.map Arrival.key) (o : Bool) :
    ovrAfter o l = ovrAfter o m := by
  have hkey : ∀ l : List Arrival,
      ovrAfter o l = (l.map Arrival.key).foldl (fun o k => ovrAfterEvent o k.1) o := by
    intro l
    rw [List.foldl_map]
    rfl
  rw [hkey, hkey, h]

theorem not_whenIdle_of_key {l m : List Arrival} (h : l.map Arrival.key = m.map Arrival.key)
    (hm : ∀ a ∈ m, a.moment ≠ .whenIdle) : ∀ a ∈ l, a.moment ≠ .whenIdle := by
  intro a ha
  obtain ⟨b, hb, hkey⟩ : ∃ b ∈ m, b.key = a.key := List.mem_map.1 (h ▸ List.mem_map_of_mem ha)
  have hidle : (b.moment == .whenIdle) = (a.moment == .whenIdle) := congrArg Prod.snd hkey
  exact beq_eq_false_iff_ne.1 (hidle ▸ beq_eq_false_iff_ne.2 (hm b hb))

/-- What lands later lands after what has landed. -/
theorem Landed.trans {h h₁ h₂ : HostSide} {l m : List Arrival} (h1 : Landed h l h₁)
    (h2 : Landed h₁ m h₂) : ∃ m', Landed h (l ++ m') h₂ := by
  obtain ⟨left, hsplit, hkeys⟩ := h1.split
  obtain ⟨left₂, hsplit₂, hkeys₂⟩ := h2.split
  rw [hsplit₂, List.map_append] at hkeys
  obtain ⟨m', left', rfl, hm, hl⟩ := List.map_eq_append_iff.1 hkeys.symm
  refine ⟨m', ⟨left', by rw [hsplit, List.append_assoc], hkeys₂.trans hl.symm⟩, ?_, ?_⟩
  · rw [h2.ovr, h1.ovr, ovrAfter_append, ovrAfter_congr hm]
  · exact List.forall_mem_append.2 ⟨h1.notIdle, not_whenIdle_of_key hm h2.notIdle⟩

/-- Everything still to land is a host access. -/
def HostSide.AccessesOnly (h : HostSide) : Prop := ∀ a ∈ h.inbox, ∃ x, a.event = .access x

theorem Landed.accessesOnly {h h' : HostSide} {l : List Arrival} (hl : Landed h l h')
    (ha : h.AccessesOnly) : h'.AccessesOnly := by
  obtain ⟨left, hsplit, hkeys⟩ := hl.split
  intro a hmem
  obtain ⟨b, hb, hkey⟩ : ∃ b ∈ left, b.key = a.key :=
    List.mem_map.1 (hkeys ▸ List.mem_map_of_mem hmem)
  have hevent : b.event = a.event := congrArg Prod.fst hkey
  rw [← hevent]
  exact ha b (by rw [hsplit]; exact List.mem_append_right _ hb)

/-- The events that land at one moment: accesses, the first of them if it is due. -/
theorem landAll_withHost {u : State} (hu : Running u) : ∀ (q : List Arrival) (h : HostSide),
    (∀ a ∈ q, ∃ x, a.event = .access x) →
    ∃ landed h', landAll q (u.withHost h) = (false, u.withHost h') ∧
      Landed { h with inbox := q } landed h' ∧
      DueLands { h with inbox := q } landed := by
  intro q
  induction q with
  | nil =>
    intro h _
    exact ⟨[], { h with inbox := [] }, rfl, .refl _, fun a ha => nomatch ha⟩
  | cons a rest ih =>
    intro h hq
    obtain ⟨⟨x, hx⟩, hrest⟩ := List.forall_mem_cons.1 hq
    obtain ⟨m, e⟩ := a
    obtain rfl : e = .access x := hx
    cases m with
    | whenIdle =>
      exact ⟨[], { h with inbox := ⟨.whenIdle, .access x⟩ :: rest }, rfl, .refl _,
        fun a ha hm => by cases ha; cases hm⟩
    | after n =>
      cases n with
      | succ n =>
        exact ⟨[], { h with inbox := ⟨.after n, .access x⟩ :: rest }, rfl,
          ⟨⟨_, rfl, rfl⟩, rfl, fun _ ha => absurd ha List.not_mem_nil⟩,
          fun a ha hm => by cases ha; cases hm⟩
      | zero =>
        obtain ⟨h₁, hx, hovr⟩ := hostAccess_withHost hu h x
        obtain ⟨landed, h', hland, ⟨⟨left, hsplit, hkeys⟩, hovr', hidle⟩, -⟩ := ih h₁ hrest
        refine ⟨⟨.after 0, .access x⟩ :: landed, h', ?_, ⟨⟨left, ?_, hkeys⟩, ?_, ?_⟩, ?_⟩
        · rw [landAll, hx, hland]
        · exact congrArg _ hsplit
        · rw [hovr', hovr]
          rfl
        · exact List.forall_mem_cons.2 ⟨nofun, hidle⟩
        · rintro a ⟨⟩ -
          exact List.mem_cons_self

theorem moment_withHost {u : State} (hu : Running u) {h : HostSide} (ha : h.AccessesOnly) :
    ∃ landed h', moment.run (u.withHost h) = .ok () (u.withHost h') ∧ Landed h landed h' ∧
      DueLands h landed := by
  obtain ⟨landed, h', hland, hl, hdue⟩ := landAll_withHost hu h.inbox h ha
  refine ⟨landed, h', ?_, hl, hdue⟩
  have hrun : landAll (u.withHost h).world.inbox (u.withHost h) = (false, u.withHost h') := hland
  simp only [moment, EStateM.run, hrun]

/-! ## Two runs in step -/

/-- A property of the host side that landing accesses keep. -/
structure HostClosed (H : HostSide → Prop) : Prop where
  accesses : ∀ h, H h → h.AccessesOnly
  lands : ∀ h landed h', H h → Landed h landed h' → H h'

/-- `x` runs the same whatever the host side is: it returns or raises the same, no `RST` ends it, it leaves
the same state but for the host side, and `H` still holds of that. -/
def Op.Undisturbed {α : Type} (H : HostSide → Prop) (x : Op α) : Prop :=
  ∀ u h, Running u → H h → match x.run u with
    | .ok a v => Running v ∧ ∃ h', H h' ∧ x.run (u.withHost h) = .ok a (v.withHost h')
    | .error e v => e ≠ .abandoned ∧ Running v ∧
        ∃ h', H h' ∧ x.run (u.withHost h) = .error e (v.withHost h')

namespace Op
variable {α β : Type} {H : HostSide → Prop}

theorem Undisturbed.bind {x : Op α} {f : α → Op β} (hx : Undisturbed H x)
    (hf : ∀ a, Undisturbed H (f a)) : Undisturbed H (x >>= f) := by
  intro u h hu hh
  have hxu := hx u h hu hh
  cases hr : x.run u with
  | ok a v =>
    rw [hr] at hxu
    obtain ⟨hv, h', hh', hx'⟩ := hxu
    rw [bind_ok f hr, bind_ok f hx']
    exact hf a v h' hv hh'
  | error e v =>
    rw [hr] at hxu
    obtain ⟨he, hv, h', hh', hx'⟩ := hxu
    rw [bind_error f hr]
    exact ⟨he, hv, h', hh', bind_error f hx'⟩

theorem Undisturbed.pure (a : α) : Undisturbed H (Pure.pure a : Op α) :=
  fun _ h hu hh => ⟨hu, h, hh, rfl⟩

theorem Undisturbed.raise (e : Error) : Undisturbed H (Machine.raise e : Op α) :=
  fun _ h hu hh => ⟨nofun, hu, h, hh, rfl⟩

/-- A piece that reads the state, but not its host side. -/
theorem Undisturbed.getBind {f : State → Op β} (hhost : ∀ u h, f (u.withHost h) = f u)
    (hf : ∀ u, Undisturbed H (f u)) : Undisturbed H (MonadState.get >>= f) := by
  intro u h hu hh
  rw [bind_ok f (EStateM.run_get u), bind_ok f (EStateM.run_get (u.withHost h)), hhost]
  exact hf u u h hu hh

/-- A write that neither reads nor changes the host side. -/
theorem Undisturbed.onModify {f : State → State}
    (hhost : ∀ u h, f (u.withHost h) = (f u).withHost h) (hrun : ∀ u, Running u → Running (f u)) :
    Undisturbed H (modify f : Op Unit) :=
  fun u h hu hh => ⟨hrun u hu, h, hh, congrArg (EStateM.Result.ok ()) (hhost u h)⟩

theorem Undisturbed.modifyBind {f : State → State} {g : Unit → Op β}
    (hhost : ∀ u h, f (u.withHost h) = (f u).withHost h) (hrun : ∀ u, Running u → Running (f u))
    (hg : ∀ a, Undisturbed H (g a)) : Undisturbed H (modify f >>= g) :=
  (Undisturbed.onModify hhost hrun).bind hg

theorem Undisturbed.ite {c : Prop} [Decidable c] {x y : Op α} (hx : Undisturbed H x)
    (hy : Undisturbed H y) : Undisturbed H (if c then x else y) := by
  split
  · exact hx
  · exact hy

end Op

/-! ## The procedures -/

section
variable {H : HostSide → Prop}

theorem checkLen_undisturbed (len : BitVec 5) : Op.Undisturbed H (checkLen len) :=
  .ite (.raise _) (.pure _)

theorem checkSensor_undisturbed : Op.Undisturbed H checkSensor :=
  .getBind (fun _ _ => rfl) fun _ => .ite (.pure _) (.raise _)

theorem checkCrc_undisturbed (computed expected : Byte) :
    Op.Undisturbed H (checkCrc computed expected) :=
  .modifyBind (fun _ _ => rfl) (fun _ hu => hu) fun _ => .ite (.pure _) (.raise _)

variable (hH : HostClosed H)
include hH

/-- A moment changes nothing in the run in which nothing lands, and the host side alone in the other. -/
theorem moment_running {u : State} {h : HostSide} (hu : Running u) (hh : H h) :
    moment.run u = .ok () u ∧
      ∃ h', H h' ∧ moment.run (u.withHost h) = .ok () (u.withHost h') := by
  obtain ⟨landed, h', hland, hl, -⟩ := moment_withHost hu (hH.accesses h hh)
  exact ⟨moment_quiet (by simp [Quiet, hu.2.2]), h', hH.lands h landed h' hh hl, hland⟩

theorem moment_undisturbed : Op.Undisturbed H moment := by
  intro u h hu hh
  obtain ⟨hquiet, hlands⟩ := moment_running hH hu hh
  rw [hquiet]
  exact ⟨hu, hlands⟩

theorem busEvent_undisturbed (p : Prim) (seen : Bool → BusEvent) :
    Op.Undisturbed H (busEvent p seen) := by
  refine (moment_undisturbed hH).bind fun _ u h hu hh => ?_
  have hreply : (u.withHost h).replyAt 0 = u.replyAt 0 := rfl
  simp only [takeReply, EStateM.run, nextReply_eq, hreply]
  cases u.replyAt 0 with
  | ok level => exact ⟨hu, h, hh, rfl⟩
  | err code => exact ⟨nofun, hu, h, hh, rfl⟩

theorem driveLow_undisturbed : Op.Undisturbed H driveLow :=
  (busEvent_undisturbed hH _ _).bind fun _ => .onModify (fun _ _ => rfl) fun _ hu => hu

theorem release_undisturbed : Op.Undisturbed H release :=
  (busEvent_undisturbed hH _ _).bind fun _ => .onModify (fun _ _ => rfl) fun _ hu => hu

theorem holdHigh_undisturbed : Op.Undisturbed H holdHigh :=
  (busEvent_undisturbed hH _ _).bind fun _ => .onModify (fun _ _ => rfl) fun _ hu => hu

theorem delay_undisturbed (t : DelayName) : Op.Undisturbed H (delay t) :=
  (moment_undisturbed hH).bind fun _ => .onModify (fun _ _ => rfl) fun _ hu => hu

theorem setResult_undisturbed (r : SrchResult) : Op.Undisturbed H (setResult r) :=
  (moment_undisturbed hH).bind fun _ => .onModify (fun _ _ => rfl) fun _ hu => hu

theorem readSlot_undisturbed : Op.Undisturbed H readSlot :=
  (driveLow_undisturbed hH).bind fun _ => (delay_undisturbed hH _).bind fun _ =>
    (release_undisturbed hH).bind fun _ => (delay_undisturbed hH _).bind fun _ =>
    (busEvent_undisturbed hH _ _).bind fun _ => (delay_undisturbed hH _).bind fun _ => .pure _

theorem writeSlot_undisturbed (v : Bool) : Op.Undisturbed H (writeSlot v) :=
  (driveLow_undisturbed hH).bind fun _ => (delay_undisturbed hH _).bind fun _ =>
    (release_undisturbed hH).bind fun _ => delay_undisturbed hH _

theorem readBits_undisturbed : ∀ (n i : Nat) (acc : Byte), Op.Undisturbed H (readBits n i acc)
  | 0, _, _ => .pure _
  | n + 1, _, _ => (readSlot_undisturbed hH).bind fun _ => readBits_undisturbed n _ _

theorem writeBits_undisturbed : ∀ (n i : Nat) (b : Byte), Op.Undisturbed H (writeBits n i b)
  | 0, _, _ => .pure _
  | n + 1, _, _ => (writeSlot_undisturbed hH _).bind fun _ => writeBits_undisturbed n _ _

theorem writeByteSeq_undisturbed (b : Byte) (hold : Bool) : Op.Undisturbed H (writeByteSeq b hold) :=
  (writeBits_undisturbed hH _ _ _).bind fun _ =>
    .ite (holdHigh_undisturbed hH) (release_undisturbed hH)

theorem writeBytes_undisturbed (hold : Bool) : ∀ bs : List Byte, Op.Undisturbed H (writeBytes bs hold)
  | [] => .pure _
  | [b] => writeByteSeq_undisturbed hH b hold
  | _ :: c :: rest => (writeByteSeq_undisturbed hH _ _).bind fun _ =>
    writeBytes_undisturbed hold (c :: rest)

theorem sendPayload_undisturbed (bs : List Byte) : Op.Undisturbed H (sendPayload bs) :=
  .getBind (fun _ _ => rfl) fun _ => writeBytes_undisturbed hH _ _

theorem selectDevice_undisturbed (a : Addr) : Op.Undisturbed H (selectDevice a) :=
  (writeByteSeq_undisturbed hH _ _).bind fun _ => sendPayload_undisturbed hH _

theorem pollWireHigh_undisturbed : ∀ n : Nat, Op.Undisturbed H (pollWireHigh n)
  | 0 => .raise _
  | n + 1 => (busEvent_undisturbed hH _ _).bind fun _ =>
    .ite (.pure _) ((delay_undisturbed hH _).bind fun _ => pollWireHigh_undisturbed n)

theorem ensureWireHigh_undisturbed : Op.Undisturbed H ensureWireHigh :=
  .getBind (fun _ _ => rfl) fun _ =>
    .ite ((release_undisturbed hH).bind fun _ => pollWireHigh_undisturbed hH _)
      (pollWireHigh_undisturbed hH _)

theorem presenceWindow_undisturbed : ∀ (n : Nat) (p : Bool), Op.Undisturbed H (presenceWindow n p)
  | 0, _ => .pure _
  | n + 1, _ => (delay_undisturbed hH _).bind fun _ => (busEvent_undisturbed hH _ _).bind fun _ =>
    presenceWindow_undisturbed n _

theorem busReset_undisturbed : Op.Undisturbed H busReset :=
  (ensureWireHigh_undisturbed hH).bind fun _ => (driveLow_undisturbed hH).bind fun _ =>
    (delay_undisturbed hH _).bind fun _ => (release_undisturbed hH).bind fun _ =>
    (delay_undisturbed hH _).bind fun _ => (presenceWindow_undisturbed hH _ _).bind fun _ =>
    (delay_undisturbed hH _).bind fun _ =>
    .modifyBind (fun _ _ => rfl) (fun _ hu => hu) fun _ => .pure _

theorem readIntoBuf_undisturbed : ∀ r k : Nat, Op.Undisturbed H (readIntoBuf r k)
  | 0, _ => .pure _
  | r + 1, k => (readBits_undisturbed hH _ _ _).bind fun _ =>
    .modifyBind (fun _ _ => rfl) (fun _ hu => hu) fun _ =>
    (readIntoBuf_undisturbed r (k + 1)).bind fun _ => .pure _

theorem transaction_undisturbed (a : Addr) {payload : Op Unit} (r : Nat)
    (hpay : Op.Undisturbed H payload) : Op.Undisturbed H (transaction a payload r) :=
  (busReset_undisturbed hH).bind fun _ => (selectDevice_undisturbed hH a).bind fun _ =>
    hpay.bind fun _ => readIntoBuf_undisturbed hH r 0

theorem replay_undisturbed : ∀ n i : Nat, Op.Undisturbed H (replay n i)
  | 0, _ => .pure _
  | n + 1, i => (readSlot_undisturbed hH).bind fun _ => (readSlot_undisturbed hH).bind fun _ =>
    .ite (.pure _) (.getBind (fun _ _ => rfl) fun _ =>
      (writeSlot_undisturbed hH _).bind fun _ => replay_undisturbed n (i + 1))

theorem decideBit_undisturbed (i : Nat) (disc : Option Bool) (dir : Bool) :
    Op.Undisturbed H (decideBit i disc dir) :=
  .modifyBind (fun _ _ => rfl) (fun _ hu => hu) fun _ =>
    writeSlot_undisturbed hH dir

theorem discover_undisturbed (ld : Option Nat) : ∀ (n i : Nat) (new : Bool),
    Op.Undisturbed H (discover ld n i new)
  | 0, _, _ => .pure _
  | n + 1, i, _ =>
    have hd := fun disc dir new => (decideBit_undisturbed hH i disc dir).bind fun _ =>
      discover_undisturbed ld n (i + 1) new
    (readSlot_undisturbed hH).bind fun _ => (readSlot_undisturbed hH).bind fun _ =>
      .ite (hd _ _ _) (.ite (.pure _) (.ite (hd _ _ _) (hd _ _ _)))

theorem foundDevice_undisturbed (new : Bool) : Op.Undisturbed H (foundDevice new) :=
  .modifyBind (fun _ _ => rfl) (fun _ hu => hu) fun _ =>
    .modifyBind (fun _ _ => rfl) (fun _ hu => hu) fun _ =>
    (setResult_undisturbed hH _).bind fun _ => (moment_undisturbed hH).bind fun _ =>
    .onModify (fun _ _ => rfl) fun _ hu => hu

theorem discoverFrom_undisturbed (ld : Option Nat) (start : Nat) :
    Op.Undisturbed H (discoverFrom ld start) :=
  (discover_undisturbed hH ld _ _ _).bind fun
    | some _ => foundDevice_undisturbed hH _
    | none => setResult_undisturbed hH _

theorem endSearch_undisturbed : Op.Undisturbed H endSearch :=
  (moment_undisturbed hH).bind fun _ =>
    .modifyBind (fun _ _ => rfl) (fun _ hu => hu) fun _ =>
    setResult_undisturbed hH _

theorem search_undisturbed {send : Op Unit} (hsend : Op.Undisturbed H send) :
    Op.Undisturbed H (search send) := by
  refine .getBind (fun _ _ => rfl) fun _ => .ite (setResult_undisturbed hH _) ?_
  refine (busReset_undisturbed hH).bind fun _ => .ite ?_ (setResult_undisturbed hH _)
  refine hsend.bind fun _ => .getBind (fun _ _ => rfl) fun u => ?_
  cases lastDiscrepancy u.sdisc with
  | some ld =>
    exact (replay_undisturbed hH _ _).bind fun _ =>
      .ite (discoverFrom_undisturbed hH _ _) (setResult_undisturbed hH _)
  | none => exact .ite (endSearch_undisturbed hH) (discoverFrom_undisturbed hH _ _)

/-- The moment before completion is a moment, whether the body returned or raised. -/
theorem landLast_undisturbed {body : Op Unit} (hbody : Op.Undisturbed H body) :
    Op.Undisturbed H (landLast body) := by
  intro u h hu hh
  have hb := hbody u h hu hh
  simp only [landLast, EStateM.run] at hb ⊢
  cases hr : body u with
  | ok a v =>
    rw [hr] at hb
    obtain ⟨hv, h', hh', hx⟩ := hb
    simp only [hx]
    exact moment_undisturbed hH v h' hv hh'
  | error e v =>
    rw [hr] at hb
    obtain ⟨he, hv, h₁, hh₁, hx⟩ := hb
    cases e with
    | abandoned => exact absurd rfl he
    | raised e =>
      obtain ⟨hquiet, h', hh', hlands⟩ := moment_running hH hv hh₁
      simp only [EStateM.run] at hquiet hlands
      simp only [hx, hquiet, hlands]
      exact ⟨he, hv, h', hh', rfl⟩

end

/-! ## Commands -/

/-- The body runs the same whatever host accesses land. -/
abbrev Harmless (body : Op Unit) : Prop := ∀ H, HostClosed H → Op.Undisturbed H body

/-- What lands after `first` did. -/
theorem hostClosed_landedFrom {h : HostSide} (ha : h.AccessesOnly) (first : List Arrival) :
    HostClosed fun h' => ∃ more, Landed h (first ++ more) h' where
  accesses := fun _ ⟨_, hl⟩ => hl.accessesOnly ha
  lands := fun _ _ _ ⟨more, hl⟩ hl' => by
    obtain ⟨later, hl⟩ := hl.trans hl'
    exact ⟨more ++ later, by rwa [← List.append_assoc]⟩

/-- A command from acceptance to completion: both runs end in the same state but for the host side, and what
was due at acceptance has landed. -/
theorem finish_withHost (isSearch : Bool) {body : Op Unit} (hbody : Harmless body) {u : State}
    (hu : Running u) {h : HostSide} (ha : h.AccessesOnly) :
    ∃ landed h', Landed h landed h' ∧ DueLands h landed ∧
      finish isSearch ((bracket body).run (u.withHost h))
        = (finish isSearch ((bracket body).run u)).withHost h' := by
  obtain ⟨first, h₁, hfirst, hl₁, hdue⟩ := moment_withHost hu ha
  have hquiet : moment.run u = .ok () u := moment_quiet (by simp [Quiet, hu.2.2])
  have hH := hostClosed_landedFrom ha first
  have hb := landLast_undisturbed hH (hbody _ hH) u h₁ hu ⟨[], by rwa [List.append_nil]⟩
  have hdue' : ∀ more, DueLands h (first ++ more) := fun more a hhead hm =>
    List.mem_append_left _ (hdue a hhead hm)
  unfold bracket
  rw [Op.bind_ok _ hfirst, Op.bind_ok _ hquiet]
  cases hr : (landLast body).run u with
  | ok a v =>
    rw [hr] at hb
    obtain ⟨-, h', ⟨more, hl⟩, hx⟩ := hb
    exact ⟨first ++ more, h', hl, hdue' more, by rw [hx]; rfl⟩
  | error e v =>
    rw [hr] at hb
    obtain ⟨he, -, h', ⟨more, hl⟩, hx⟩ := hb
    refine ⟨first ++ more, h', hl, hdue' more, ?_⟩
    rw [hx]
    cases e with
    | abandoned => exact absurd rfl he
    | raised e => rfl

/-- An instruction leaves the same with host accesses landing in it as with none, but for the host side. -/
def RunsUndisturbed (run : State → Host.Outcome State Fault Refusal) : Prop :=
  ∀ s : State, s.rst = false → s.hostSide.AccessesOnly →
    ∃ u landed h', run s = .next (u.withHost h') ∧ run (s.withInbox []) = .next u ∧
      Landed s.hostSide landed h' ∧ DueLands s.hostSide landed

theorem runCommand_undisturbed (isSearch : Bool) {body : Op Unit} (hbody : Harmless body) :
    RunsUndisturbed (runCommand isSearch body) := by
  intro s hrst ha
  obtain ⟨landed, h', hl, hdue, hfin⟩ :=
    finish_withHost isSearch hbody (u := (accept s).withInbox []) ⟨rfl, hrst, rfl⟩ ha
  exact ⟨_, landed, h', congrArg Host.Outcome.next hfin, rfl, hl, hdue⟩

theorem runWire_undisturbed {body : Op Unit} (hbody : Harmless body) :
    RunsUndisturbed (runWire body) := by
  intro s hrst ha
  obtain ⟨landed, h', hl, hdue, hfin⟩ := finish_withHost false hbody
    (u := { s with busy := true, seq := .busy s.cur 0 }.withInbox []) ⟨rfl, hrst, rfl⟩ ha
  exact ⟨_, landed, h', congrArg Host.Outcome.next hfin, rfl, hl, hdue⟩

theorem sendConvertT_harmless : Harmless sendConvertT := fun _ hH => sendPayload_undisturbed hH [0x44]

theorem sendReadScratchpad_harmless : Harmless sendReadScratchpad :=
  fun _ hH => sendPayload_undisturbed hH [0xBE]

theorem exec_undisturbed (i : Instr) : RunsUndisturbed (exec i) := by
  cases i with
  | nop => exact runCommand_undisturbed false fun _ _ => .pure _
  | owReset => exact runCommand_undisturbed false fun _ hH => (busReset_undisturbed hH).bind fun _ => .pure _
  | owReadBit =>
    exact runCommand_undisturbed false fun _ hH =>
      (readSlot_undisturbed hH).bind fun _ => .onModify (fun _ _ => rfl) fun _ hu => hu
  | owWriteBit v => exact runCommand_undisturbed false fun _ hH => writeSlot_undisturbed hH v
  | owReadByte =>
    exact runCommand_undisturbed false fun _ hH =>
      (readBits_undisturbed hH _ _ _).bind fun _ => .onModify (fun _ _ => rfl) fun _ hu => hu
  | owWriteByte hold =>
    exact runCommand_undisturbed false fun _ hH =>
      .getBind (fun _ _ => rfl) fun _ => writeByteSeq_undisturbed hH _ hold
  | owSelect =>
    exact runCommand_undisturbed false fun _ hH =>
      .getBind (fun _ _ => rfl) fun _ => selectDevice_undisturbed hH _
  | searchInit =>
    exact runCommand_undisturbed false fun _ hH =>
      .modifyBind (fun _ _ => rfl) (fun _ hu => hu) fun _ => setResult_undisturbed hH _
  | searchNext | searchAlarm =>
    exact runCommand_undisturbed true fun _ hH => search_undisturbed hH (writeByteSeq_undisturbed hH _ _)
  | crcCheckRom =>
    exact runCommand_undisturbed false fun _ _ =>
      .getBind (fun _ _ => rfl) fun _ => checkCrc_undisturbed _ _
  | crc8Compute seed len =>
    exact runCommand_undisturbed false fun _ _ =>
      (checkLen_undisturbed len).bind fun _ => .onModify (fun _ _ => rfl) fun _ hu => hu
  | rsWrite len =>
    exact runCommand_undisturbed false fun _ hH => (checkLen_undisturbed len).bind fun _ =>
      .getBind (fun _ _ => rfl) fun _ =>
      (transaction_undisturbed hH _ _ (sendPayload_undisturbed hH _)).bind fun _ => .pure _
  | rsRead len =>
    exact runCommand_undisturbed false fun _ hH => (checkLen_undisturbed len).bind fun _ =>
      .getBind (fun _ _ => rfl) fun _ =>
      (transaction_undisturbed hH _ _ (sendPayload_undisturbed hH _)).bind fun _ => .pure _
  | dsBind force =>
    exact runCommand_undisturbed false fun _ _ =>
      .getBind (fun _ _ => rfl) fun _ => .ite (.raise _) (.onModify (fun _ _ => rfl) fun _ hu => hu)
  | dsStart =>
    exact runCommand_undisturbed false fun _ hH => checkSensor_undisturbed.bind fun _ =>
      .getBind (fun _ _ => rfl) fun _ =>
      (transaction_undisturbed hH _ _ (sendConvertT_harmless _ hH)).bind fun _ =>
      .onModify (fun _ _ => rfl) fun _ hu => hu
  | dsRead =>
    exact runCommand_undisturbed false fun _ hH => checkSensor_undisturbed.bind fun _ =>
      .getBind (fun _ _ => rfl) fun _ =>
      (transaction_undisturbed hH _ _ (sendReadScratchpad_harmless _ hH)).bind fun _ =>
      .getBind (fun _ _ => rfl) fun _ => (checkCrc_undisturbed _ _).bind fun _ =>
      .onModify (fun _ _ => rfl) fun _ hu => hu
  | splitTemp =>
    exact runCommand_undisturbed false fun _ _ => .onModify (fun _ _ => rfl) fun _ hu => hu
  | reserved1213 op | reserved1417 op | reserved181F op =>
    exact runCommand_undisturbed false fun _ _ => .raise _
  | wireSearchRom | wireAlarmSearch | wireSelectRom =>
    exact runWire_undisturbed fun _ hH => writeByteSeq_undisturbed hH _ _
  | wireConvertT => exact runWire_undisturbed sendConvertT_harmless
  | wireReadScratchpad => exact runWire_undisturbed sendReadScratchpad_harmless

/-- Settles O22: the run with the accesses and the run with none, in step by `exec_undisturbed`; what landed
and the `OVR` it left, by `Landed`. -/
theorem hostAccessesDoNotDisturbCommands : Obligations.HostAccessesDoNotDisturbCommands := by
  intro i s hrst hacc
  obtain ⟨u, landed, h', hrun, halone, ⟨⟨left, hsplit, hkeys⟩, hovr, hidle⟩, hdue⟩ :=
    exec_undisturbed i s hrst hacc
  refine ⟨u.withHost h', u, hrun, halone, rfl, landed, left, hsplit, ?_, hovr, hidle, hdue⟩
  have hevents := congrArg (List.map Prod.fst) hkeys
  rw [List.map_map, List.map_map] at hevents
  exact hevents

end Sys2Proof.Machine
end

section
/-!
SUPPORT. Decoding and encoding: the fields of an assembled command word, the bytes of a word, and what a
command word decodes to (30_encoding.md R80 to R92).
-/

namespace Sys2Proof

/-! ## Fields and bytes of a command word -/

/-- The fields of an assembled word are those it was assembled from (30_encoding.md R81). -/
theorem fields_hostWord (op : BitVec 5) (hold bitval force seed : Bool) (len : BitVec 5) :
    opField (hostWord op hold bitval force seed len) = op ∧
    holdField (hostWord op hold bitval force seed len) = hold ∧
    bitvalField (hostWord op hold bitval force seed len) = bitval ∧
    forceField (hostWord op hold bitval force seed len) = force ∧
    seedField (hostWord op hold bitval force seed len) = seed ∧
    lenField (hostWord op hold bitval force seed len) = len := by
  refine ⟨?_, ?_, ?_, ?_, ?_, ?_⟩
  case refine_1 | refine_6 =>
    simp (disch := decide) only [opField, lenField, hostWord, BitVec.extractLsb'_append_eq_of_add_le,
      BitVec.extractLsb'_append_eq_of_le, BitVec.extractLsb'_eq_self, Nat.reduceSub]
  all_goals
    simp only [holdField, bitvalField, forceField, seedField, hostWord, BitVec.getLsbD_append,
      BitVec.getLsbD_ofBool]
    simp

/-- Four bytes of a word, put together again, are the word (30_encoding.md R80). -/
theorem decode_wordBytes (w : Word) : decode (wordBytes w) = .ok (decodeHost w) := by
  have hword : w.extractLsb' 24 8 ++ w.extractLsb' 16 8 ++ w.extractLsb' 8 8 ++ w.extractLsb' 0 8
      = w := by
    apply BitVec.eq_of_getLsbD_eq
    intro i hi
    simp only [BitVec.getLsbD_append, BitVec.getLsbD_extractLsb']
    interval_cases i <;> rfl
  exact congrArg (fun v => Except.ok (decodeHost v)) hword

/-! ## What a command word decodes to -/

/-- A command word is read through its fields alone (30_encoding.md R82). -/
theorem decodeHost_congr {v w : Word} (hop : opField v = opField w)
    (hhold : holdField v = holdField w) (hbitval : bitvalField v = bitvalField w)
    (hforce : forceField v = forceField w) (hseed : seedField v = seedField w)
    (hlen : lenField v = lenField w) : decodeHost v = decodeHost w := by
  simp only [decodeHost, hop, hhold, hbitval, hforce, hseed, hlen]

/-- A command word decodes to a command that has an encoding (30_encoding.md R85, R90). -/
theorem wf_decodeHost (w : Word) : (decodeHost w).wf = true := by
  unfold decodeHost
  split
  case h_19 h | h_20 h | h_21 h | h_22 h | h_23 h | h_24 h => simp [Instr.wf, BitVec.le_def, h]
  case h_25 =>
    have hop : 24 ≤ (opField w).toNat := by
      simp only [imp_false] at *
      omega
    simpa [Instr.wf, BitVec.le_def] using hop
  all_goals rfl

theorem isHost_decodeHost (w : Word) : (decodeHost w).isHost = true := by
  unfold decodeHost
  split <;> rfl

/-- The word of a host command decodes to it (30_encoding.md R81, R85). -/
theorem decodeHost_encodeWord {i : Instr} (hwf : i.wf = true) (hhost : i.isHost = true) :
    decodeHost (encodeWord i) = i := by
  cases i with
  | owWriteBit _ | owWriteByte _ | crc8Compute _ _ | rsWrite _ | rsRead _ | dsBind _ =>
    simp [encodeWord, decodeHost, fields_hostWord]
  | reserved1213 op | reserved1417 op | reserved181F op =>
    revert op
    decide
  | wireSearchRom | wireAlarmSearch | wireSelectRom | wireConvertT | wireReadScratchpad =>
    exact absurd hhost nofun
  | _ => rfl

/-! ## The obligations -/

/-- Settles O2: the bytes of a host command are those of its word, and each wire byte is its own. -/
theorem decodeOfEncodeIsIdentity : Obligations.DecodeOfEncodeIsIdentity := by
  intro i hwf
  cases hhost : i.isHost with
  | true => rw [encode, if_pos hhost, decode_wordBytes, decodeHost_encodeWord hwf hhost]
  | false =>
    cases i with
    | wireSearchRom | wireAlarmSearch | wireSelectRom | wireConvertT | wireReadScratchpad => rfl
    | _ => exact absurd hhost nofun

/-- Settles O3: equal under the mask means equal in every field. -/
theorem reservedBitsDoNotMatter : Obligations.ReservedBitsDoNotMatter := by
  intro v w h
  have hbit : ∀ i < 32, (0x001F0F1F#32).getLsbD i = true → v.getLsbD i = w.getLsbD i := by
    intro i hi hm
    have hi' := congrArg (fun u : Word => u.getLsbD i) h
    simpa only [BitVec.getLsbD_and, hm, Bool.and_true] using hi'
  have hfield : ∀ p, (∀ k < 5, (0x001F0F1F#32).getLsbD (p + k) = true) → p + 5 ≤ 32 →
      v.extractLsb' p 5 = w.extractLsb' p 5 := by
    intro p hp hle
    apply BitVec.eq_of_getLsbD_eq
    intro k hk
    simp only [BitVec.getLsbD_extractLsb', hbit (p + k) (by omega) (hp k hk)]
  exact decodeHost_congr (hfield 0 (by decide) (by decide)) (hbit 8 (by decide) rfl)
    (hbit 9 (by decide) rfl) (hbit 10 (by decide) rfl) (hbit 11 (by decide) rfl)
    (hfield 16 (by decide) (by decide))

/-- Settles O4: what a word decodes to has an encoding, which decodes to it. -/
theorem commandWordsNormalise : Obligations.CommandWordsNormalise := fun w =>
  ⟨wf_decodeHost w, isHost_decodeHost w,
    decodeHost_encodeWord (wf_decodeHost w) (isHost_decodeHost w)⟩

/-- Settles O1: the decoder run on eleven fixed words and bytes. -/
theorem specWordsDecode : Obligations.SpecWordsDecode :=
  ⟨rfl, rfl, rfl, rfl, rfl, rfl, rfl, rfl, rfl, rfl, rfl⟩

/-- Settles O5: the branches of the decoder of wire bytes. -/
theorem exactlyFiveWireCommands : Obligations.ExactlyFiveWireCommands := by
  intro b i
  constructor
  · intro h
    unfold decodeWire at h
    split at h
    case h_6 => cases h
    all_goals
      cases h
      rename_i hb
      simp [← BitVec.toNat_inj, hb]
  · rintro (⟨rfl, rfl⟩ | ⟨rfl, rfl⟩ | ⟨rfl, rfl⟩ | ⟨rfl, rfl⟩ | ⟨rfl, rfl⟩) <;> rfl

end Sys2Proof
end

section
/-!
SUPPORT. A step that starts a command, what acceptance raises, and a wire command run by itself
(30_encoding.md R83, R86, R90, R91).
-/

namespace Sys2Proof.Machine

/-! ## The step that starts a command -/

/-- A 32-bit write to `CMD` of an idle block asks for the command of its word (30_encoding.md R86). -/
theorem commandWord_write_cmd {s : State} {off : BitVec 7} (hrst : s.rst = false)
    (hbusy : s.busy = false) (hcmd : regAt off = some .cmd) (w : Word) :
    commandWord (.write off 0xF w) s = some w := by
  simp [commandWord, hrst, hbusy, hcmd]

/-- An access that asks for a command finds the block idle and out of reset (30_encoding.md R86). -/
theorem idle_of_commandWord {a : Access} {s : State} {w : Word} (h : commandWord a s = some w) :
    s.rst = false ∧ s.busy = false := by
  cases a with
  | read off lanes => cases h
  | write off lanes v =>
    rw [commandWord] at h
    split at h
    next hc =>
      simp only [Bool.and_eq_true, Bool.not_eq_true'] at hc
      exact hc.1.1
    next => cases h

/-- The word is latched in `CUR` and its command runs (10_state.md R28). -/
theorem stepEvent_command {a : Access} {s : State} {w : Word} (h : commandWord a s = some w) :
    stepEvent (.access a) s = exec (decodeHost w) { s with cur := w } := by
  simp only [stepEvent, h]

/-! ## What acceptance raises -/

/-- A command that raises at once records the error, with no bus event (60_exceptions.md R251, R253). -/
theorem runCommand_raise_at_acceptance {body : Op Unit} {s : State} {e : Error} (hq : Quiet s)
    (h : body.run (accept s) = .error (.raised e) (accept s)) :
    runCommand false body s = .next (s.afterRaise e 0 [] s.line) := by
  have hrecord : complete (recordError false e (accept s)) = s.afterRaise e 0 [] s.line := by
    rw [State.afterRaise, ← complete_accept]
    rfl
  exact runCommand_raise hq h hq hrecord

/-! ## A wire command run by itself -/

/-- The state in which a wire command by itself starts (log entry 11). -/
def State.wireBusy (s : State) : State := { s with busy := true, seq := .busy s.cur 0 }

/-- A wire command that puts its byte on the bus leaves the block idle again, and `ERR` as it was
(30_encoding.md R91; log entry 11). -/
theorem runWire_sends {body : Op Unit} {s : State} {b : Byte} {hold : Bool} (hq : Quiet s)
    (h : body.run (s.wireBusy.ran 0 [] s.line)
      = .ok () (s.wireBusy.ran 17 (writeByteTrace b hold) (lineAfter hold))) :
    runWire body s = .next { s.afterBus 17 (writeByteTrace b hold) with
      busy := false, seq := .idle, line := lineAfter hold } := by
  have hstart : s.wireBusy.ran 0 [] s.line = s.wireBusy := State.ran_zero s.wireBusy
  rw [hstart] at h
  have hrun := bracket_ok (s := s.wireBusy) hq (by exact hq) h
  exact congrArg (fun r => Host.Outcome.next (finish false r)) hrun

section
variable {s : State} (hq : Quiet s) (hb : BusOk s 17)
include hq hb

/-- A byte sent without hold (41_device_search.md R154, 43_select_transactions.md R200). -/
theorem runWire_writeByteSeq (b : Byte) :
    runWire (writeByteSeq b false) s = .next { s.afterBus 17 (writeByteTrace b false) with
      busy := false, seq := .idle, line := lineAfter false } :=
  runWire_sends hq (writeByteSeq_ran (s := s.wireBusy) hq hb (n := 0) (e := []) b false le_rfl)

/-- A byte that is the final one of its transaction, held when `CTRL.PARASITE = 1`
(43_select_transactions.md R203). -/
theorem runWire_sendPayload (b : Byte) :
    runWire (sendPayload [b]) s = .next { s.afterBus 17 (writeByteTrace b s.parasite) with
      busy := false, seq := .idle, line := lineAfter s.parasite } :=
  runWire_sends hq (sendPayload_ran (s := s.wireBusy) hq hb (n := 0) (e := []) [b] le_rfl)

end

/-! ## The obligations -/

/-- Settles O6: the write is the next event, and its bytes decode to what its word decodes to. -/
theorem stepRunsTheCommandWritten : Obligations.StepRunsTheCommandWritten := by
  intro s m off w rest i hw hrst hbusy hinbox hcmd hi
  obtain rfl : decodeHost w = i := Except.ok.inj ((decode_wordBytes w).symm.trans hi)
  rw [step_event hw hinbox]
  exact stepEvent_command (commandWord_write_cmd hrst hbusy hcmd w)

/-- Settles O7: the byte pending decodes to the instruction. -/
theorem stepRunsTheWireCommand : Obligations.StepRunsTheWireCommand := by
  intro s b i hw hi
  have hdec : decodeWire b = .ok i := hi
  simp only [step, hw, stepWire, hdec]

/-- Settles O24: each check raises at once. -/
theorem acceptanceChecksRaise : Obligations.AcceptanceChecksRaise := by
  intro i seed len op s hq
  refine ⟨?_, fun hi hlen => ?_, fun hi hsensor => ?_⟩
  · rintro (rfl | rfl | rfl) <;> exact runCommand_raise_at_acceptance hq rfl
  · have hcheck := checkLen_raise (accept s) hlen
    obtain rfl | rfl | rfl := hi <;>
      exact runCommand_raise_at_acceptance hq (Op.bind_error _ hcheck)
  · have hcheck := checkSensor_raise (s := accept s) hsensor
    obtain rfl | rfl := hi <;>
      exact runCommand_raise_at_acceptance hq (Op.bind_error _ hcheck)

/-- Settles O33: three bytes are sent without hold, and two as the final byte of a transaction. -/
theorem wireCommandsSendTheirByte : Obligations.WireCommandsSendTheirByte := by
  intro i s hi hq hb
  cases i with
  | wireSearchRom | wireAlarmSearch | wireSelectRom => exact runWire_writeByteSeq hq hb _
  | wireConvertT | wireReadScratchpad => exact runWire_sendPayload hq hb _
  | _ => exact absurd hi nofun

end Sys2Proof.Machine
end

section
/-!
SUPPORT. The invariant of the machine (`Inv`): what of it holds in the course of a command, for every bus and
every schedule, and what the three ends of a command make of that (60_exceptions.md R251,
70_reset_and_hazards.md R281).
-/

namespace Sys2Proof.Machine

/-! ## What holds in the course of a command -/

/-- What a command keeps at every moment of its course. -/
structure Midway (s : State) : Prop where
  busy : s.busy = true
  rst : s.rst = false
  wireCmd : s.wireCmd = none
  err : s.err = .none
  crcFlag : s.crcOk = true → s.crcComputed = s.crcExpected
  branches : s.saddr &&& s.sdisc = 0
  ended : s.sphase = .ended → s.sdisc = 0
  unbound : s.sensorValid = false → s.sensor = 0 ∧ s.sensorRes = 3 ∧ s.waitMs = 0
  waits : s.waitMs = 0 ∨ s.waitMs = 94 ∨ s.waitMs = 188 ∨ s.waitMs = 375 ∨ s.waitMs = 750

/-- The device returned is the address accumulated (41_device_search.md R159); a search suspends this while
it walks. -/
abbrev FoundAgrees (s : State) : Prop := s.srchResult = .found → s.found = s.saddr

/-- What a command other than a search keeps at every moment of its course. -/
abbrev Sound (s : State) : Prop := Midway s ∧ FoundAgrees s

/-- A CRC mismatch is raised of the two bytes that `CRC` holds (60_exceptions.md R250). -/
abbrev HoldsMismatch (e : Error) (s : State) : Prop :=
  ∀ c x, e = .crcMismatch c x → s.crcOk = false ∧ s.crcComputed = c ∧ s.crcExpected = x

/-- What holds where a command raises; a raise in a search overwrites the result (60_exceptions.md R251). -/
abbrev Raises (isSearch : Bool) (e : Error) (s : State) : Prop :=
  Midway s ∧ (isSearch = true ∨ FoundAgrees s) ∧ HoldsMismatch e s

/-- Bus activity, and the results the invariant does not speak of in the course of a command. -/
abbrev OnlyUntracked (s t : State) : Prop :=
  t = { s with
    ovr := t.ovr, seq := t.seq, line := t.line, timebase := t.timebase, world := t.world
    presence := t.presence, data := t.data, buf := t.buf, tempRaw := t.tempRaw, tempSplit := t.tempSplit }

/-- The search state and its results. -/
abbrev OnlySearch (s t : State) : Prop :=
  t = { s with
    saddr := t.saddr, sdisc := t.sdisc, sphase := t.sphase, found := t.found, srchResult := t.srchResult }

theorem Midway.untracked {s t : State} (h : Midway s) (ht : OnlyUntracked s t) : Midway t := by
  rw [ht]
  exact ⟨h.busy, h.rst, h.wireCmd, h.err, h.crcFlag, h.branches, h.ended, h.unbound, h.waits⟩

/-- The search state may move between legal places of a walk. -/
theorem Midway.moveSearch {s t : State} (h : Midway s) (ht : OnlySearch s t)
    (hbranches : t.saddr &&& t.sdisc = 0) (hended : t.sphase = .ended → t.sdisc = 0) : Midway t := by
  rw [ht] at hbranches hended ⊢
  exact ⟨h.busy, h.rst, h.wireCmd, h.err, h.crcFlag, hbranches, hended, h.unbound, h.waits⟩

theorem sound_untracked {s t : State} (h : Sound s) (ht : OnlyUntracked s t) : Sound t :=
  ⟨h.1.untracked ht, by rw [ht]; exact h.2⟩

theorem sound_crcEval {s : State} (h : Sound s) (c x : Byte) : Sound (s.crcEval c x) := by
  obtain ⟨hs, hfound⟩ := h
  exact ⟨⟨hs.busy, hs.rst, hs.wireCmd, hs.err, eq_of_beq, hs.branches, hs.ended, hs.unbound, hs.waits⟩,
    hfound⟩

theorem midway_busClosed : BusClosed Midway where
  running := fun _ h => ⟨h.busy, h.rst⟩
  closed := fun s t h ht => h.untracked (by rw [ht])

/-- A further condition on what bus activity leaves alone. -/
theorem BusClosed.and {P R : State → Prop} (hP : BusClosed P)
    (hR : ∀ s t, R s → OnlyBus s t → R t) : BusClosed fun s => P s ∧ R s where
  running := fun s h => hP.running s h.1
  closed := fun s t h ht => ⟨hP.closed s t h.1 ht, hR s t h.2 ht⟩

theorem sound_busClosed : BusClosed Sound :=
  midway_busClosed.and fun s t h ht => by rw [ht]; exact h

theorem raises_busClosed (isSearch : Bool) (e : Error) : BusClosed (Raises isSearch e) :=
  midway_busClosed.and fun s t h ht => by rw [ht]; exact h

/-! ## How a command starts and ends -/

theorem sound_accept {s : State} (h : Inv s) (hrst : s.rst = false) : Sound (accept s) :=
  ⟨⟨rfl, hrst, h.atRest.2.2, rfl, h.crcFlag, h.branches, h.ended, h.unbound, h.waits⟩, h.foundAddr⟩

theorem inv_complete {s : State} (h : Sound s) : Inv (complete s) where
  atRest := ⟨rfl, rfl, h.1.wireCmd⟩
  inReset := fun hr => by simp [h.1.rst] at hr
  crcFlag := h.1.crcFlag
  mismatch := fun he => by simp [h.1.err] at he
  noDetail := fun he => by simp [h.1.err] at he
  branches := h.1.branches
  ended := h.1.ended
  foundAddr := h.2
  unbound := h.1.unbound
  waits := h.1.waits

theorem inv_complete_recordError {isSearch : Bool} {e : Error} {s : State} (h : Raises isSearch e s) :
    Inv (complete (recordError isSearch e s)) := by
  obtain ⟨hs, hfound, he⟩ := h
  exact
    { atRest := ⟨rfl, rfl, hs.wireCmd⟩
      inReset := fun hr => by simp [hs.rst] at hr
      crcFlag := hs.crcFlag
      mismatch := fun hcode => by
        cases e with
        | crcMismatch c x =>
          obtain ⟨hok, hc, hx⟩ := he c x rfl
          exact ⟨hok, by simp [hc, hx, Error.info]⟩
        | _ => cases hcode
      noDetail := fun hcode => by
        cases e with
        | wireNotHigh | noSensor | badCommand => rfl
        | _ => simp [Error.code] at hcode
      branches := hs.branches
      ended := hs.ended
      foundAddr := fun hr => by
        cases isSearch with
        | true => cases hr
        | false => exact hfound.resolve_left nofun hr
      unbound := hs.unbound
      waits := hs.waits }

/-- Block reset, and the release of `RST`, meet the invariant (10_state.md R55). -/
theorem inv_blockReset (level : Bool) (s : State) : Inv (blockReset level s) where
  atRest := ⟨rfl, rfl, rfl⟩
  inReset := fun _ => rfl
  crcFlag := fun _ => rfl
  mismatch := nofun
  noDetail := fun _ => rfl
  branches := BitVec.and_self
  ended := fun _ => rfl
  foundAddr := nofun
  unbound := fun _ => ⟨rfl, rfl, rfl⟩
  waits := .inl rfl

/-- From a state with `P`, a piece returns with `Q` or raises with what the invariant needs of a raise. -/
abbrev Op.Keeps {α : Type} (isSearch : Bool) (P : State → Prop) (x : Op α) (Q : State → Prop) : Prop :=
  Op.Triple P x (fun _ => Q) (Raises isSearch) fun _ => True

/-- Each of the three ends of a command whose body is sound meets the invariant. -/
theorem runCommand_inv {isSearch : Bool} {body : Op Unit} (hbody : Op.Keeps isSearch Sound body Sound)
    {s t : State} (hs : Inv s) (hrst : s.rst = false) (ht : runCommand isSearch body s = .next t) :
    Inv t := by
  have hbracket := bracket_triple sound_busClosed sound_busClosed (raises_busClosed isSearch) hbody
    (fun _ _ => trivial) (fun _ _ => trivial) (fun _ _ _ => trivial)
  obtain ⟨u, hu, rfl⟩ | ⟨e, u, hu, rfl⟩ | ⟨u, -, rfl⟩ :=
    runCommand_cases hbracket (sound_accept hs hrst) ht
  · exact inv_complete hu
  · exact inv_complete_recordError hu
  · exact inv_blockReset true u

/-! ## Pieces of a command -/

section
variable {α β : Type} {P P' A : State → Prop} {Q : State → Prop} {E : Error → State → Prop}
  {isSearch : Bool}

theorem Op.Triple.pre {x : Op α} {R : α → State → Prop} (h : Op.Triple P x R E A)
    (hP : ∀ s, P' s → P s) : Op.Triple P' x R E A :=
  fun s hs => h s (hP s hs)

/-- What reads the state goes on from the state it read. -/
theorem Op.Triple.getBind {f : State → Op β} {R : β → State → Prop}
    (h : ∀ a, Op.Triple (fun s => P s ∧ s = a) (f a) R E A) :
    Op.Triple P (MonadState.get >>= f) R E A :=
  (Op.Triple.get (Q := fun a s => P s ∧ s = a) fun _ hs => ⟨hs, rfl⟩).bind h

/-- A piece that only a failed bus reset can end. -/
theorem Op.Keeps.of_resetFails {x : Op α} (h : Op.Triple P x (fun _ => Q) (ResetFails P) P)
    (hP : ∀ s, P s → Midway s ∧ (isSearch = true ∨ FoundAgrees s)) : Op.Keeps isSearch P x Q := by
  refine h.mono (fun _ h => h) (fun _ _ h => h) (fun e s he => ?_) fun _ _ => trivial
  obtain ⟨hcause, hs⟩ := he
  refine ⟨(hP s hs).1, (hP s hs).2, ?_⟩
  rintro c x rfl
  obtain ⟨_, ⟨⟩⟩ | ⟨⟨⟩⟩ := hcause

theorem moment_sound (hP : BusClosed P) : Op.Keeps isSearch P moment P :=
  (moment_keeps hP).mono (fun _ h => h) (fun _ _ h => h) (fun _ _ h => h) fun _ _ => trivial

/-- A piece of a command that keeps `Sound` besides what else is known. -/
theorem Op.Keeps.of_sound {x : Op α} (h : Op.Triple P x (fun _ => Q) (ResetFails P) P)
    (hP : ∀ s, P s → Sound s) : Op.Keeps false P x Q :=
  .of_resetFails h fun s hs => ⟨(hP s hs).1, .inr (hP s hs).2⟩

theorem raise_sound {e : Error} (he : ∀ c x, e ≠ .crcMismatch c x) :
    Op.Keeps false Sound (raise e : Op α) Q :=
  .raise fun _ hs => ⟨hs.1, .inr hs.2, fun c x h => absurd h (he c x)⟩

end

theorem modify_untracked {f : State → State} (hf : ∀ s, OnlyUntracked s (f s)) :
    Op.Keeps false Sound (modify f) Sound :=
  .onModify fun s hs => sound_untracked hs (hf s)

theorem checkLen_sound (len : BitVec 5) : Op.Keeps false Sound (checkLen len) Sound :=
  .ite (fun _ => raise_sound (by nofun)) fun _ => .pure fun _ hs => hs

theorem checkCrc_sound (c x : Byte) : Op.Keeps false Sound (checkCrc c x) Sound := by
  intro s hs
  have hsound := sound_crcEval hs c x
  rw [checkCrc_run]
  by_cases h : c = x
  · rw [if_pos h]
    exact hsound
  · rw [if_neg h]
    refine ⟨hsound.1, .inr hsound.2, ?_⟩
    rintro _ _ ⟨⟩
    exact ⟨beq_eq_false_iff_ne.2 h, rfl, rfl⟩

/-- A sensor is bound: what a conversion or a reading needs (60_exceptions.md R253). -/
abbrev Bound (s : State) : Prop := Sound s ∧ s.sensorValid = true

theorem bound_busClosed : BusClosed Bound :=
  sound_busClosed.and fun s t h ht => by rw [ht]; exact h

theorem bound_untracked (s t : State) (h : Bound s) (ht : OnlyUntracked s t) : Bound t :=
  ⟨sound_untracked h.1 ht, by rw [ht]; exact h.2⟩

theorem checkSensor_sound : Op.Keeps false Sound checkSensor Bound := by
  refine .getBind fun a => .ite (fun hv => .pure ?_) fun _ =>
    (raise_sound (by nofun)).pre fun s h => h.1
  rintro s ⟨hs, rfl⟩
  exact ⟨hs, hv⟩

/-- A transaction keeps what is known of the sensor (43_select_transactions.md R203). -/
theorem transaction_sound {P : State → Prop} (hP : BusClosed P) (hs : ∀ s, P s → Sound s)
    (hu : ∀ s t, P s → OnlyUntracked s t → P t) (a : Addr) {payload : Op Unit} (r : Nat)
    (hpay : Op.Triple P payload (fun _ => P) (PortFails P) P) :
    Op.Keeps false P (transaction a payload r) P :=
  .of_sound (transaction_keeps hP (fun s _ h => hu s _ h rfl) (fun s _ _ _ h => hu s _ h rfl) hpay) hs

/-! ## The walk of a search -/

/-- A search that is not at `End` (41_device_search.md R153). -/
abbrev Searching (s : State) : Prop := Midway s ∧ s.sphase ≠ .ended

/-- Discovery stands at bit `i`: no discrepancy is pending from there on but the resumed one
(41_device_search.md R150, R157). -/
abbrev WalkingAt (ld : Option Nat) (i : Nat) (s : State) : Prop :=
  Searching s ∧ ∀ j, i ≤ j → ld ≠ some j → s.sdisc.getLsbD j = false

theorem searching_busClosed : BusClosed Searching :=
  midway_busClosed.and fun s t h ht => by rw [ht]; exact h

theorem walkingAt_busClosed (ld : Option Nat) (i : Nat) : BusClosed (WalkingAt ld i) :=
  searching_busClosed.and fun s t h ht => by rw [ht]; exact h

/-- A piece of a search that only a failed bus event can end. -/
theorem Op.Keeps.of_portFails {α : Type} {P Q : State → Prop} {x : Op α}
    (h : Op.Triple P x (fun _ => Q) (PortFails P) P) (hP : ∀ s, P s → Midway s) :
    Op.Keeps true P x Q :=
  .of_resetFails (portFails_resetFails h) fun s hs => ⟨hP s hs, .inl rfl⟩

/-- A result other than a device leaves nothing to agree with (41_device_search.md R159). -/
theorem setResult_sound {isSearch : Bool} {P : State → Prop} (hP : BusClosed P)
    (hs : ∀ s, P s → Midway s) {r : SrchResult} (hr : r ≠ .found) :
    Op.Keeps isSearch P (setResult r) Sound :=
  (moment_sound hP).bind fun _ => .onModify fun s h =>
    ⟨(hs s h).moveSearch rfl (hs s h).branches (hs s h).ended, fun hf => absurd hf hr⟩

/-- The device returned is the one whose address has just been stored (41_device_search.md R159). -/
theorem setResult_found_sound :
    Op.Keeps true (fun s => Midway s ∧ s.found = s.saddr) (setResult .found) Sound :=
  (moment_sound (midway_busClosed.and fun s t h ht => by rw [ht]; exact h)).bind fun _ =>
    .onModify fun _ h => ⟨h.1.moveSearch rfl h.1.branches h.1.ended, fun _ => h.2⟩

/-- No two bits stand at the same place. -/
theorem and_eq_zero_iff (a d : Addr) :
    a &&& d = 0#64 ↔ ∀ j < 64, (a.getLsbD j && d.getLsbD j) = false := by
  constructor
  · intro h j _
    rw [← BitVec.getLsbD_and, h, BitVec.getLsbD_zero]
  · intro h
    apply BitVec.eq_of_getLsbD_eq
    intro j hj
    rw [BitVec.getLsbD_and, h j hj, BitVec.getLsbD_zero]

/-- The state in which bit `i` has been decided (41_device_search.md R157). -/
def State.decided (i : Nat) (disc : Option Bool) (dir : Bool) (s : State) : State :=
  { s with sdisc := disc.elim s.sdisc (setBit s.sdisc i), saddr := setBit s.saddr i dir }

theorem decideBit_eq (i : Nat) (disc : Option Bool) (dir : Bool) :
    decideBit i disc dir = modify (State.decided i disc dir) >>= fun _ => writeSlot dir := by
  cases disc <;> rfl

theorem getLsbD_decided_sdisc (s : State) (i : Nat) (disc : Option Bool) (dir : Bool) {j : Nat}
    (hj : j < 64) : (s.decided i disc dir).sdisc.getLsbD j
      = if j = i then disc.getD (s.sdisc.getLsbD i) else s.sdisc.getLsbD j := by
  cases disc with
  | none =>
    by_cases h : j = i
    · rw [if_pos h, h]
      rfl
    · rw [if_neg h]
      rfl
  | some d => exact getLsbD_setBit _ _ _ _ hj

/-- Bit `i` decided is a legal place of the walk, unless it is 1 and pending (41_device_search.md R157). -/
theorem walkingAt_decided {ld : Option Nat} {i : Nat} {disc : Option Bool} {dir : Bool} {s : State}
    (hs : WalkingAt ld i s) (hbit : (dir && disc.getD (s.sdisc.getLsbD i)) = false) :
    WalkingAt ld (i + 1) (s.decided i disc dir) := by
  obtain ⟨⟨hm, hph⟩, hclear⟩ := hs
  refine ⟨⟨hm.moveSearch rfl ((and_eq_zero_iff _ _).2 fun j hj => ?_) fun he => absurd he hph, hph⟩,
    fun j hj hld => ?_⟩
  · rw [getLsbD_decided_sdisc _ _ _ _ hj]
    by_cases h : j = i
    · rw [if_pos h]
      subst h
      rw [← hbit]
      congr 1
      exact (getLsbD_setBit _ _ _ _ hj).trans (if_pos rfl)
    · rw [if_neg h, ← (and_eq_zero_iff _ _).1 hm.branches j hj]
      congr 1
      exact (getLsbD_setBit _ _ _ _ hj).trans (if_neg h)
  · rcases Nat.lt_or_ge j 64 with h64 | h64
    · rw [getLsbD_decided_sdisc _ _ _ _ h64, if_neg (by omega), hclear j (by omega) hld]
    · exact BitVec.getLsbD_of_ge _ _ h64

theorem decideBit_walks {ld : Option Nat} {i : Nat} {disc : Option Bool} {dir : Bool}
    (hbit : ∀ s, WalkingAt ld i s → (dir && disc.getD (s.sdisc.getLsbD i)) = false) :
    Op.Keeps true (WalkingAt ld i) (decideBit i disc dir) (WalkingAt ld (i + 1)) := by
  rw [decideBit_eq]
  exact (Op.Triple.onModify (Q := fun _ => WalkingAt ld (i + 1))
    fun s hs => walkingAt_decided hs (hbit s hs)).bind fun _ =>
      Op.Keeps.of_portFails (writeSlot_keeps (walkingAt_busClosed ld (i + 1)) dir) fun _ h => h.1.1

theorem discover_walks (ld : Option Nat) : ∀ (n i : Nat) (new : Bool),
    Op.Keeps true (WalkingAt ld i) (discover ld n i new) Searching
  | 0, _, _ => .pure fun _ hs => hs.1
  | n + 1, i, new => by
    have hslot : Op.Keeps true (WalkingAt ld i) readSlot (WalkingAt ld i) :=
      .of_portFails (readSlot_keeps (walkingAt_busClosed ld i)) fun _ h => h.1.1
    refine hslot.bind fun t => hslot.bind fun c => .ite (fun _ => ?resumed) fun hld =>
      .ite (fun _ => .pure fun _ hs => hs.1) fun _ => .ite (fun _ => ?fork) fun _ => ?forced
    case resumed => exact (decideBit_walks fun _ _ => rfl).bind fun _ => discover_walks ld n _ _
    case fork => exact (decideBit_walks fun _ _ => rfl).bind fun _ => discover_walks ld n _ _
    case forced =>
      refine (decideBit_walks fun s hs => ?_).bind fun _ => discover_walks ld n _ _
      rw [Option.getD_none, hs.2 i le_rfl hld, Bool.and_false]

/-- The phase, the device, the result and its CRC, in that order (41_device_search.md R158, R159). -/
theorem foundDevice_sound (new : Bool) : Op.Keeps true Searching (foundDevice new) Sound := by
  have hphase : ∀ s, Searching s →
      Midway { s with sphase := if !new && s.sdisc == 0 then .ended else .deviceFound } := by
    intro s hs
    refine hs.1.moveSearch rfl hs.1.branches fun hend => ?_
    by_cases h : (!new && s.sdisc == 0) = true
    · exact eq_of_beq (Bool.and_eq_true_iff.1 h).2
    · rw [if_neg h] at hend
      cases hend
  exact (Op.Triple.onModify (Q := fun _ => Midway) hphase).bind fun _ =>
    (Op.Triple.onModify (Q := fun _ s => Midway s ∧ s.found = s.saddr) fun s hm =>
      ⟨hm.moveSearch rfl hm.branches hm.ended, rfl⟩).bind fun _ =>
    setResult_found_sound.bind fun _ => (moment_sound sound_busClosed).bind fun _ =>
    .onModify fun s hs => sound_crcEval hs _ _

theorem discoverFrom_sound (ld : Option Nat) (start : Nat) :
    Op.Keeps true (WalkingAt ld start) (discoverFrom ld start) Sound :=
  (discover_walks ld _ _ _).bind fun
    | some new => foundDevice_sound new
    | none => setResult_sound searching_busClosed (fun _ h => h.1) (by decide)

/-- The enumeration is over: no discrepancy is pending (41_device_search.md R156). -/
theorem endSearch_sound : Op.Keeps true (fun s => Searching s ∧ s.sdisc = 0) endSearch Sound :=
  (moment_sound (searching_busClosed.and fun s t h ht => by rw [ht]; exact h)).bind fun _ =>
    (Op.Triple.onModify (Q := fun _ => Midway) fun _ hs =>
      hs.1.1.moveSearch rfl hs.1.1.branches fun _ => hs.2).bind fun _ =>
    setResult_sound midway_busClosed (fun _ h => h) (by decide)

/-- Nothing is pending beyond the last discrepancy (41_device_search.md R150). -/
theorem walkingAt_of_lastDiscrepancy {s : State} {ld : Nat} (hs : Searching s)
    (h : lastDiscrepancy s.sdisc = some ld) : WalkingAt (some ld) ld s := by
  obtain ⟨-, -, habove⟩ := (highestBelow_some _ _ _).1 h
  refine ⟨hs, fun j hj hne => ?_⟩
  rcases Nat.lt_or_ge j 64 with h64 | h64
  · exact habove j (Nat.lt_of_le_of_ne hj fun he => hne (congrArg some he)) h64
  · exact BitVec.getLsbD_of_ge _ _ h64

theorem eq_zero_of_lastDiscrepancy_none {d : Addr} (h : lastDiscrepancy d = none) : d = 0#64 := by
  apply BitVec.eq_of_getLsbD_eq
  intro j hj
  rw [(highestBelow_none _ _).1 h j hj, BitVec.getLsbD_zero]

/-- A search, whatever ends it (41_device_search.md R152 to R159). -/
theorem search_sound {send : Op Unit}
    (hsend : Op.Triple Searching send (fun _ => Searching) (PortFails Searching) Searching) :
    Op.Keeps true Sound (search send) Sound := by
  have hreset : Op.Keeps true Searching busReset Searching :=
    .of_resetFails (busReset_keeps searching_busClosed fun s p h => ⟨h.1.untracked rfl, h.2⟩)
      fun s h => ⟨h.1, .inl rfl⟩
  refine .getBind fun a => .ite (fun _ => ?atEnd) fun hph => ?_
  case atEnd =>
    exact (setResult_sound midway_busClosed (fun _ h => h) (by decide)).pre fun s h => h.1.1
  refine Op.Triple.pre (P := Searching) ?_ (by rintro s ⟨hs, rfl⟩; exact ⟨hs.1, hph⟩)
  refine hreset.bind fun p => .ite (fun _ => ?present) fun _ =>
    setResult_sound searching_busClosed (fun _ h => h.1) (by decide)
  refine (Op.Keeps.of_portFails hsend fun _ h => h.1).bind fun _ => .getBind fun u => ?_
  cases hld : lastDiscrepancy u.sdisc with
  | some ld =>
    refine Op.Triple.pre (P := WalkingAt (some ld) ld) ?_ (by
      rintro s ⟨hs, rfl⟩; exact walkingAt_of_lastDiscrepancy hs hld)
    refine (Op.Keeps.of_portFails (replay_keeps (walkingAt_busClosed _ _) _ _) fun _ h => h.1.1).bind
      fun _ => .ite (fun _ => discoverFrom_sound _ _) fun _ =>
        setResult_sound (walkingAt_busClosed _ _) (fun _ h => h.1.1) (by decide)
  | none =>
    refine Op.Triple.pre (P := fun s => Searching s ∧ s.sdisc = 0) ?_ (by
      rintro s ⟨hs, rfl⟩; exact ⟨hs, eq_zero_of_lastDiscrepancy_none hld⟩)
    refine .ite (fun _ => endSearch_sound) fun _ => (discoverFrom_sound none 0).pre fun s h =>
      ⟨h.1, fun j _ _ => by rw [h.2]; exact BitVec.getLsbD_zero⟩

/-! ## Commands -/

theorem waitMsOf_table (res : BitVec 2) :
    waitMsOf res = 94 ∨ waitMsOf res = 188 ∨ waitMsOf res = 375 ∨ waitMsOf res = 750 := by
  revert res
  decide

/-- A binding fills the sensor registers (44_ds18b20.md R221). -/
theorem sound_bind {s : State} (h : Sound s) :
    Sound { s with sensor := s.rom, sensorRes := s.res, sensorValid := true } := by
  obtain ⟨hs, hfound⟩ := h
  exact ⟨⟨hs.busy, hs.rst, hs.wireCmd, hs.err, hs.crcFlag, hs.branches, hs.ended, nofun, hs.waits⟩, hfound⟩

/-- The wait reported is one of the table's (44_ds18b20.md R222, R223). -/
theorem sound_waitMs {s : State} (h : Bound s) : Sound { s with waitMs := waitMsOf s.sensorRes } := by
  obtain ⟨⟨hs, hfound⟩, hvalid⟩ := h
  exact ⟨⟨hs.busy, hs.rst, hs.wireCmd, hs.err, hs.crcFlag, hs.branches, hs.ended,
    fun hno => absurd (hvalid.symm.trans hno) nofun, .inr (waitMsOf_table _)⟩, hfound⟩

/-- Every host command keeps the invariant, whatever lands in it and whatever the bus answers. -/
theorem exec_inv {i : Instr} (hhost : i.isHost = true) {s t : State} (hs : Inv s)
    (hrst : s.rst = false) (ht : exec i s = .next t) : Inv t := by
  have hP := sound_busClosed
  have hu : ∀ s t, Sound s → OnlyUntracked s t → Sound t := fun _ _ => sound_untracked
  have port {α : Type} {x : Op α} (h : Op.Triple Sound x (fun _ => Sound) (PortFails Sound) Sound) :
      Op.Keeps false Sound x Sound := .of_sound (portFails_resetFails h) fun _ hs => hs
  cases i with
  | nop => exact runCommand_inv (.pure fun _ h => h) hs hrst ht
  | owReset =>
    exact runCommand_inv ((Op.Keeps.of_sound (busReset_keeps hP fun s p h => hu s _ h rfl)
      fun _ h => h).bind fun _ => .pure fun _ h => h) hs hrst ht
  | owReadBit =>
    exact runCommand_inv ((port (readSlot_keeps hP)).bind fun _ => modify_untracked fun _ => rfl)
      hs hrst ht
  | owWriteBit v => exact runCommand_inv (port (writeSlot_keeps hP v)) hs hrst ht
  | owReadByte =>
    exact runCommand_inv ((port (readBits_keeps hP _ _ _)).bind fun _ =>
      modify_untracked fun _ => rfl) hs hrst ht
  | owWriteByte hold =>
    exact runCommand_inv (.getBind fun _ =>
      (port (writeByteSeq_keeps hP _ hold)).pre fun _ h => h.1) hs hrst ht
  | owSelect =>
    exact runCommand_inv (.getBind fun _ =>
      (port (selectDevice_keeps hP _)).pre fun _ h => h.1) hs hrst ht
  | searchInit =>
    exact runCommand_inv ((Op.Triple.onModify (Q := fun _ => Midway) fun _ h =>
      h.1.moveSearch rfl BitVec.and_self fun _ => rfl).bind fun _ =>
      setResult_sound midway_busClosed (fun _ h => h) (by decide)) hs hrst ht
  | searchNext | searchAlarm =>
    exact runCommand_inv (search_sound (writeByteSeq_keeps searching_busClosed _ _)) hs hrst ht
  | crcCheckRom =>
    exact runCommand_inv (.getBind fun _ => (checkCrc_sound _ _).pre fun _ h => h.1) hs hrst ht
  | crc8Compute seed len =>
    exact runCommand_inv ((checkLen_sound len).bind fun _ =>
      .onModify fun _ h => sound_crcEval h _ _) hs hrst ht
  | rsWrite len | rsRead len =>
    exact runCommand_inv ((checkLen_sound len).bind fun _ => .getBind fun _ =>
      ((transaction_sound hP (fun _ h => h) hu _ _ (sendPayload_keeps hP _)).bind fun _ =>
        .pure fun _ h => h).pre fun _ h => h.1) hs hrst ht
  | dsBind force =>
    refine runCommand_inv (.getBind fun _ => .ite (fun _ => ?_) fun _ => ?_) hs hrst ht
    · exact (raise_sound (by nofun)).pre fun _ h => h.1
    · exact .onModify fun _ h => sound_bind h.1
  | dsStart =>
    exact runCommand_inv (checkSensor_sound.bind fun _ => .getBind fun _ =>
      ((transaction_sound bound_busClosed (fun _ h => h.1) bound_untracked _ _
        (sendPayload_keeps bound_busClosed [0x44])).bind fun _ =>
        .onModify fun _ h => sound_waitMs h).pre fun _ h => h.1) hs hrst ht
  | dsRead =>
    exact runCommand_inv (checkSensor_sound.bind fun _ => .getBind fun _ =>
      ((transaction_sound bound_busClosed (fun _ h => h.1) bound_untracked _ _
        (sendPayload_keeps bound_busClosed [0xBE])).bind fun _ => .getBind fun _ =>
        ((checkCrc_sound _ _).bind fun _ => modify_untracked fun _ => rfl).pre
          fun _ h => h.1.1).pre fun _ h => h.1) hs hrst ht
  | splitTemp => exact runCommand_inv (modify_untracked fun _ => rfl) hs hrst ht
  | reserved1213 op | reserved1417 op | reserved181F op =>
    exact runCommand_inv (raise_sound (by nofun)) hs hrst ht
  | wireSearchRom | wireAlarmSearch | wireSelectRom | wireConvertT | wireReadScratchpad =>
    exact absurd hhost nofun

/-! ## Steps -/

theorem inv_withInbox {s : State} (h : Inv s) (q : List Arrival) : Inv (s.withInbox q) :=
  ⟨h.atRest, h.inReset, h.crcFlag, h.mismatch, h.noDetail, h.branches, h.ended, h.foundAddr, h.unbound,
    h.waits⟩

theorem inv_withCur {s : State} (h : Inv s) (w : Word) : Inv { s with cur := w } :=
  ⟨h.atRest, h.inReset, h.crcFlag, h.mismatch, h.noDetail, h.branches, h.ended, h.foundAddr, h.unbound,
    h.waits⟩

/-- While `RST` is asserted an access adds a reply at most (70_reset_and_hazards.md R280). -/
theorem regsReset_hostAccess {s : State} (hrst : s.rst = true) (h : RegsReset s) (a : Access) :
    RegsReset (hostAccess a s) := by
  cases a with
  | read off lanes =>
    obtain ⟨v, n, -, hread⟩ := hostRead_eq_reply off lanes s
    rw [hostAccess, hread]
    exact h
  | write off lanes v => simpa [hostAccess, hostWrite, hrst] using h

/-- A host access keeps the invariant: it writes only what `Inv` does not speak of (10_state.md R24). -/
theorem inv_hostAccess {s : State} (h : Inv s) (a : Access) : Inv (hostAccess a s) := by
  have honly := hostAccess_onlyHost a s
  have hreset : (hostAccess a s).rst = true → RegsReset (hostAccess a s) := by
    intro hr
    have hrst : s.rst = true := by rw [honly] at hr; exact hr
    exact regsReset_hostAccess hrst (h.inReset hrst) a
  generalize hostAccess a s = t at honly hreset
  rw [honly] at hreset ⊢
  exact ⟨h.atRest, hreset, h.crcFlag, h.mismatch, h.noDetail, h.branches, h.ended, h.foundAddr, h.unbound,
    h.waits⟩

theorem inv_setRst {s : State} (h : Inv s) (level : Bool) : Inv (setRst level s) := by
  unfold setRst
  split
  · exact inv_blockReset level s
  · exact h

theorem inv_stepEvent {s t : State} (h : Inv s) (e : Event) (ht : stepEvent e s = .next t) : Inv t := by
  cases e with
  | rst level =>
    cases ht
    exact inv_setRst h level
  | access a =>
    cases hc : commandWord a s with
    | none =>
      rw [stepEvent_access_of_no_command hc] at ht
      cases ht
      exact inv_hostAccess h a
    | some w =>
      rw [stepEvent_command hc] at ht
      exact exec_inv (isHost_decodeHost w) (inv_withCur h w) (idle_of_commandWord hc).1 ht

/-- Settles O11: no wire command is pending, so a step is the next event, and each event keeps `Inv`. -/
theorem stepKeepsInvariant : Obligations.StepKeepsInvariant := by
  intro s t h ht
  obtain ⟨-, -, hw⟩ := h.atRest
  cases hinbox : s.world.inbox with
  | nil =>
    simp only [step, hw, hinbox] at ht
    cases ht
    exact h
  | cons a rest =>
    rw [step_event hw hinbox] at ht
    exact inv_stepEvent (inv_withInbox h rest) a.event ht

end Sys2Proof.Machine
end

section
/-!
SUPPORT. What the transport commands do when nothing lands and every bus event completes `OK`, and when the
wire-high check never reads a high level (40_bit_transport.md R127 to R139).
-/

namespace Sys2Proof.Machine

/-! ## The bits of a byte -/

/-- The first bit of the list is bit 0 (40_bit_transport.md R132). -/
theorem getLsbD_byteOfBits : ∀ (bs : List Bool) (j : Nat), j < 8 →
    (byteOfBits bs).getLsbD j = bs.getD j false
  | [], j, _ => by simp [byteOfBits]
  | b :: bs, 0, _ => by simp [byteOfBits]
  | b :: bs, j + 1, hj => by
    have hj' : j < 8 := by omega
    simpa [byteOfBits, hj, hj'] using getLsbD_byteOfBits bs j hj'

/-- Bit `j` of a byte read is the level its slot `j` sampled (40_bit_transport.md R126, R132). -/
theorem getLsbD_byteRead (s : State) (e : Nat) {j : Nat} (hj : j < 8) :
    (s.byteRead e).getLsbD j = s.levelAt (e + 3 * j + 2) := by
  rw [State.byteRead, getLsbD_byteOfBits _ _ hj]
  simp [State.slotLevels, hj]

/-- The slots of a byte read, named by the bits of the byte. -/
theorem readByteTrace_eq (s : State) (e : Nat) :
    s.readByteTrace e = (List.range 8).flatMap fun j => readSlotTrace ((s.byteRead e).getLsbD j) := by
  rw [State.readByteTrace, State.slotLevels, List.flatMap_map]
  refine List.flatMap_congr fun j hj => ?_
  rw [getLsbD_byteRead s e (List.mem_range.1 hj)]

/-- The slots of the byte `DATA[7:0]`, named by the bits of `DATA` (40_bit_transport.md R138). -/
theorem writeByteTrace_byteAt_zero (w : Word) (hold : Bool) :
    writeByteTrace (byteAt w 0) hold
      = (List.range 8).flatMap (fun j => writeSlotTrace (w.getLsbD j))
        ++ [if hold then .hold else .release] := by
  refine congrArg (· ++ _) (List.flatMap_congr fun j hj => ?_)
  rw [getLsbD_byteAt, decide_eq_true (List.mem_range.1 hj), Bool.true_and, Nat.mul_zero, Nat.zero_add]

/-! ## How a command starts -/

theorem Op.run_get_bind {α : Type} (g : State → Op α) (s : State) :
    (get >>= g).run s = (g s).run s := rfl

/-- An acceptance check that passes, and what the command reads of the state (30_encoding.md R86). -/
theorem Op.run_check_get {α : Type} {check : Op Unit} {s : State} (h : check.run s = .ok () s)
    (g : State → Op α) : (check >>= fun _ => get >>= g).run s = (g s).run s :=
  (Op.bind_ok _ h).trans (Op.run_get_bind g s)

/-! ## Commands that return -/

/-- A command, from what its body does after no bus event (30_encoding.md R86). -/
theorem runCommand_returns {body : Op Unit} {s t r : State} (hq : Quiet s)
    (h : body.run ((accept s).ran 0 [] s.line) = .ok () t) (ht : Quiet t) (hr : complete t = r) :
    runCommand false body s = .next r := by
  rw [← accept_ran] at h
  exact runCommand_ok hq h ht hr

@[simp] theorem byteRead_accept (s : State) (e : Nat) : (accept s).byteRead e = s.byteRead e := rfl

@[simp] theorem readByteTrace_accept (s : State) (e : Nat) :
    (accept s).readByteTrace e = s.readByteTrace e := rfl

/-- Settles O25: the body is one read slot and the write of `DATA`. -/
theorem readBitStoresTheSample : Obligations.ReadBitStoresTheSample := by
  intro s hq hb
  have hslot := readSlot_ran (s := accept s) hq hb (n := 0) (e := []) (l := s.line) le_rfl
  exact runCommand_returns hq (Op.bind_ok _ hslot) hq rfl

/-- Settles O26: the body is one write slot. -/
theorem writeBitSendsOneSlot : Obligations.WriteBitSendsOneSlot := by
  intro v s hq hb
  exact runCommand_returns hq (writeSlot_ran (s := accept s) hq hb v le_rfl) hq rfl

/-- Settles O27: the byte is the one that the eight slots from event 0 on read. -/
theorem readByteIsLsbFirst : Obligations.ReadByteIsLsbFirst := by
  intro s hq hb
  have hbyte := readByteSeq_ran (s := accept s) hq hb (n := 0) (e := []) (l := s.line) le_rfl
  rw [byteRead_accept, readByteTrace_accept] at hbyte
  have hrun : exec .owReadByte s = .next { s.afterCommand 24 (s.readByteTrace 0) .released with
      data := (s.byteRead 0).setWidth 32 } :=
    runCommand_returns hq (Op.bind_ok _ hbyte) hq rfl
  refine ⟨s.byteRead 0, fun j hj => ?_, ?_⟩
  · rw [getLsbD_byteRead s 0 hj, Nat.zero_add]
  · rw [hrun, readByteTrace_eq]

/-- Settles O28: the byte sent is `DATA[7:0]`. -/
theorem writeByteIsLsbFirst : Obligations.WriteByteIsLsbFirst := by
  intro hold s hq hb
  have hbyte := writeByteSeq_ran (s := accept s) hq hb (n := 0) (e := []) (l := s.line)
    (byteAt s.data 0) hold le_rfl
  rw [← writeByteTrace_byteAt_zero]
  exact runCommand_returns hq ((Op.run_get_bind _ _).trans hbyte) hq rfl

/-- Settles O29: the body is one bus reset. -/
theorem resetCommandDetectsPresence : Obligations.ResetCommandDetectsPresence := by
  intro k s hq hk hb
  exact runCommand_ok hq (Op.bind_ok _ (busReset_ran (s := accept s) hq hb hk le_rfl)) hq rfl

/-! ## A line that stays low -/

/-- The state in which the wire-high check gives up, after its 125 polls (40_bit_transport.md R127). -/
def State.stuckLow (s : State) : State :=
  s.ran (s.heldEvents + 125) (s.releaseTrace ++ lowPollsTrace 125) .released

section
variable {s : State} (hq : Quiet s) (hb : BusOk s (s.heldEvents + 125))
  (hlow : ∀ j < 125, s.levelAt (s.heldEvents + j) = false)
include hq hb hlow

/-- No poll reads high: the bus reset raises before its low pulse (40_bit_transport.md R127, R139). -/
theorem busReset_stuckLow : busReset.run s = .error (.raised .wireNotHigh) s.stuckLow := by
  have hpolls := pollWireHigh_stuckLow hq hb nWh s.heldEvents s.releaseTrace .released le_rfl hlow
  exact Op.bind_error _ ((ensureWireHigh_eq hq hb (Nat.le_add_right _ _)).trans hpolls)

theorem transaction_stuckLow (a : Addr) (payload : Op Unit) (r : Nat) :
    (transaction a payload r).run s = .error (.raised .wireNotHigh) s.stuckLow :=
  Op.bind_error _ (busReset_stuckLow hq hb hlow)

/-- A search that is not at `End` starts with the bus reset (41_device_search.md R154). -/
theorem search_stuckLow (hphase : s.sphase ≠ .ended) (send : Op Unit) :
    (search send).run s = .error (.raised .wireNotHigh) s.stuckLow := by
  unfold search
  rw [Op.bind_ok _ (EStateM.run_get _), if_neg hphase]
  exact Op.bind_error _ (busReset_stuckLow hq hb hlow)

end

/-- Settles O30: each of the seven passes its check and resets the bus first. -/
theorem stuckLineRaisesWireNotHigh : Obligations.StuckLineRaisesWireNotHigh := by
  intro i s hq hi hb hlow
  have hreset := busReset_stuckLow (s := accept s) hq hb hlow
  have htransaction := transaction_stuckLow (s := accept s) hq hb hlow
  have hsearch := search_stuckLow (s := accept s) hq hb hlow
  cases i with
  | owReset => exact runCommand_raise hq (Op.bind_error _ hreset) hq rfl
  | rsWrite len | rsRead len =>
    have hcheck := checkLen_ok (accept s) (of_decide_eq_true hi)
    exact runCommand_raise hq
      ((Op.run_check_get hcheck _).trans (Op.bind_error _ (htransaction _ _ _))) hq rfl
  | dsStart | dsRead =>
    have hcheck := checkSensor_ok (s := accept s) hi
    exact runCommand_raise hq
      ((Op.run_check_get hcheck _).trans (Op.bind_error _ (htransaction _ _ _))) hq rfl
  | searchNext | searchAlarm =>
    exact runCommand_raise hq (hsearch (bne_iff_ne.1 hi) _) hq rfl
  | _ => exact absurd hi nofun

end Sys2Proof.Machine
end

section
/-!
SUPPORT. Where a bus event that fails ends a transport, select, wire or transaction command
(40_bit_transport.md R125, 60_exceptions.md R251, R254).
-/

namespace Sys2Proof.Machine

/-! ## Transport, select and wire commands -/

/-- An instruction without a bus reset issues the same number of bus events in every state
(70_reset_and_hazards.md R298). -/
theorem busCount_issues {i : Instr} (h : 0 < fixedEvents i) (s : State) (k : Nat) :
    busCount (s.issues k i) = fixedEvents i := by
  cases i with
  | owReadBit | owWriteBit | owReadByte => rfl
  | owSelect => exact busCount_selectTrace _ _
  | owWriteByte | wireSearchRom | wireAlarmSearch | wireSelectRom | wireConvertT
  | wireReadScratchpad => exact busCount_writeByteTrace _ _
  | _ => exact absurd h (Nat.lt_irrefl 0)

section
variable {s : State} {f : Nat} {code : Byte} {body : Op Unit} {tr : List BusEvent} (hq : Quiet s)
include hq

/-- Whatever the command started with, the failed event ends it with `PortError(code)`
(60_exceptions.md R251). -/
theorem finish_portFailed (h : Ends s f code body 0 tr) (hf : f < busCount tr) :
    finish false ((bracket body).run s) = s.portFailed code f tr := by
  have hrun := h (Nat.zero_le f) (by rwa [Nat.zero_add]) [] s.line
  rw [State.ran_zero] at hrun
  rw [bracket_raised hq (by exact hq) hrun]
  rfl

theorem runCommand_portFailed (h : Ends (accept s) f code body 0 tr) (hf : f < busCount tr) :
    runCommand false body s = .next (s.portFailed code f tr) :=
  congrArg Host.Outcome.next (finish_portFailed (s := accept s) hq h hf)

theorem runWire_portFailed (h : Ends s.wireBusy f code body 0 tr) (hf : f < busCount tr) :
    runWire body s = .next (s.portFailed code f tr) :=
  congrArg Host.Outcome.next (finish_portFailed (s := s.wireBusy) hq h hf)

end

/-- Settles O31: the failed event is one of those the instruction issues, piece by piece. -/
theorem portFailureEndsTransport : Obligations.PortFailureEndsTransport := by
  intro i s f code hq hf hb hr
  have hcount : f < busCount (s.issues 0 i) := busCount_issues (Nat.zero_lt_of_lt hf) s 0 ▸ hf
  have hbyte := writeByteSeq_acts (s := accept s) hq hb hr
  have hwire := writeByteSeq_acts (s := s.wireBusy) hq hb hr
  cases i with
  | owReadBit =>
    exact runCommand_portFailed hq ((readSlot_acts (s := accept s) hq hb hr 0).ends.bind _) hcount
  | owWriteBit v =>
    exact runCommand_portFailed hq (writeSlot_acts (s := accept s) hq hb hr v 0).ends hcount
  | owReadByte =>
    obtain ⟨_, hread⟩ := readByteSeq_acts (s := accept s) hq hb hr 0
    rw [readByteTrace_accept] at hread
    exact runCommand_portFailed hq (hread.ends.bind _) hcount
  | owWriteByte hold =>
    exact runCommand_portFailed hq (Acts.withGet fun _ _ => hbyte _ hold 0).ends hcount
  | owSelect =>
    exact runCommand_portFailed hq
      (Acts.withGet fun _ _ => selectDevice_acts (s := accept s) hq hb hr _ 0).ends hcount
  | wireSearchRom | wireAlarmSearch | wireSelectRom =>
    exact runWire_portFailed hq (hwire _ false 0).ends hcount
  | wireConvertT | wireReadScratchpad =>
    exact runWire_portFailed hq (Acts.withGet fun _ _ => hwire _ s.parasite 0).ends hcount
  | _ => exact absurd hf (Nat.not_lt_zero f)

/-! ## Transactions -/

/-- The bytes complete before event `f` stand in `BUF`, the others are kept
(43_select_transactions.md R205). -/
theorem byteAt_storeBytes_bytesRead (s : State) (n f : Nat) (buf : Buffer) {j : Nat} (hj : j < 16) :
    byteAt (storeBytes (s.bytesRead n ((f - n) / 24)) 0 buf) j
      = if n + 24 * j + 24 ≤ f then s.byteRead (n + 24 * j) else byteAt buf j := by
  have hlen : (s.bytesRead n ((f - n) / 24)).length = (f - n) / 24 := by simp [State.bytesRead]
  rw [byteAt_storeBytes _ _ _ _ hj, hlen]
  by_cases h : n + 24 * j + 24 ≤ f
  · have hlt : j < (f - n) / 24 := by omega
    rw [if_pos h, if_pos (by omega)]
    simp [State.bytesRead, hlt]
  · rw [if_neg h, if_neg (by omega)]

/-- They are the bytes of `bufByteAt`, when `r` bytes are read from event `e` on and `f` is not past them. -/
theorem byteAt_storeBytes_eq_bufByteAt {s : State} {i : Instr} {k f e r j : Nat}
    (hstart : s.readStart k i = some e ∨ s.readStart k i = none ∧ r = 0) (hf : f < e + 24 * r)
    (hj : j < 16) :
    byteAt (storeBytes (s.bytesRead e ((f - e) / 24)) 0 s.buf) j = s.bufByteAt k f i j := by
  rw [byteAt_storeBytes_bytesRead s e f s.buf hj, State.bufByteAt]
  obtain hs | ⟨hs, rfl⟩ := hstart
  · rw [hs]
  · rw [hs, if_neg (by omega)]

section
variable {s : State} {f k : Nat} {code : Byte} (hq : Quiet s) (hb : BusOk s f)
  (hr : s.replyAt f = .err code) (hk : PollsBefore s k f)
include hq hb hr hk

/-- Event `f` ends a command that is a transaction past its acceptance check, with the bytes read from event
`e` on (43_select_transactions.md R203, R205). -/
theorem exec_transactionFailed {i : Instr} {body payload : Op Unit} {a : Addr} {r e : Nat}
    {g : List Byte → Op Unit} {pt : List BusEvent} (hexec : exec i s = runCommand false body s)
    (hbody : body.run (accept s) = (transaction a payload r >>= g).run (accept s))
    (hpay : ∀ u : State, Quiet u → BusOk u f → u.replyAt f = .err code → u.parasite = s.parasite →
      ∀ n, Acts u f code payload n pt ())
    (he : s.resetEvents k + 153 + busCount pt = e)
    (htr : s.issues k i = s.resetTrace k ++ selectTrace a s.parasite ++ pt ++ s.readBytesTrace e r)
    (hstart : s.readStart k i = some e ∨ s.readStart k i = none ∧ r = 0)
    (hf : f < busCount (s.issues k i)) :
    ∃ buf : Buffer, (∀ j < 16, byteAt buf j = s.bufByteAt k f i j) ∧
      exec i s = .next { s.portFailed code f (s.issues k i) with
        presence := if s.resetEvents k ≤ f then s.presenceSeen k else s.presence
        buf := buf } := by
  subst he
  simp only [htr, busCount_append, busCount_resetTrace, busCount_selectTrace,
    busCount_readBytesTrace] at hf
  have hrun := transaction_error (s := accept s) (a := a) hq hb hr hk hpay hf
  refine ⟨storeBytes (s.bytesRead _ ((f - _) / 24)) 0 s.buf,
    fun j hj => byteAt_storeBytes_eq_bufByteAt hstart hf hj, ?_⟩
  rw [hexec, htr]
  exact runCommand_raise hq (hbody.trans (Op.bind_error g hrun)) hq rfl

end

/-- Settles O32: a failed `OW_RESET` wrote nothing; the others are transactions. -/
theorem portFailureEndsTransactions : Obligations.PortFailureEndsTransactions := by
  intro i s k f code hq hi hsearch hk hb hr hf
  have hpay : ∀ (bs : List Byte) (u : State), Quiet u → BusOk u f → u.replyAt f = .err code →
      u.parasite = s.parasite → ∀ n, Acts u f code (sendPayload bs) n (writeBytesTrace bs s.parasite) () :=
    fun bs u hq hb hr hp n => hp ▸ sendPayload_acts hq hb hr bs n
  have hstart : s.resetEvents k + 153 + busCount (writeByteTrace 0xBE s.parasite)
      = s.resetEvents k + 170 := by rw [busCount_writeByteTrace]
  cases i with
  | owReset =>
    have hreset : f < s.resetEvents k := busCount_resetTrace s k ▸ hf
    have hrun := busReset_error (s := accept s) hq hb hr hk hreset
    refine ⟨s.buf, fun _ _ => rfl, ?_⟩
    rw [if_neg (Nat.not_le.2 hreset)]
    exact runCommand_raise hq (Op.bind_error _ hrun) hq rfl
  | rsWrite len =>
    have hcheck := checkLen_ok (accept s) (of_decide_eq_true hi)
    exact exec_transactionFailed hq hb hr hk rfl (Op.run_check_get hcheck _) (hpay _) rfl
      (List.append_nil _).symm (.inr ⟨rfl, rfl⟩) hf
  | rsRead len =>
    have hcheck := checkLen_ok (accept s) (of_decide_eq_true hi)
    exact exec_transactionFailed hq hb hr hk rfl (Op.run_check_get hcheck _) (hpay []) rfl
      (congrArg (· ++ _) (List.append_nil _).symm) (.inl rfl) hf
  | dsStart =>
    have hcheck := checkSensor_ok (s := accept s) hi
    exact exec_transactionFailed hq hb hr hk rfl (Op.run_check_get hcheck _) (hpay [0x44]) rfl
      (List.append_nil _).symm (.inr ⟨rfl, rfl⟩) hf
  | dsRead =>
    have hcheck := checkSensor_ok (s := accept s) hi
    exact exec_transactionFailed hq hb hr hk rfl (Op.run_check_get hcheck _) (hpay [0xBE]) hstart
      rfl (.inl rfl) hf
  | searchNext | searchAlarm => exact absurd hsearch nofun
  | _ => exact absurd hi nofun

end Sys2Proof.Machine
end

section
/-!
SUPPORT. What the transport, select, wire and transaction commands can change, for every bus and every
schedule of events: each frame is kept by bus activity and by the writes the command makes
(70_reset_and_hazards.md R281, R282).
-/

namespace Sys2Proof.Machine

/-! ## Frames -/

/-- `t` differs from `s` only in what every command may change: the error, `BUSY`, and what bus activity and
host accesses change. -/
abbrev OnlyRun (s t : State) : Prop :=
  t = { s with
    err := t.err, errInfo := t.errInfo, busy := t.busy, seq := t.seq, line := t.line, ovr := t.ovr
    timebase := t.timebase, world := t.world }

/-- What a bus reset may change besides: `PRESENCE` (10_state.md R30). -/
abbrev OnlyReset (s t : State) : Prop := OnlyRun { s with presence := t.presence } t

/-- What `DS_START` may change: the same and `WAIT_MS` (44_ds18b20.md R223). -/
abbrev OnlyStart (s t : State) : Prop :=
  OnlyRun { s with presence := t.presence, waitMs := t.waitMs } t

/-- What `OW_READ_BIT` and `OW_READ_BYTE` may change: `DATA` (40_bit_transport.md R135, R137). -/
abbrev OnlyData (s t : State) : Prop := OnlyRun { s with data := t.data } t

/-- The bytes of `BUF` from `n` on are as they were (10_state.md R22). -/
abbrev KeepsBufFrom (n : Nat) (s t : State) : Prop :=
  ∀ j, n ≤ j → j < 16 → byteAt t.buf j = byteAt s.buf j

/-- What `RS_READ` may change: `PRESENCE` and the first `n` bytes of `BUF` (43_select_transactions.md R205). -/
abbrev OnlyRead (n : Nat) (s t : State) : Prop :=
  KeepsBufFrom n s t ∧ OnlyRun { s with buf := t.buf, presence := t.presence } t

/-- What `DS_READ` may change: `PRESENCE`, the first nine bytes of `BUF`, the CRC and the temperatures
(44_ds18b20.md R225). -/
abbrev OnlyMeasured (s t : State) : Prop :=
  KeepsBufFrom 9 s t ∧ OnlyRun { s with
    buf := t.buf, presence := t.presence
    crcComputed := t.crcComputed, crcExpected := t.crcExpected, crcOk := t.crcOk
    tempRaw := t.tempRaw, tempSplit := t.tempSplit } t

/-- The frame holds in the course of a command. -/
abbrev During (R : State → Prop) (s : State) : Prop := (s.busy = true ∧ s.rst = false) ∧ R s

/-- What every command may change does not matter to the frame. -/
abbrev RunClosed (R : State → Prop) : Prop := ∀ s t, R s → OnlyRun s t → R t

theorem during_busClosed {R : State → Prop} (hR : RunClosed R) : BusClosed (During R) where
  running := fun _ h => h.1
  closed := fun s t h ht => ⟨by rw [ht]; exact h.1, hR s t h.2 (by rw [ht])⟩

/-- `P` holds whether the piece returns or raises, and held when `RST` abandoned it. -/
abbrev Op.Stays {α : Type} (P : State → Prop) (x : Op α) : Prop :=
  Op.Triple P x (fun _ => P) (fun _ => P) P

section
variable {α β : Type} {P : State → Prop}

theorem Op.Stays.of_resetFails {x : Op α} (h : Op.Triple P x (fun _ => P) (ResetFails P) P) :
    Op.Stays P x :=
  h.mono (fun _ h => h) (fun _ _ h => h) (fun _ _ h => h.2) fun _ h => h

theorem Op.Stays.of_portFails {x : Op α} (h : Op.Triple P x (fun _ => P) (PortFails P) P) :
    Op.Stays P x := .of_resetFails (portFails_resetFails h)

theorem Op.Stays.getBind {f : State → Op β} (h : ∀ a, Op.Stays P (f a)) :
    Op.Stays P (MonadState.get >>= f) :=
  (Op.Triple.get (Q := fun _ => P) fun _ hs => hs).bind h

theorem Op.Stays.thenModify {x : Op α} {f : α → State → State} (hx : Op.Stays P x)
    (hf : ∀ a s, P s → P (f a s)) : Op.Stays P (x >>= fun a => modify (f a)) :=
  Op.Triple.bind hx fun a => .onModify (hf a)

theorem checkLen_stays (len : BitVec 5) : Op.Stays P (checkLen len) :=
  .ite (fun _ => .raise fun _ hs => hs) fun _ => .pure fun _ hs => hs

theorem checkSensor_stays : Op.Stays P checkSensor :=
  .getBind fun _ => .ite (fun _ => .pure fun _ hs => hs) fun _ => .raise fun _ hs => hs

theorem checkCrc_stays (hcrc : ∀ s c x, P s → P (s.crcEval c x)) (c x : Byte) :
    Op.Stays P (checkCrc c x) :=
  (Op.Triple.onModify (Q := fun _ => P) fun s hs => hcrc s c x hs).bind fun _ =>
    .ite (fun _ => .pure fun _ hs => hs) fun _ => .raise fun _ hs => hs

/-- A transaction keeps what allows its writes: `PRESENCE` and the bytes of `BUF` it reads into
(43_select_transactions.md R203). -/
theorem transaction_stays (hP : BusClosed P) (hp : ∀ s p, P s → P { s with presence := p }) {r : Nat}
    (hbuf : ∀ s j b, j < r → P s → P { s with buf := setByte s.buf j b }) (a : Addr) (bs : List Byte) :
    Op.Stays P (transaction a (sendPayload bs) r) :=
  .of_resetFails (transaction_keeps hP hp hbuf (sendPayload_keeps hP bs))

end

/-! ## From the body to the command -/

section
variable {R : State → Prop} (hR : RunClosed R) {body : Op Unit} (hbody : Op.Stays (During R) body)
include hR hbody

/-- Each of the three ends of a command keeps its frame, or is a reset. -/
theorem finish_frame {s : State} (hs : During R s) :
    (finish false ((bracket body).run s)).rst = true ∨ R (finish false ((bracket body).run s)) := by
  have hP := during_busClosed hR
  have h := bracket_triple hP hP (fun _ => hP) hbody (fun _ h => h) (fun _ h => h)
    (fun _ _ h => h) s hs
  cases hr : (bracket body).run s with
  | ok _ u =>
    rw [hr] at h
    exact .inr (hR u _ h.2 rfl)
  | error e u =>
    rw [hr] at h
    cases e with
    | raised e => exact .inr (hR u _ h.2 rfl)
    | abandoned =>
      obtain ⟨v, -, rfl⟩ := h
      exact .inl rfl

theorem runCommand_frame {s t : State} (hrst : s.rst = false) (hs : R s)
    (ht : runCommand false body s = .next t) : t.rst = true ∨ R t := by
  obtain rfl := Host.Outcome.next.inj ht
  exact finish_frame hR hbody (s := accept s) ⟨⟨rfl, hrst⟩, hR s _ hs rfl⟩

theorem runWire_frame {s t : State} (hrst : s.rst = false) (hs : R s)
    (ht : runWire body s = .next t) : t.rst = true ∨ R t := by
  obtain rfl := Host.Outcome.next.inj ht
  exact finish_frame hR hbody (s := s.wireBusy) ⟨⟨rfl, hrst⟩, hR s _ hs rfl⟩

end

/-! ## Commands that only write -/

/-- Settles O54: a write slot, a byte, the select sequence are bus activity and nothing else. -/
theorem writingCommandsFrame : Obligations.WritingCommandsFrame := by
  intro i v s t hi hrst ht
  have hrun : RunClosed (OnlyRun s) := fun u w hu hw => by rw [hw, hu]
  have hP := during_busClosed hrun
  have hcommand {body : Op Unit} (h : Op.Stays (During (OnlyRun s)) body)
      (ht : runCommand false body s = .next t) := runCommand_frame hrun h hrst rfl ht
  have hwire {body : Op Unit} (h : Op.Stays (During (OnlyRun s)) body)
      (ht : runWire body s = .next t) := runWire_frame hrun h hrst rfl ht
  obtain rfl | rfl | rfl | hi := hi
  · exact hcommand (.of_portFails (writeSlot_keeps hP v)) ht
  · exact hcommand (.getBind fun _ => .of_portFails (writeByteSeq_keeps hP _ v)) ht
  · exact hcommand (.getBind fun _ => .of_portFails (selectDevice_keeps hP _)) ht
  · cases i with
    | wireSearchRom | wireAlarmSearch | wireSelectRom =>
      exact hwire (.of_portFails (writeByteSeq_keeps hP _ _)) ht
    | wireConvertT | wireReadScratchpad => exact hwire (.of_portFails (sendPayload_keeps hP [_])) ht
    | _ => exact absurd hi nofun

/-! ## Commands that reset the bus -/

/-- Settles O55: the bus reset writes `PRESENCE`, and `DS_START` writes `WAIT_MS` at its end. -/
theorem resettingCommandsFrame : Obligations.ResettingCommandsFrame := by
  intro i len s t hi hrst ht
  have hreset : RunClosed (OnlyReset s) := fun u w hu hw => by rw [hw, hu]
  have hstart : RunClosed (OnlyStart s) := fun u w hu hw => by rw [hw, hu]
  have hpresence : ∀ u p, During (OnlyReset s) u → During (OnlyReset s) { u with presence := p } :=
    fun u p ⟨hlive, hu⟩ => ⟨hlive, by rw [hu]⟩
  have hnone {P Q : State → Prop} : ∀ u j b, j < 0 → P u → Q { u with buf := setByte u.buf j b } :=
    fun _ _ _ hj => absurd hj (Nat.not_lt_zero _)
  obtain rfl | rfl | rfl := hi
  · have hbus := Op.Stays.of_resetFails (busReset_keeps (during_busClosed hreset) hpresence)
    exact runCommand_frame hreset (hbus.bind fun _ => .pure fun _ h => h) hrst rfl ht
  · have hbus := transaction_stays (during_busClosed hreset) hpresence hnone
    refine runCommand_frame hreset ?_ hrst rfl ht
    exact (checkLen_stays len).bind fun _ => Op.Stays.getBind fun _ =>
      (hbus _ _).bind fun _ => .pure fun _ h => h
  · have hbus := transaction_stays (during_busClosed hstart)
      (fun u p ⟨hlive, hu⟩ => ⟨hlive, by rw [hu]⟩) hnone
    refine runCommand_frame hstart ?_ hrst rfl ht
    exact checkSensor_stays.bind fun _ => Op.Stays.getBind fun _ =>
      (hbus _ [0x44]).thenModify fun _ u ⟨hlive, hu⟩ => ⟨hlive, by rw [hu]⟩

/-! ## Commands that read -/

/-- A byte stored below `n` is not one of those from `n` on. -/
theorem KeepsBufFrom.setByte {n j : Nat} {s u : State} (h : KeepsBufFrom n s u) (hj : j < n) (b : Byte) :
    KeepsBufFrom n s { u with buf := setByte u.buf j b } := by
  intro k hk hk16
  rw [← h k hk hk16, byteAt_setByte _ _ _ _ (by omega), if_neg (by omega)]

/-- The kept bytes may stand beside a frame. -/
theorem RunClosed.andKeepsBufFrom {R : State → Prop} (hR : RunClosed R) (n : Nat) (s : State) :
    RunClosed fun u => KeepsBufFrom n s u ∧ R u :=
  fun u w ⟨hbytes, hu⟩ hw => ⟨by rw [hw]; exact hbytes, hR u w hu hw⟩

/-- Settles O56: `DATA` or the bytes of `BUF` below the count are written, and by `DS_READ` its results. -/
theorem readingCommandsFrame : Obligations.ReadingCommandsFrame := by
  intro i len s t hi hrst ht
  have hdata : RunClosed (OnlyData s) := fun u w hu hw => by rw [hw, hu]
  have hread : RunClosed (OnlyRead len.toNat s) :=
    RunClosed.andKeepsBufFrom (fun u w hu hw => by rw [hw, hu]) _ s
  have hmeasured : RunClosed (OnlyMeasured s) :=
    RunClosed.andKeepsBufFrom (fun u w hu hw => by rw [hw, hu]) _ s
  have hP := during_busClosed hdata
  have hslots {α : Type} {x : Op α} {f : α → Word} (hx : Op.Stays (During (OnlyData s)) x)
      (ht : runCommand false (x >>= fun a => modify fun u => { u with data := f a }) s = .next t) :
      t.rst = true ∨ OnlyData s t := by
    refine runCommand_frame hdata ?_ hrst rfl ht
    exact hx.thenModify fun _ u ⟨hlive, hu⟩ => ⟨hlive, by rw [hu]⟩
  obtain rfl | rfl | rfl | rfl := hi
  · exact (hslots (.of_portFails (readSlot_keeps hP)) ht).imp_right fun h => ⟨nofun, nofun, h⟩
  · exact (hslots (.of_portFails (readBits_keeps hP _ _ _)) ht).imp_right fun h => ⟨nofun, nofun, h⟩
  · have hbus := transaction_stays (during_busClosed hread) (r := len.toNat)
      (fun u p ⟨hlive, hbytes, hu⟩ => ⟨hlive, hbytes, by rw [hu]⟩)
      fun u j b hj ⟨hlive, hbytes, hu⟩ => ⟨hlive, hbytes.setByte hj b, by rw [hu]⟩
    have hframe := runCommand_frame hread ((checkLen_stays len).bind fun _ => Op.Stays.getBind fun u =>
      (hbus u.rom []).bind fun _ => .pure fun _ h => h) hrst ⟨fun _ _ _ => rfl, rfl⟩ ht
    refine hframe.imp_right fun ⟨hbytes, hrest⟩ => ⟨fun _ => hbytes, nofun, ?_⟩
    simp only [reduceCtorEq, or_false, if_true, if_false]
    exact hrest
  · have hbus := transaction_stays (during_busClosed hmeasured) (r := 9)
      (fun u p ⟨hlive, hbytes, hu⟩ => ⟨hlive, hbytes, by rw [hu]⟩)
      fun u j b hj ⟨hlive, hbytes, hu⟩ => ⟨hlive, hbytes.setByte hj b, by rw [hu]⟩
    have hcrc := checkCrc_stays (P := During (OnlyMeasured s))
      fun u c x ⟨hlive, hbytes, hu⟩ => ⟨hlive, hbytes, by rw [hu]; rfl⟩
    have hframe := runCommand_frame hmeasured ?_ hrst ⟨fun _ _ _ => rfl, rfl⟩ ht
    · exact hframe.imp_right fun ⟨hbytes, hrest⟩ => ⟨nofun, fun _ => hbytes, hrest⟩
    · exact checkSensor_stays.bind fun _ => Op.Stays.getBind fun _ => (hbus _ [0xBE]).bind fun _ =>
        Op.Stays.getBind fun _ => (hcrc _ _).thenModify fun _ u ⟨hlive, hbytes, hu⟩ =>
          ⟨hlive, hbytes, by rw [hu]⟩

end Sys2Proof.Machine
end

section
/-!
SUPPORT. What one search call does when nothing lands: its bus reset and command byte, then the walk, which
returns a device, aborts at a bit, or ends at a bus event that fails (41_device_search.md R152 to R160).
-/

namespace Sys2Proof.Machine

/-! ## `SEARCH_INIT` and the last discrepancy -/

/-- Settles O37: the bitmap has 64 bits, so `highestBelow` looks at all of them. -/
theorem lastDiscrepancyIsHighestBit : Obligations.LastDiscrepancyIsHighestBit := by
  intro d
  refine ⟨⟨eq_zero_of_lastDiscrepancy_none, fun hd => ?_⟩, fun i => highestBelow_some d 64 i⟩
  subst hd
  exact (highestBelow_none _ _).2 fun j _ => BitVec.getLsbD_zero

/-- Settles O38: the body writes the search state and then the result. -/
theorem searchInitIsFresh : Obligations.SearchInitIsFresh := by
  intro s hq
  have hresult := setResult_quiet (s := { (accept s).ran 0 [] s.line with
    saddr := 0, sdisc := 0, sphase := .initialized }) .noResult hq
  exact runCommand_returns hq hresult hq rfl

/-! ## Before the walk -/

/-- Steps S5 to S8 of a call with last discrepancy `ld` that is not over (41_device_search.md R155, R157). -/
def walk : Option Nat → Op Unit
  | some l => do
    if ← replay l 0 then discoverFrom (some l) l
    else setResult .noneNoResponse
  | none => discoverFrom none 0

theorem exec_search {i : Instr} (hi : i.isSearch) (s : State) :
    exec i s = runCommand true (search (writeByteSeq i.searchByte false)) s := by
  cases i with
  | searchNext | searchAlarm => rfl
  | _ => exact absurd hi nofun

/-- A search call at `End` (41_device_search.md R153). -/
theorem search_ended {s : State} (hq : Quiet s) (hph : s.sphase = .ended) (send : Op Unit) :
    (search send).run s = .ok () { s with srchResult := .noneEnd } := by
  unfold search
  rw [Op.run_get_bind, if_pos hph, setResult_quiet _ hq]

section
variable {s u v : State} (hph : s.sphase ≠ .ended) {send : Op Unit}
include hph

/-- A search call that is not at `End` resets the bus first (41_device_search.md R152). -/
theorem search_resetError {e : Stop} (h : busReset.run s = .error e u) :
    (search send).run s = .error e u := by
  unfold search
  rw [Op.run_get_bind, if_neg hph]
  exact Op.bind_error _ h

/-- Without presence nothing more is sent (41_device_search.md R154). -/
theorem search_absent (h : busReset.run s = .ok false u) (hq : Quiet u) :
    (search send).run s = .ok () { u with srchResult := .noneNoPresence } := by
  unfold search
  rw [Op.run_get_bind, if_neg hph]
  exact (Op.bind_ok _ h).trans (setResult_quiet _ hq)

theorem search_sendError {e : Stop} (h : busReset.run s = .ok true u) (hs : send.run u = .error e v) :
    (search send).run s = .error e v := by
  unfold search
  rw [Op.run_get_bind, if_neg hph]
  exact (Op.bind_ok _ h).trans (Op.bind_error _ hs)

/-- After the command byte the call is over or walks (41_device_search.md R155, R156). -/
theorem search_sent (h : busReset.run s = .ok true u) (hs : send.run u = .ok () v) :
    (search send).run s =
      (if lastDiscrepancy v.sdisc = none ∧ v.sphase = .deviceFound then endSearch
        else walk (lastDiscrepancy v.sdisc)).run v := by
  unfold search
  rw [Op.run_get_bind, if_neg hph]
  refine (Op.bind_ok _ h).trans ((Op.bind_ok _ hs).trans ((Op.run_get_bind _ _).trans ?_))
  cases lastDiscrepancy v.sdisc with
  | some l => rfl
  | none =>
    by_cases hf : v.sphase = .deviceFound
    · simp only [hf, and_self, if_true]
    · simp only [hf, and_false, if_false]
      rfl

end

/-- The bus reset and the command byte of a call that finds presence (41_device_search.md R154). -/
def State.callTrace (s : State) (k : Nat) (b : Byte) : List BusEvent :=
  s.resetTrace k ++ writeByteTrace b false

/-- A call that finds presence, after its command byte (41_device_search.md R154 to R156). -/
theorem search_present {s : State} {N k : Nat} (hq : Quiet s) (hb : BusOk s N)
    (hph : s.sphase ≠ .ended) (hk : WireHighAfter s k) (hp : s.presenceSeen k = true)
    (hN : s.resetEvents k + 17 ≤ N) (b : Byte) :
    (search (writeByteSeq b false)).run s =
      (if lastDiscrepancy s.sdisc = none ∧ s.sphase = .deviceFound then endSearch
        else walk (lastDiscrepancy s.sdisc)).run
        (({ s with presence := true } : State).ran (s.resetEvents k + 17) (s.callTrace k b) .released) := by
  have hreset := busReset_ran hq hb hk (by omega)
  rw [hp] at hreset
  have hsend := writeByteSeq_ran (s := { s with presence := true }) hq hb (n := s.resetEvents k)
    (e := s.resetTrace k) (l := .released) b false hN
  exact search_sent hph hreset hsend

/-- Settles O39: the call ends before the reset, after it, or after the command byte. -/
theorem searchCallsThatReturnNothing : Obligations.SearchCallsThatReturnNothing := by
  intro i k s hi hq
  rw [exec_search hi]
  refine ⟨fun hph => ?atEnd, fun hph hk hb hp => ?absent, fun hph hdisc hk hb hp => ?noneLeft⟩
  case atEnd =>
    have hrun := search_ended (s := (accept s).ran 0 [] s.line) hq hph (writeByteSeq i.searchByte false)
    exact runCommand_ok hq ((congrArg _ (accept_ran s)).trans hrun) hq rfl
  case absent =>
    have hreset := busReset_ran (s := accept s) hq hb hk le_rfl
    have habsent : (accept s).presenceSeen k = false := hp
    rw [habsent] at hreset
    exact runCommand_ok hq (search_absent (s := accept s) hph hreset hq) hq rfl
  case noneLeft =>
    have hnone : lastDiscrepancy s.sdisc = none := (lastDiscrepancyIsHighestBit s.sdisc).1.2 hdisc
    have hrun := search_present (s := accept s) hq hb (by simp [hph]) hk hp le_rfl i.searchByte
    rw [if_pos ⟨hnone, hph⟩] at hrun
    exact runCommand_ok hq (hrun.trans (endSearch_quiet hq)) hq rfl

/-! ## The bits of a walk -/

/-- The bit at which discovery starts: the last discrepancy, or bit 0 (41_device_search.md R152). -/
abbrev walkStart (ld : Option Nat) : Nat := ld.getD 0

theorem walkStart_le {ld : Option Nat} {d : Addr} (hld : ld = lastDiscrepancy d) : walkStart ld ≤ 64 := by
  cases ld with
  | none => exact Nat.zero_le _
  | some l => exact Nat.le_of_lt ((highestBelow_some _ _ _).1 hld.symm).1

/-- The bus events of the first `m` address bits. -/
abbrev State.bitsTrace (s : State) (ld : Option Nat) (e m : Nat) : List BusEvent :=
  (List.range m).flatMap (s.walkTrace ld e)

section
variable (s : State) (ld : Option Nat) (e : Nat)

/-- Replay sends the stored bits again (41_device_search.md R155). -/
theorem walkAddrBit_of_lt {j : Nat} (h : j < walkStart ld) : s.walkAddrBit ld e j = s.saddr.getLsbD j := by
  cases ld with
  | none => exact absurd h (Nat.not_lt_zero j)
  | some l => exact if_pos h

/-- Discovery stores the direction bit (41_device_search.md R157). -/
theorem walkAddrBit_of_ge {j : Nat} (h : walkStart ld ≤ j) : s.walkAddrBit ld e j = s.dirBit ld e j := by
  cases ld with
  | none => rfl
  | some l =>
    have hlt : ¬ j < l := Nat.not_lt.2 h
    simp only [State.walkAddrBit, State.dirBit, hlt, if_false, Option.some.injEq, eq_comm]

theorem walkDiscBit_of_lt {j : Nat} (h : j < walkStart ld) : s.walkDiscBit ld e j = s.sdisc.getLsbD j := by
  cases ld with
  | none => exact absurd h (Nat.not_lt_zero j)
  | some l => exact if_pos h

/-- Discovery clears the mark at `ld`, and above it marks the forks, where no mark stood
(41_device_search.md R150, R157). -/
theorem walkDiscBit_of_ge (hld : ld = lastDiscrepancy s.sdisc) {j : Nat} (hj : j < 64)
    (h : walkStart ld ≤ j) :
    s.walkDiscBit ld e j = if ld = some j then false else s.forkBit ld e j || s.sdisc.getLsbD j := by
  cases ld with
  | none =>
    have hbit : s.sdisc.getLsbD j = false := (highestBelow_none _ _).1 hld.symm j hj
    simp [State.walkDiscBit, State.forkBit, hbit]
  | some l =>
    obtain ⟨-, -, habove⟩ := (highestBelow_some _ _ _).1 hld.symm
    rcases Nat.eq_or_lt_of_le h with rfl | hlt
    · simp [State.walkDiscBit]
    · have hbit : s.sdisc.getLsbD j = false := habove j hlt hj
      have hne : l ≠ j := Nat.ne_of_lt hlt
      have hnlt : ¬ j < l := Nat.not_lt_of_lt hlt
      simp [State.walkDiscBit, State.forkBit, hbit, hne, hne.symm, hnlt]

variable {s ld e}

/-- What discovery stores of the bits with `c`, replay having stored nothing. -/
theorem ite_walkAddrBit (c : Nat → Prop) [DecidablePred c] (j : Nat) :
    (if walkStart ld ≤ j ∧ c j then s.dirBit ld e j else s.saddr.getLsbD j)
      = if c j then s.walkAddrBit ld e j else s.saddr.getLsbD j := by
  by_cases h : walkStart ld ≤ j
  · simp only [h, true_and, walkAddrBit_of_ge]
  · simp only [h, false_and, if_false, walkAddrBit_of_lt s ld e (Nat.not_le.1 h), ite_self]

theorem ite_walkDiscBit (hld : ld = lastDiscrepancy s.sdisc) (c : Nat → Prop) [DecidablePred c] {j : Nat}
    (hj : j < 64) :
    (if walkStart ld ≤ j ∧ c j then if ld = some j then false else s.forkBit ld e j || s.sdisc.getLsbD j
      else s.sdisc.getLsbD j) = if c j then s.walkDiscBit ld e j else s.sdisc.getLsbD j := by
  by_cases h : walkStart ld ≤ j
  · simp only [h, true_and, walkDiscBit_of_ge s ld e hld hj]
  · simp only [h, false_and, if_false, walkDiscBit_of_lt s ld e (Nat.not_le.1 h), ite_self]

/-- The bits replayed, as the walk's bits. -/
theorem bitsTrace_of_le {m : Nat} (h : m ≤ walkStart ld) :
    (List.range' 0 m).flatMap (fun j => s.bitTrace e j (s.saddr.getLsbD j)) = s.bitsTrace ld e m := by
  rw [State.bitsTrace, List.range_eq_range']
  refine List.flatMap_congr fun j hj => ?_
  have hlt : j < walkStart ld := by simp only [List.mem_range'_1] at hj; omega
  rw [State.walkTrace, walkAddrBit_of_lt s ld e hlt, State.bitTrace]

/-- The bits replayed, then `r` bits discovered. -/
theorem bitsTrace_add (r : Nat) :
    s.bitsTrace ld e (walkStart ld)
        ++ (List.range' (walkStart ld) r).flatMap (fun j => s.bitTrace e j (s.dirBit ld e j))
      = s.bitsTrace ld e (walkStart ld + r) := by
  have hdir : (List.range' (walkStart ld) r).flatMap (fun j => s.bitTrace e j (s.dirBit ld e j))
      = (List.range' (walkStart ld) r).flatMap (s.walkTrace ld e) := by
    refine List.flatMap_congr fun j hj => ?_
    rw [State.walkTrace, walkAddrBit_of_ge s ld e (List.mem_range'_1.1 hj).1, State.bitTrace]
  have hrange := List.range'_append_1 (s := 0) (m := walkStart ld) (n := r)
  rw [Nat.zero_add] at hrange
  rw [hdir, State.bitsTrace, State.bitsTrace, List.range_eq_range', List.range_eq_range', ← hrange,
    List.flatMap_append]

@[simp] theorem busCount_bitsTrace (m : Nat) : busCount (s.bitsTrace ld e m) = 8 * m := by
  rw [busCount_flatMap _ 8 fun _ => rfl, List.length_range]

end

/-! ## The walk -/

/-- Steps S7 and S8, or an abort: what follows discovery (41_device_search.md R152). -/
def afterDiscovery : Option Bool → Op Unit
  | some new => foundDevice new
  | none => setResult .noneNoResponse

/-- What goes on alike from two places ends alike. -/
theorem Op.bind_congr {α β : Type} {x y : Op α} {s t : State} (f : α → Op β) (h : x.run s = y.run t) :
    (x >>= f).run s = (y >>= f).run t := by
  rw [EStateM.run_bind, EStateM.run_bind, h]

theorem discoverFrom_eq (ld : Option Nat) (start : Nat) :
    discoverFrom ld start = discover ld (64 - start) start false >>= afterDiscovery := by
  unfold discoverFrom
  refine congrArg _ (funext fun o => ?_)
  cases o <;> rfl

section
variable {s : State} {N : Nat} (hq : Quiet s) (hb : BusOk s N) {ld : Option Nat} {e : Nat}
include hq hb

/-- A walk whose replay is answered goes on with discovery (41_device_search.md R155). -/
theorem walk_replayed (ev : List BusEvent) (hN : e + 8 * walkStart ld ≤ N)
    (hans : ∀ j < walkStart ld, s.answered e j = true) :
    (walk ld).run (s.ran e ev .released) = (discoverFrom ld (walkStart ld)).run
      (s.ran (e + 8 * walkStart ld) (ev ++ s.bitsTrace ld e (walkStart ld)) .released) := by
  cases ld with
  | none =>
    show (discoverFrom none 0).run (s.ran e ev .released) = _
    simp [State.bitsTrace]
  | some l =>
    have hreplay := replay_prefix hq hb e 0 l 0 ev .released
      (fun j _ hj => hans j (by rwa [Nat.zero_add] at hj)) (by rwa [Nat.zero_add])
    rw [Nat.zero_add, Nat.add_zero, ite_self, bitsTrace_of_le (ld := some l) (m := l) le_rfl] at hreplay
    exact Op.bind_ok _ hreplay

/-- A walk answered below bit `m`, which is not below the last discrepancy: the bits below `m` are decided
(41_device_search.md R155, R157). -/
theorem walk_reaches (ev : List BusEvent) {m : Nat} (hld : ld = lastDiscrepancy s.sdisc)
    (hm : walkStart ld ≤ m) (h64 : m ≤ 64) (hN : e + 8 * m ≤ N)
    (hans : ∀ j < m, some j ≠ ld → s.answered e j = true) :
    ∃ (new : Bool) (a d : Addr),
      (walk ld).run (s.ran e ev .released) =
        (discover ld (64 - m) m new >>= afterDiscovery).run
          ((s.withWalk a d).ran (e + 8 * m) (ev ++ s.bitsTrace ld e m) .released) ∧
      (∀ j < 64, a.getLsbD j = if j < m then s.walkAddrBit ld e j else s.saddr.getLsbD j) ∧
      (∀ j < 64, d.getLsbD j = if j < m then s.walkDiscBit ld e j else s.sdisc.getLsbD j) ∧
      (new = true → ∃ j < m, d.getLsbD j = true) := by
  obtain ⟨r, rfl⟩ := Nat.exists_eq_add_of_le hm
  have hreplayed := walk_replayed hq hb (ld := ld) ev (by omega) fun j hj =>
    hans j (by omega) (by rintro rfl; exact absurd hj (Nat.lt_irrefl _))
  obtain ⟨new, a, d, hrun, ha, hd, hnew⟩ := discover_prefix hq hb ld e (64 - (walkStart ld + r)) r
    (walkStart ld) false s.saddr s.sdisc (ev ++ s.bitsTrace ld e (walkStart ld)) .released
    (fun j _ hj hne => hans j hj hne.symm) nofun h64 hN
  refine ⟨new, a, d, ?_, fun j hj => ?_, fun j hj => ?_, hnew⟩
  · rw [List.append_assoc, bitsTrace_add, ite_self,
      show r + (64 - (walkStart ld + r)) = 64 - walkStart ld by omega] at hrun
    rw [hreplayed, discoverFrom_eq]
    exact Op.bind_congr _ hrun
  · rw [ha j hj]; exact ite_walkAddrBit (· < walkStart ld + r) j
  · rw [hd j hj]; exact ite_walkDiscBit hld (· < walkStart ld + r) hj

/-- A walk that every bit answers returns a device (41_device_search.md R157 to R159). -/
theorem walk_finds (ev : List BusEvent) (hld : ld = lastDiscrepancy s.sdisc) (hN : e + 512 ≤ N)
    (hans : ∀ j < 64, some j ≠ ld → s.answered e j = true) :
    ∃ a d : Addr,
      (walk ld).run (s.ran e ev .released) = .ok () (((({ s with
          found := a
          sphase := if d = 0 then .ended else .deviceFound
          srchResult := .found } : State).withWalk a d).ran (e + 512) (ev ++ s.bitsTrace ld e 64)
        .released).crcEval (addrCrc a) (byteAt a 7)) ∧
      (∀ j < 64, a.getLsbD j = s.walkAddrBit ld e j) ∧
      (∀ j < 64, d.getLsbD j = s.walkDiscBit ld e j) := by
  obtain ⟨new, a, d, hrun, ha, hd, hnew⟩ :=
    walk_reaches hq hb ev hld (walkStart_le hld) le_rfl hN hans
  refine ⟨a, d, ?_, fun j hj => ?_, fun j hj => ?_⟩
  · have hphase : (if !new && d == 0 then Phase.ended else .deviceFound)
        = if d = 0 then .ended else .deviceFound := by
      cases new with
      | false => simp only [Bool.not_false, Bool.true_and, beq_iff_eq]
      | true =>
        obtain ⟨j, -, hj⟩ := hnew rfl
        exact (if_neg fun hd0 : d = 0 => by simp [hd0] at hj).symm
    have hfound := foundDevice_quiet (s := (s.withWalk a d).ran (e + 512) (ev ++ s.bitsTrace ld e 64)
      .released) new hq
    rw [← hphase]
    exact hrun.trans hfound
  · rw [ha j hj, if_pos hj]
  · rw [hd j hj, if_pos hj]

/-- A walk aborts where both bits of a pair read 1 away from the last discrepancy, and keeps what it wrote
below (41_device_search.md R155, R157, R160). -/
theorem walk_aborts (ev : List BusEvent) {m : Nat} (hld : ld = lastDiscrepancy s.sdisc) (h64 : m < 64)
    (hN : e + 8 * m + 6 ≤ N) (hne : some m ≠ ld) (habort : s.answered e m = false)
    (hans : ∀ j < m, some j ≠ ld → s.answered e j = true) :
    ∃ a d : Addr,
      (walk ld).run (s.ran e ev .released) = .ok () ((({ s with
          srchResult := .noneNoResponse } : State).withWalk a d).ran (e + 8 * m + 6)
        (ev ++ s.bitsTrace ld e m ++ readSlotTrace true ++ readSlotTrace true) .released) ∧
      (∀ j < 64, a.getLsbD j = if j < m then s.walkAddrBit ld e j else s.saddr.getLsbD j) ∧
      (∀ j < 64, d.getLsbD j = if j < m then s.walkDiscBit ld e j else s.sdisc.getLsbD j) := by
  obtain ⟨ht, hc⟩ : s.trueBit e m = true ∧ s.compBit e m = true := by
    simpa [State.answered] using habort
  by_cases hm : walkStart ld ≤ m
  · -- discovery aborts
    obtain ⟨new, a, d, hrun, ha, hd, -⟩ := walk_reaches hq hb ev hld hm (Nat.le_of_lt h64) (by omega) hans
    refine ⟨a, d, hrun.trans ?_, ha, hd⟩
    have hdiscover : (discover ld (64 - m) m new).run
        ((s.withWalk a d).ran (e + 8 * m) (ev ++ s.bitsTrace ld e m) .released)
        = .ok none ((s.withWalk a d).ran (e + 8 * m + 6)
          (ev ++ s.bitsTrace ld e m ++ readSlotTrace true ++ readSlotTrace true) .released) := by
      rw [show 64 - m = 63 - m + 1 by omega]
      unfold discover
      refine (pair_ran hq hb (e := e) (i := m) _ a d rfl hN).trans ?_
      simp only [ht, hc, if_neg hne.symm, Bool.and_self, if_true, EStateM.run_pure]
    exact (Op.bind_ok _ hdiscover).trans (setResult_quiet _ hq)
  · -- replay aborts
    cases ld with
    | none => exact absurd (Nat.zero_le m) hm
    | some l =>
      have hml : m < l := Nat.not_le.1 hm
      have hreplay := replay_prefix hq hb e (l - m - 1 + 1) m 0 ev .released
        (fun j _ hj => hans j (by omega) (by rintro ⟨⟩; omega)) (by omega)
      rw [Nat.zero_add, ite_self, bitsTrace_of_le (ld := some l) (m := m) (Nat.le_of_lt hml),
        show m + (l - m - 1 + 1) = l by omega] at hreplay
      have habort : (replay (l - m - 1 + 1) m).run
          (s.ran (e + 8 * m) (ev ++ s.bitsTrace (some l) e m) .released)
          = .ok false (s.ran (e + 8 * m + 6)
            (ev ++ s.bitsTrace (some l) e m ++ readSlotTrace true ++ readSlotTrace true) .released) := by
        unfold replay
        refine (pair_ran hq hb (e := e) (i := m) _ s.saddr s.sdisc rfl hN).trans ?_
        simp only [ht, hc, Bool.and_self, if_true, EStateM.run_pure]
        rfl
      refine ⟨s.saddr, s.sdisc, ?_, fun j _ => ?_, fun j _ => ?_⟩
      · exact (Op.bind_ok _ (hreplay.trans habort)).trans (setResult_quiet _ hq)
      · split
        · exact (walkAddrBit_of_lt s (some l) e (Nat.lt_trans ‹_› hml)).symm
        · rfl
      · split
        · exact (walkDiscBit_of_lt s (some l) e (Nat.lt_trans ‹_› hml)).symm
        · rfl

end

/-! ## Calls that walk -/

/-- A call that finds presence and is not over leaves what its walk leaves (41_device_search.md R152). -/
theorem exec_search_walk {i : Instr} {s t r : State} {N k : Nat} (hi : i.isSearch) (hq : Quiet s)
    (hb : BusOk s N) (hph : s.sphase ≠ .ended) (hk : WireHighAfter s k) (hp : s.presenceSeen k = true)
    (hN : s.resetEvents k + 17 ≤ N) (hover : lastDiscrepancy s.sdisc = none → s.sphase ≠ .deviceFound)
    (hwalk : (walk (lastDiscrepancy s.sdisc)).run (({ accept s with presence := true } : State).ran
      (s.resetEvents k + 17) (s.callTrace k i.searchByte) .released) = .ok () t)
    (ht : Quiet t) (hr : complete t = r) : exec i s = .next r := by
  have hrun := search_present (s := accept s) hq hb hph hk hp hN i.searchByte
  rw [if_neg fun h => hover h.1 h.2] at hrun
  exact (exec_search hi s).trans (runCommand_ok hq (hrun.trans hwalk) ht hr)

/-- Settles O41: the walk is answered at every bit. -/
theorem searchCallReturnsADevice : Obligations.SearchCallReturnsADevice := by
  intro i k e ld s hi hq hph hk hp he hb hld hover hans
  subst he hld
  obtain ⟨a, d, hwalk, ha, hd⟩ := walk_finds (s := { accept s with presence := true }) hq hb
    (s.callTrace k i.searchByte) rfl le_rfl hans
  exact ⟨a, d, ha, hd, exec_search_walk hi hq hb hph hk hp (by omega) hover hwalk hq rfl⟩

/-- Settles O42: the walk is answered below bit `m`. -/
theorem searchAbortKeepsPartialWalk : Obligations.SearchAbortKeepsPartialWalk := by
  intro i k e m ld s hi hq hph hk hp he hb hld hover h64 hne habort hans
  subst he hld
  obtain ⟨a, d, hwalk, ha, hd⟩ := walk_aborts (s := { accept s with presence := true }) hq hb
    (s.callTrace k i.searchByte) rfl h64 le_rfl hne habort hans
  exact ⟨a, d, ha, hd, exec_search_walk hi hq hb hph hk hp (by omega) hover hwalk hq rfl⟩

end Sys2Proof.Machine
end

section
/-!
SUPPORT. Where a bus event that fails ends a search call (41_device_search.md R157, R160;
60_exceptions.md R251).
-/

namespace Sys2Proof.Machine

section
variable {s : State} {f : Nat} {code : Byte}
  (hq : Quiet s) (hb : BusOk s f) (hr : s.replyAt f = .err code)
include hq hb hr

/-- Event `f` ends the walk: the bits whose pair was complete are decided (41_device_search.md R157, R160). -/
theorem walk_error {ld : Option Nat} {e : Nat} (ev : List BusEvent) (hld : ld = lastDiscrepancy s.sdisc)
    (h1 : e ≤ f) (h2 : f < e + 512)
    (hans : ∀ j < 64, some j ≠ ld → e + 8 * j + 6 ≤ f → s.answered e j = true) :
    ∃ a d : Addr,
      (walk ld).run (s.ran e ev .released) = .error (.raised (.portError code))
        ((s.withWalk a d).lost f (ev ++ failAt code (f - e) (s.bitsTrace ld e 64))) ∧
      (∀ j < 64, a.getLsbD j = if e + 8 * j + 6 ≤ f then s.walkAddrBit ld e j else s.saddr.getLsbD j) ∧
      (∀ j < 64, d.getLsbD j = if e + 8 * j + 6 ≤ f then s.walkDiscBit ld e j else s.sdisc.getLsbD j) := by
  have h64 := walkStart_le hld
  have htrace := bitsTrace_add (s := s) (ld := ld) (e := e) (64 - walkStart ld)
  rw [Nat.add_sub_cancel' h64] at htrace
  have hans' : ∀ j < walkStart ld, e + 8 * j + 6 ≤ f → s.answered e j = true := fun j hj =>
    hans j (by omega) (by rintro rfl; exact absurd hj (Nat.lt_irrefl _))
  rw [← htrace]
  by_cases hstart : e + 8 * walkStart ld ≤ f
  · -- discovery is ended
    obtain ⟨a, d, hrun, ha, hd⟩ := discover_error hq hb hr ld e (64 - walkStart ld) (walkStart ld)
      s.saddr s.sdisc (ev ++ s.bitsTrace ld e (walkStart ld)) .released hstart (by omega) (by omega)
      fun j _ hj hne => hans j (by omega) hne.symm
    refine ⟨a, d, ?_, fun j hj => ?_, fun j hj => ?_⟩
    · rw [walk_replayed hq hb ev hstart fun j hj => hans' j hj (by omega),
        failAt_append_ge _ _ (by rw [busCount_bitsTrace]; omega), busCount_bitsTrace, ← List.append_assoc,
        Nat.sub_sub]
      exact Op.bind_error _ hrun
    · rw [ha j hj]; exact ite_walkAddrBit (fun j => e + 8 * j + 6 ≤ f) j
    · rw [hd j hj]; exact ite_walkDiscBit hld (fun j => e + 8 * j + 6 ≤ f) hj
  · -- replay is ended
    have hlt : ∀ j, e + 8 * j + 6 ≤ f → j < walkStart ld := by omega
    refine ⟨s.saddr, s.sdisc, ?_, fun j _ => ?_, fun j _ => ?_⟩
    · cases ld with
      | none => exact absurd h1 hstart
      | some l =>
        have hreplay := replay_error hq hb hr e l ev .released h1 (by exact Nat.not_le.1 hstart) hans'
        rw [bitsTrace_of_le (ld := some l) (m := l) le_rfl] at hreplay
        rw [failAt_append_left _ _ _ _ (by rw [busCount_bitsTrace]; omega)]
        exact Op.bind_error _ hreplay
    · split
      · exact (walkAddrBit_of_lt s ld e (hlt j ‹_›)).symm
      · rfl
    · split
      · exact (walkDiscBit_of_lt s ld e (hlt j ‹_›)).symm
      · rfl

end

/-- The bus events of a call that finds presence (41_device_search.md R152). -/
theorem searchTrace_present {s : State} {k : Nat} (hp : s.presenceSeen k = true) (i : Instr) :
    s.searchTrace k i = s.callTrace k i.searchByte ++
      if lastDiscrepancy s.sdisc = none ∧ s.sphase = .deviceFound then []
      else s.bitsTrace (lastDiscrepancy s.sdisc) (s.resetEvents k + 17) 64 := by
  rw [State.searchTrace, if_pos hp, State.callTrace, List.append_assoc]

/-- Without presence it ends with the bus reset (41_device_search.md R154). -/
theorem searchTrace_absent {s : State} {k : Nat} (hp : ¬ s.presenceSeen k = true) (i : Instr) :
    s.searchTrace k i = s.resetTrace k := by
  rw [State.searchTrace, if_neg hp, List.append_nil]

theorem busCount_callTrace (s : State) (k : Nat) (b : Byte) :
    busCount (s.callTrace k b) = s.resetEvents k + 17 := by
  rw [State.callTrace, busCount_append, busCount_resetTrace, busCount_writeByteTrace]

/-- The polls before an event after the bus reset are all of them (40_bit_transport.md R127). -/
theorem wireHighAfter_of_pollsBefore {s : State} {k f : Nat} (hk : PollsBefore s k f)
    (hf : s.resetEvents k ≤ f) : WireHighAfter s k := by
  obtain ⟨hlt, hlow, hhigh⟩ := hk
  unfold State.resetEvents at hf
  exact ⟨hlt, fun j hj => hlow j hj (by omega), hhigh (by omega)⟩

/-- The bits written before event `f` of a call are those of its walk (41_device_search.md R160). -/
abbrev WrittenBefore (s : State) (k f : Nat) (a d : Addr) : Prop :=
  (∀ j < 64, a.getLsbD j = if s.resetEvents k + 17 + 8 * j + 6 ≤ f then
    s.walkAddrBit (lastDiscrepancy s.sdisc) (s.resetEvents k + 17) j else s.saddr.getLsbD j) ∧
  (∀ j < 64, d.getLsbD j = if s.resetEvents k + 17 + 8 * j + 6 ≤ f then
    s.walkDiscBit (lastDiscrepancy s.sdisc) (s.resetEvents k + 17) j else s.sdisc.getLsbD j)

/-- Before the walk nothing is written. -/
theorem writtenBefore_call {s : State} {k f : Nat} (hf : f < s.resetEvents k + 17) :
    WrittenBefore s k f s.saddr s.sdisc :=
  ⟨fun _ _ => (if_neg (by omega)).symm, fun _ _ => (if_neg (by omega)).symm⟩

/-- Event `f` ends a search call: in the bus reset, in the command byte, or in the walk
(41_device_search.md R152, R160). -/
theorem search_error {s : State} {f k : Nat} {code : Byte} {i : Instr} (hq : Quiet s) (hb : BusOk s f)
    (hr : s.replyAt f = .err code) (hph : s.sphase ≠ .ended) (hk : PollsBefore s k f)
    (hf : f < busCount (s.searchTrace k i))
    (hans : ∀ j < 64, some j ≠ lastDiscrepancy s.sdisc → s.resetEvents k + 17 + 8 * j + 6 ≤ f →
      s.answered (s.resetEvents k + 17) j = true) :
    ∃ a d : Addr, WrittenBefore s k f a d ∧
      (search (writeByteSeq i.searchByte false)).run s = .error (.raised (.portError code))
        ((({ s with presence := if s.resetEvents k ≤ f then s.presenceSeen k else s.presence } :
          State).withWalk a d).lost f (failAt code f (s.searchTrace k i))) := by
  by_cases hreset : s.resetEvents k ≤ f
  · have hpresent : s.presenceSeen k = true := by
      by_contra hp
      rw [searchTrace_absent hp, busCount_resetTrace] at hf
      omega
    have hhigh := wireHighAfter_of_pollsBefore hk hreset
    have hcount := busCount_callTrace s k i.searchByte
    rw [searchTrace_present hpresent, busCount_append, hcount] at hf
    rw [searchTrace_present hpresent, if_pos hreset, hpresent]
    by_cases hsent : s.resetEvents k + 17 ≤ f
    · -- the walk
      by_cases hover : lastDiscrepancy s.sdisc = none ∧ s.sphase = .deviceFound
      · rw [if_pos hover] at hf
        exact absurd hf (Nat.not_lt.2 hsent)
      · rw [if_neg hover, busCount_bitsTrace] at hf
        obtain ⟨a, d, hwalk, ha, hd⟩ := walk_error (s := { s with presence := true }) hq hb hr
          (s.callTrace k i.searchByte) rfl hsent hf hans
        have hrun := search_present hq hb hph hhigh hpresent hsent i.searchByte
        rw [if_neg hover] at hrun ⊢
        rw [failAt_append_ge _ _ (hcount ▸ hsent), hcount]
        exact ⟨a, d, ⟨ha, hd⟩, hrun.trans hwalk⟩
    · -- the command byte
      have hcall := busReset_ran hq hb hhigh hreset
      rw [hpresent] at hcall
      have hsend := (writeByteSeq_acts (s := { s with presence := true }) hq hb hr i.searchByte false
        (s.resetEvents k)).error hreset (by rw [busCount_writeByteTrace]; omega) (s.resetTrace k) .released
      rw [failAt_append_left _ _ _ _ (by omega), State.callTrace,
        failAt_append_ge _ _ (by rw [busCount_resetTrace]; omega), busCount_resetTrace]
      exact ⟨s.saddr, s.sdisc, writtenBefore_call (by omega), search_sendError hph hcall hsend⟩
  · -- the bus reset
    have hcall := busReset_error hq hb hr hk (Nat.not_le.1 hreset)
    rw [if_neg hreset, State.searchTrace,
      failAt_append_left _ _ _ _ (by rw [busCount_resetTrace]; omega)]
    exact ⟨s.saddr, s.sdisc, writtenBefore_call (by omega), search_resetError hph hcall⟩

/-- Settles O40: the failed event is one of those a search call issues. -/
theorem portFailureEndsASearch : Obligations.PortFailureEndsASearch := by
  intro i s k e f ld code hq hi hph hk hb hr hf he hld hans
  subst he hld
  have hissues : s.issues k i = s.searchTrace k i := by
    cases i with
    | searchNext | searchAlarm => rfl
    | _ => exact absurd hi nofun
  rw [hissues] at hf ⊢
  obtain ⟨a, d, ⟨ha, hd⟩, hrun⟩ := search_error (s := accept s) hq hb hr hph hk hf hans
  exact ⟨a, d, ha, hd, (exec_search hi s).trans (runCommand_raise hq hrun hq rfl)⟩

end Sys2Proof.Machine
end

section
/-!
SUPPORT. A search on a bus of devices that answer as 1-Wire devices do: some device follows the walk at every
bit, so the walk ends at a device, the next one in wire order (41_device_search.md R163; log entry 26).
-/

namespace Sys2Proof.Machine

/-- Some device of `D` takes part at bit `i` of the walk along `a` (41_device_search.md R163). -/
abbrev SomeFollows (D : List Addr) (a : Addr) (i : Nat) : Prop := ∃ d ∈ D, agreesBelow d a i

theorem agreesBelow_zero (d a : Addr) : agreesBelow d a 0 := fun j hj => absurd hj (Nat.not_lt_zero j)

theorem agreesBelow_succ {d a : Addr} {i : Nat} (h : agreesBelow d a i) (hi : d.getLsbD i = a.getLsbD i) :
    agreesBelow d a (i + 1) := by
  intro j hj
  rcases Nat.lt_succ_iff_lt_or_eq.1 hj with hj | rfl
  · exact h j hj
  · exact hi

theorem agreesBelow.mono {d a : Addr} {i n : Nat} (h : agreesBelow d a n) (hi : i ≤ n) :
    agreesBelow d a i :=
  fun j hj => h j (Nat.lt_of_lt_of_le hj hi)

theorem agreesBelow.trans {d b a : Addr} {i : Nat} (h : agreesBelow d b i) (hb : agreesBelow b a i) :
    agreesBelow d a i := fun j hj => (h j hj).trans (hb j hj)

theorem agreesBelow.symm {d a : Addr} {i : Nat} (h : agreesBelow d a i) : agreesBelow a d i :=
  fun j hj => (h j hj).symm

/-- An address that agrees at all 64 bits is the same. -/
theorem eq_of_agreesBelow {d a : Addr} (h : agreesBelow d a 64) : d = a :=
  BitVec.eq_of_getLsbD_eq h

/-- Two addresses that differ part at some bit. -/
theorem exists_fork {d a : Addr} (h : d ≠ a) :
    ∃ i < 64, agreesBelow d a i ∧ d.getLsbD i ≠ a.getLsbD i := by
  have hex : ∃ i, i < 64 ∧ d.getLsbD i ≠ a.getLsbD i := by
    by_contra hall
    push Not at hall
    exact h (eq_of_agreesBelow hall)
  obtain ⟨h64, hne⟩ := Nat.find_spec hex
  refine ⟨Nat.find hex, h64, fun j hj => ?_, hne⟩
  by_contra hj'
  exact Nat.find_min hex hj ⟨Nat.lt_trans hj h64, hj'⟩

section
variable {D : List Addr} {s : State} {e i : Nat} {a : Addr} (hD : DevicesAnswer D s e a)
include hD

/-- A pair that some device takes part in is answered. -/
theorem answered_of_someFollows (hi : i < 64) (h : SomeFollows D a i) : s.answered e i = true := by
  obtain ⟨d, hd, hagree⟩ := h
  by_contra hans
  obtain ⟨ht, hc⟩ : s.trueBit e i = true ∧ s.compBit e i = true := by
    simpa [State.answered] using hans
  have h1 := (hD i hi).1.1 ht d hd hagree
  have h0 := (hD i hi).2.1 hc d hd hagree
  exact absurd (h1.symm.trans h0) nofun

/-- The complement is low exactly when some device answers 1. -/
theorem compBit_eq_false_iff (hi : i < 64) :
    s.compBit e i = false ↔ ∃ d ∈ D, agreesBelow d a i ∧ d.getLsbD i = true := by
  rw [← Bool.not_eq_true, (hD i hi).2]
  push Not
  simp only [ne_eq, Bool.not_eq_false]

theorem trueBit_eq_false_iff (hi : i < 64) :
    s.trueBit e i = false ↔ ∃ d ∈ D, agreesBelow d a i ∧ d.getLsbD i = false := by
  rw [← Bool.not_eq_true, (hD i hi).1]
  push Not
  simp only [ne_eq, Bool.not_eq_true]

/-- The walk takes a branch on which some device answered. -/
theorem someFollows_succ (hi : i < 64) (hans : s.answered e i = true) (ha : a.getLsbD i = s.trueBit e i) :
    SomeFollows D a (i + 1) := by
  cases ht : s.trueBit e i with
  | false =>
    obtain ⟨d, hd, hagree, h0⟩ := (trueBit_eq_false_iff hD hi).1 ht
    exact ⟨d, hd, agreesBelow_succ hagree (h0.trans (ha.trans ht).symm)⟩
  | true =>
    have hc : s.compBit e i = false := by simpa [State.answered, ht] using hans
    obtain ⟨d, hd, hagree, h1⟩ := (compBit_eq_false_iff hD hi).1 hc
    exact ⟨d, hd, agreesBelow_succ hagree (h1.trans (ha.trans ht).symm)⟩

/-- A device that follows the walk as far as bits are decided by the bus, and is not the one found, comes
after it. -/
theorem wireAfter_of_ne {b : Nat} (ha : ∀ j, b ≤ j → j < 64 → a.getLsbD j = s.trueBit e j) {d : Addr}
    (hd : d ∈ D) (hagree : agreesBelow d a b) (hne : d ≠ a) : wireAfter a d := by
  obtain ⟨i, hi, hbelow, hfork⟩ := exists_fork hne
  have hbi : b ≤ i := by
    by_contra hlt
    exact hfork (hagree i (Nat.not_le.1 hlt))
  have ha0 : a.getLsbD i = false := by
    by_contra h1
    have ha1 : a.getLsbD i = true := by simpa using h1
    have ht : s.trueBit e i = true := (ha i hbi hi).symm.trans ha1
    exact hfork (((hD i hi).1.1 ht d hd hbelow).trans ha1.symm)
  refine ⟨i, hi, hbelow, ha0, ?_⟩
  simpa [ha0] using hfork

end

/-! ## A call on such a bus -/

/-- The first bit whose address bit the bus decides: past the resumed fork, if there is one
(41_device_search.md R157). -/
abbrev busStart (ld : Option Nat) : Nat := ld.elim 0 (· + 1)

theorem walkAddrBit_of_busStart (s : State) (ld : Option Nat) (e : Nat) {j : Nat} (h : busStart ld ≤ j) :
    s.walkAddrBit ld e j = s.trueBit e j := by
  cases ld with
  | none => rfl
  | some l =>
    have hlt : l < j := h
    simp [State.walkAddrBit, Nat.not_lt_of_lt hlt, Nat.ne_of_gt hlt]

/-- Some device is on the branch that a call with last discrepancy `ld` resumes, or on the bus at all
(41_device_search.md R157). -/
def Resumes (D : List Addr) (s : State) : Option Nat → Prop
  | none => D ≠ []
  | some l => ∃ d ∈ D, agreesBelow d s.saddr l ∧ d.getLsbD l = true

section
variable {D : List Addr} {s : State} {e : Nat} {ld : Option Nat} {a : Addr}

/-- A device on the resumed branch agrees with the walk through that branch. -/
theorem agreesBelow_busStart {l m : Nat} (ha : ∀ j < m, a.getLsbD j = s.walkAddrBit (some l) e j)
    (hm : m ≤ l + 1) {d : Addr} (hagree : agreesBelow d s.saddr l) (hd : d.getLsbD l = true) :
    agreesBelow d a m := by
  intro j hj
  rcases Nat.lt_succ_iff_lt_or_eq.1 (Nat.lt_of_lt_of_le hj hm) with hjl | rfl
  · rw [ha j hj, walkAddrBit_of_lt s (some l) e hjl, hagree j hjl]
  · rw [ha j hj, hd]
    simp [State.walkAddrBit]

/-- Some device follows a walk as far as it was answered. -/
theorem someFollows_walk (hD : DevicesAnswer D s e a) (hres : Resumes D s ld) {m : Nat} (hm : m ≤ 64)
    (ha : ∀ j < m, a.getLsbD j = s.walkAddrBit ld e j)
    (hans : ∀ j < m, some j ≠ ld → s.answered e j = true) : SomeFollows D a m := by
  by_cases hstart : m ≤ busStart ld
  · cases ld with
    | none =>
      obtain rfl : m = 0 := Nat.le_zero.1 hstart
      obtain ⟨d, hd⟩ := List.exists_mem_of_ne_nil D hres
      exact ⟨d, hd, agreesBelow_zero d a⟩
    | some l =>
      obtain ⟨d, hd, hagree, h1⟩ := hres
      exact ⟨d, hd, agreesBelow_busStart ha hstart hagree h1⟩
  · obtain ⟨n, rfl⟩ : ∃ n, m = n + 1 := ⟨m - 1, by omega⟩
    have hn : busStart ld ≤ n := by omega
    refine someFollows_succ hD hm (hans n (Nat.lt_succ_self n) ?_) ?_
    · rintro rfl
      exact Nat.not_succ_le_self n hn
    · rw [ha n (Nat.lt_succ_self n), walkAddrBit_of_busStart s ld e hn]

/-- Where the bus decides the address bit, the mark is set exactly at a fork with a device on its 1-branch. -/
theorem fork_iff (hD : DevicesAnswer D s e a) {i : Nat} (hi : i < 64) (ha : a.getLsbD i = s.trueBit e i) :
    (!s.trueBit e i && !s.compBit e i) = true ↔
      a.getLsbD i = false ∧ ∃ d ∈ D, agreesBelow d a i ∧ d.getLsbD i = true := by
  rw [← compBit_eq_false_iff hD hi, ha, Bool.and_eq_true, Bool.not_eq_true', Bool.not_eq_true']

/-- The walk keeps the bitmap exact: below the resumed fork path and marks are the old ones, at it the
1-branch is taken, above it each fork is marked (41_device_search.md R157). -/
theorem pendingExact_walk {disc : Addr} (hD : DevicesAnswer D s e a)
    (hold : ∀ l, ld = some l → PendingExact D s.saddr s.sdisc)
    (ha : ∀ j < 64, a.getLsbD j = s.walkAddrBit ld e j)
    (hdisc : ∀ j < 64, disc.getLsbD j = s.walkDiscBit ld e j) : PendingExact D a disc := by
  intro i hi
  rw [hdisc i hi]
  cases ld with
  | none => exact fork_iff hD hi (ha i hi)
  | some l =>
    rcases Nat.lt_trichotomy i l with hlt | rfl | hgt
    · have hpath : agreesBelow a s.saddr i := fun j hj => by
        rw [ha j (by omega), walkAddrBit_of_lt s (some l) e (Nat.lt_trans hj hlt)]
      have hagree : ∀ d : Addr, agreesBelow d s.saddr i ↔ agreesBelow d a i := fun d =>
        ⟨fun h => agreesBelow.trans h (agreesBelow.symm hpath), fun h => agreesBelow.trans h hpath⟩
      rw [walkDiscBit_of_lt s (some l) e hlt, ha i hi, walkAddrBit_of_lt s (some l) e hlt, hold l rfl i hi]
      simp only [hagree]
    · simp [ha i hi, State.walkAddrBit, State.walkDiscBit]
    · have hdec : s.walkDiscBit (some l) e i = (!s.trueBit e i && !s.compBit e i) := by
        simp [State.walkDiscBit, Nat.not_lt_of_lt hgt, Nat.ne_of_gt hgt]
      rw [hdec]
      exact fork_iff hD hi ((ha i hi).trans (walkAddrBit_of_busStart s (some l) e hgt))

end

/-- What a search call leaves that returned a device of `D`, with pairs from event `e` on. -/
structure DeviceReturned (D : List Addr) (s t : State) (e : Nat) : Prop where
  result : t.srchResult = .found
  err : t.err = .none
  found : t.found = t.saddr
  mem : t.found ∈ D
  phase : t.sphase = if t.sdisc = 0 then .ended else .deviceFound
  addr : ∀ j < 64, t.saddr.getLsbD j = s.walkAddrBit (lastDiscrepancy s.sdisc) e j
  disc : ∀ j < 64, t.sdisc.getLsbD j = s.walkDiscBit (lastDiscrepancy s.sdisc) e j

section
variable {i : Instr} {k e : Nat} {s t : State} {D : List Addr} (hi : i.isSearch) (hq : Quiet s)
  (hph : s.sphase ≠ .ended) (hk : WireHighAfter s k) (hp : s.presenceSeen k = true)
  (he : e = s.resetEvents k + 17) (hb : BusOk s (e + 512))
  (hover : lastDiscrepancy s.sdisc = none → s.sphase ≠ .deviceFound) (ht : exec i s = .next t)
  (hD : DevicesAnswer D s e t.saddr) (hres : Resumes D s (lastDiscrepancy s.sdisc))
include hi hq hph hk hp he hb hover ht hD hres

/-- A walk among devices is answered at every bit: at the first bit that was not, the device that follows
the walk so far would have answered (41_device_search.md R163). -/
theorem answered_walk : ∀ j < 64, some j ≠ lastDiscrepancy s.sdisc → s.answered e j = true := by
  by_contra hsome
  push Not at hsome
  obtain ⟨h64, hne, habort⟩ := Nat.find_spec hsome
  have hans : ∀ j < Nat.find hsome, some j ≠ lastDiscrepancy s.sdisc → s.answered e j = true := by
    intro j hj hjne
    by_contra hj'
    exact Nat.find_min hsome hj ⟨Nat.lt_trans hj h64, hjne, hj'⟩
  obtain ⟨a, d, ha, -, hrun⟩ := searchAbortKeepsPartialWalk i k e (Nat.find hsome) _ s hi hq hph hk hp he
    (fun j hj => hb j (by omega)) rfl hover h64 hne (by simpa using habort) hans
  obtain rfl := Host.Outcome.next.inj (ht.symm.trans hrun)
  have hfollows := someFollows_walk hD hres (Nat.le_of_lt h64)
    (fun j hj => (ha j (Nat.lt_trans hj h64)).trans (if_pos hj)) hans
  exact habort (answered_of_someFollows hD h64 hfollows)

theorem deviceReturned : DeviceReturned D s t e := by
  have hans := answered_walk hi hq hph hk hp he hb hover ht hD hres
  obtain ⟨a, d, ha, hd, hrun⟩ := searchCallReturnsADevice i k e _ s hi hq hph hk hp he hb rfl hover hans
  obtain rfl := Host.Outcome.next.inj (ht.symm.trans hrun)
  obtain ⟨b, hbD, hagree⟩ := someFollows_walk hD hres le_rfl ha hans
  obtain rfl : b = a := eq_of_agreesBelow hagree
  exact ⟨rfl, rfl, rfl, hbD, rfl, ha, hd⟩

end

/-- Settles O43: a fresh search follows the bus from bit 0 on. -/
theorem freshSearchFindsTheFirstDevice : Obligations.FreshSearchFindsTheFirstDevice := by
  intro i k e s t D hi hq hne hphase hdisc hk hp he hb ht hD
  have hld : lastDiscrepancy s.sdisc = none := (lastDiscrepancyIsHighestBit s.sdisc).1.2 hdisc
  have hret := deviceReturned hi hq (by simp [hphase]) hk hp he hb (by simp [hphase]) ht hD
    (by rw [hld]; exact hne)
  obtain ⟨hresult, herr, hfound, hmem, hend, haddr, hmarks⟩ := hret
  rw [hld] at haddr hmarks
  refine ⟨hresult, herr, hfound, hmem, fun d hd => ?_,
    pendingExact_walk (ld := none) hD (fun _ h => nomatch h) haddr hmarks, hend⟩
  rw [hfound]
  exact or_iff_not_imp_left.2 (wireAfter_of_ne (b := 0) hD (fun j _ hj => haddr j hj) hd
    (agreesBelow_zero _ _))

/-- Settles O44: the last discrepancy is the fork of the next device, since every later one is done. -/
theorem resumedSearchFindsTheNextDevice : Obligations.ResumedSearchFindsTheNextDevice := by
  intro i k e s t D hi hq hphase hdisc hexact hk hp he hb ht hD
  obtain ⟨l, hld⟩ : ∃ l, lastDiscrepancy s.sdisc = some l :=
    Option.ne_none_iff_exists'.1 fun h => hdisc (eq_zero_of_lastDiscrepancy_none h)
  obtain ⟨h64, hmark, habove⟩ := ((lastDiscrepancyIsHighestBit s.sdisc).2 l).1 hld
  obtain ⟨hzero, hbranch⟩ := (hexact l h64).1 hmark
  have hret := deviceReturned hi hq (by simp [hphase]) hk hp he hb (by simp [hld]) ht hD
    (by rw [hld]; exact hbranch)
  obtain ⟨hresult, herr, hfound, hmem, hend, haddr, hmarks⟩ := hret
  rw [hld] at haddr hmarks
  have hpath : agreesBelow t.saddr s.saddr l := fun j hj =>
    (haddr j (Nat.lt_trans hj h64)).trans (walkAddrBit_of_lt s (some l) e hj)
  have hone : t.saddr.getLsbD l = true := by simp [haddr l h64, State.walkAddrBit]
  refine ⟨hresult, herr, hfound, hmem, ?next, fun d hd hafter => ?least,
    pendingExact_walk hD (fun _ _ => hexact) haddr hmarks, hend⟩ <;> rw [hfound]
  case next => exact ⟨l, h64, hpath, hzero, hone⟩
  case least =>
    obtain ⟨j, hj, hagree, hj0, hj1⟩ := hafter
    have hjl : j ≤ l := by
      by_contra hlt
      have hset := (hexact j hj).2 ⟨hj0, d, hd, hagree, hj1⟩
      exact absurd (hset.symm.trans (habove j (Nat.not_le.1 hlt) hj)) nofun
    rcases Nat.lt_or_eq_of_le hjl with hlt | rfl
    · -- `d` parts from the path at an earlier fork
      refine .inr ⟨j, hj, agreesBelow.trans hagree (agreesBelow.symm (agreesBelow.mono hpath hjl)), ?_, hj1⟩
      rw [hpath j hlt, hj0]
    · -- `d` is on the resumed branch
      have hthrough := agreesBelow_busStart (fun n hn => haddr n (by omega)) le_rfl hagree hj1
      exact or_iff_not_imp_left.2 (wireAfter_of_ne hD
        (fun n hn h => (haddr n h).trans (walkAddrBit_of_busStart s (some j) e hn)) hd hthrough)

end Sys2Proof.Machine
end

section
/-!
SUPPORT. What a search call can change, for every bus and every schedule of events: the frame is kept by bus
activity and by the writes of the walk, and `FOUND` and `CRC` are written with the result alone
(41_device_search.md R152, R161; 10_state.md R45, R46).
-/

namespace Sys2Proof.Machine

/-- What a search may change besides what every command may: the search state, its results, `PRESENCE` and
`CRC` (41_device_search.md R161). -/
abbrev OnlySearched (s t : State) : Prop :=
  OnlyRun { s with
    saddr := t.saddr, sdisc := t.sdisc, sphase := t.sphase, srchResult := t.srchResult
    found := t.found, presence := t.presence
    crcComputed := t.crcComputed, crcExpected := t.crcExpected, crcOk := t.crcOk } t

/-- `FOUND` and `CRC` are as they were (10_state.md R46). -/
abbrev KeepsFound (s t : State) : Prop :=
  t.found = s.found ∧ t.crcComputed = s.crcComputed ∧ t.crcExpected = s.crcExpected ∧ t.crcOk = s.crcOk

/-- The search state at `End` is not written (41_device_search.md R153). -/
abbrev KeepsEnd (s t : State) : Prop :=
  s.sphase = .ended → t.saddr = s.saddr ∧ t.sdisc = s.sdisc ∧ t.sphase = .ended

/-- The frame before a device is returned. -/
abbrev BeforeFound (s t : State) : Prop := KeepsFound s t ∧ KeepsEnd s t ∧ OnlySearched s t

/-- The frame of the whole call: `FOUND` and `CRC` are kept unless it returned a device. -/
abbrev Searched (s t : State) : Prop :=
  (t.srchResult ≠ .found → KeepsFound s t) ∧ KeepsEnd s t ∧ OnlySearched s t

section
variable {s : State}

theorem beforeFound_runClosed : RunClosed (BeforeFound s) := by
  rintro u w ⟨hfound, hend, hu⟩ hw
  rw [hw]
  exact ⟨hfound, hend, by rw [hu]⟩

theorem searched_runClosed : RunClosed (Searched s) := by
  rintro u w ⟨hfound, hend, hu⟩ hw
  rw [hw]
  exact ⟨hfound, hend, by rw [hu]⟩

/-- A device is being returned: `FOUND` and `CRC` may be written. -/
abbrev Returning (s t : State) : Prop := t.srchResult = .found ∧ OnlySearched s t

theorem onlySearched_runClosed : RunClosed (OnlySearched s) := fun u w hu hw => by rw [hw, hu]

theorem returning_runClosed : RunClosed (Returning s) := by
  rintro u w ⟨hresult, hu⟩ hw
  exact ⟨by rw [hw]; exact hresult, onlySearched_runClosed u w hu hw⟩

/-- A piece of a search call: it ends with the frame `Q`, or raises before a device is returned. -/
abbrev Op.Searches {α : Type} (s : State) (P : State → Prop) (x : Op α) (Q : State → Prop) : Prop :=
  Op.Triple (During P) x (fun _ => During Q) (fun _ => During (BeforeFound s)) fun _ => True

theorem Op.Searches.of_resetFails {α : Type} {x : Op α} {P : State → Prop}
    (h : Op.Triple (During P) x (fun _ => During P) (ResetFails (During P)) (During P))
    (hP : ∀ u, P u → BeforeFound s u) : Op.Searches s P x P :=
  h.mono (fun _ h => h) (fun _ _ h => h) (fun _ _ ⟨_, hlive, hu⟩ => ⟨hlive, hP _ hu⟩) fun _ _ => trivial

theorem Op.Searches.of_portFails {α : Type} {x : Op α} {P : State → Prop}
    (h : Op.Triple (During P) x (fun _ => During P) (PortFails (During P)) (During P))
    (hP : ∀ u, P u → BeforeFound s u) : Op.Searches s P x P :=
  .of_resetFails (portFails_resetFails h) hP

theorem moment_searches {P : State → Prop} (hP : RunClosed P) : Op.Searches s P moment P :=
  (moment_keeps (during_busClosed hP)).mono (fun _ h => h) (fun _ _ h => h) (fun _ _ h => h)
    fun _ _ => trivial

/-- A result is written, and nothing else (41_device_search.md R152). -/
theorem setResult_searches (r : SrchResult) : Op.Searches s (BeforeFound s) (setResult r) (Searched s) :=
  (moment_searches beforeFound_runClosed).bind fun _ => .onModify fun _ ⟨hlive, hfound, hend, hu⟩ =>
    ⟨hlive, fun _ => hfound, hend, by rw [hu]⟩

section
variable (hend : s.sphase ≠ .ended)
include hend

/-- `FOUND` and `CRC` are written with the result `FOUND` (41_device_search.md R159). -/
theorem foundDevice_searches (new : Bool) :
    Op.Searches s (BeforeFound s) (foundDevice new) (Searched s) :=
  (Op.Triple.onModify (Q := fun _ => During (BeforeFound s)) fun _ ⟨hlive, hfound, _, hu⟩ =>
    ⟨hlive, hfound, fun h => absurd h hend, by rw [hu]⟩).bind fun _ =>
  (Op.Triple.onModify (Q := fun _ => During (OnlySearched s)) fun _ ⟨hlive, _, _, hu⟩ =>
    ⟨hlive, by rw [hu]⟩).bind fun _ =>
  ((moment_searches onlySearched_runClosed).bind fun _ =>
    Op.Triple.onModify (Q := fun _ => During (Returning s)) fun _ ⟨hlive, hu⟩ =>
      ⟨hlive, rfl, by rw [hu]⟩).bind fun _ =>
  (moment_searches returning_runClosed).bind fun _ =>
    .onModify fun _ ⟨hlive, hresult, hu⟩ =>
      ⟨hlive, fun h => absurd hresult h, fun h => absurd h hend, by rw [hu]; rfl⟩

theorem discoverFrom_searches (ld : Option Nat) (start : Nat) :
    Op.Searches s (BeforeFound s) (discoverFrom ld start) (Searched s) :=
  (Op.Searches.of_portFails (discover_keeps (during_busClosed beforeFound_runClosed)
      (fun _ _ _ ⟨hlive, hfound, _, hu⟩ => ⟨hlive, hfound, fun h => absurd h hend, by rw [hu]⟩) ld _ _ _)
    fun _ h => h).bind fun
  | some new => foundDevice_searches hend new
  | none => setResult_searches _

theorem endSearch_searches : Op.Searches s (BeforeFound s) endSearch (Searched s) :=
  (moment_searches beforeFound_runClosed).bind fun _ =>
    (Op.Triple.onModify (Q := fun _ => During (BeforeFound s)) fun _ ⟨hlive, hfound, _, hu⟩ =>
      ⟨hlive, hfound, fun h => absurd h hend, by rw [hu]⟩).bind fun _ => setResult_searches _

end

/-- A search call keeps its frame, whatever the bus answers and whatever lands in it
(41_device_search.md R152, R153). -/
theorem search_searches (b : Byte) :
    Op.Searches s (BeforeFound s) (search (writeByteSeq b false)) (Searched s) := by
  have hP := during_busClosed (beforeFound_runClosed (s := s))
  have hreset : Op.Searches s (BeforeFound s) busReset (BeforeFound s) :=
    .of_resetFails (busReset_keeps hP fun _ _ ⟨hlive, hfound, hend, hu⟩ =>
      ⟨hlive, hfound, hend, by rw [hu]⟩) fun _ h => h
  refine .getBind fun a => .ite (fun _ => (setResult_searches _).pre fun _ h => h.1) fun hph => ?_
  by_cases hend : s.sphase = .ended
  · rintro u ⟨⟨_, _, hkept, _⟩, rfl⟩
    exact absurd (hkept hend).2.2 hph
  refine Op.Triple.pre ?_ fun _ h => h.1
  refine hreset.bind fun _ => .ite (fun _ => ?present) fun _ => setResult_searches _
  refine (Op.Searches.of_portFails (writeByteSeq_keeps hP b false) fun _ h => h).bind fun _ =>
    .getBind fun u => Op.Triple.pre ?_ fun _ h => h.1
  cases lastDiscrepancy u.sdisc with
  | some l =>
    exact (Op.Searches.of_portFails (replay_keeps hP l 0) fun _ h => h).bind fun _ =>
      .ite (fun _ => discoverFrom_searches hend _ _) fun _ => setResult_searches _
  | none =>
    exact .ite (fun _ => endSearch_searches hend) fun _ => discoverFrom_searches hend none 0

end

/-- Settles O57: a raise comes before `FOUND` and `CRC` are written, and records `NONE_ERROR`. -/
theorem searchCommandsFrame : Obligations.SearchCommandsFrame := by
  intro i s t hi hrst ht
  rw [exec_search hi] at ht
  have hQ := during_busClosed (searched_runClosed (s := s))
  have hE := during_busClosed (beforeFound_runClosed (s := s))
  have hbracket := bracket_triple hE hQ (fun _ => hE) (search_searches i.searchByte)
    (fun _ _ => trivial) (fun _ _ => trivial) fun _ _ _ => trivial
  have hstart : During (BeforeFound s) (accept s) :=
    ⟨⟨rfl, hrst⟩, ⟨rfl, rfl, rfl, rfl⟩, fun h => ⟨rfl, rfl, h⟩, rfl⟩
  obtain ⟨u, ⟨_, hu⟩, rfl⟩ | ⟨e, u, ⟨_, hu⟩, rfl⟩ | ⟨u, -, rfl⟩ := runCommand_cases hbracket hstart ht
  · exact .inr (searched_runClosed u _ hu rfl)
  · obtain ⟨hfound, hend, hrest⟩ := hu
    exact .inr ⟨fun _ => hfound, hend, by rw [hrest]; rfl⟩
  · exact .inl rfl

end Sys2Proof.Machine
end

section
/-!
SUPPORT. The CRC-8 function: a byte enters by exclusive or, so a CRC run over itself is 0 and each byte is one
look-up in the table; then the two commands that evaluate a CRC without the bus (42_crc8.md R180 to R187).
-/

namespace Sys2Proof.Machine

/-! ## One byte -/

/-- A bit step sees the CRC and the byte only through their exclusive or, and shifts both alike
(42_crc8.md R182). -/
theorem crcBit_xor_shiftRight (crc b : Byte) : crcBit crc b ^^^ (b >>> 1) = crcBit (crc ^^^ b) 0#8 := by
  unfold crcBit
  rw [BitVec.xor_zero, BitVec.ushiftRight_xor_distrib]
  split
  · ac_rfl
  · rfl

@[simp] theorem crcBits_zero_zero (n : Nat) : crcBits n 0#8 0#8 = 0#8 := by
  induction n with
  | zero => rfl
  | succ n ih => exact ih

/-- `n` bit steps commute with adding the byte, which is then what is left of it (42_crc8.md R182). -/
theorem crcBits_xor_shiftRight (n : Nat) (crc b : Byte) :
    crcBits n crc b ^^^ (b >>> n) = crcBits n (crc ^^^ b) 0#8 := by
  induction n generalizing crc b with
  | zero => simp [crcBits]
  | succ n ih =>
    calc crcBits n (crcBit crc b) (b >>> 1) ^^^ (b >>> (n + 1))
        = crcBits n (crcBit crc b) (b >>> 1) ^^^ ((b >>> 1) >>> n) := by
          rw [Nat.add_comm, BitVec.shiftRight_add]
      _ = crcBits n (crcBit crc b ^^^ (b >>> 1)) 0#8 := ih _ _
      _ = crcBits n (crcBit (crc ^^^ b) 0#8) 0#8 := by rw [crcBit_xor_shiftRight]

/-- Eight steps use the byte up, so only its exclusive or with the CRC matters (42_crc8.md R181). -/
theorem crcByte_eq_xor (crc b : Byte) : crcByte crc b = crcByte (crc ^^^ b) 0#8 := by
  have h := crcBits_xor_shiftRight 8 crc b
  rwa [BitVec.ushiftRight_eq_zero le_rfl, BitVec.xor_zero] at h

/-- The byte may enter with the CRC already added, from start value 0 (42_crc8.md R181). -/
theorem crcByte_eq_zero_xor (crc b : Byte) : crcByte crc b = crcByte 0#8 (crc ^^^ b) := by
  rw [crcByte_eq_xor crc b, crcByte_eq_xor 0#8, BitVec.zero_xor]

@[simp] theorem crcByte_self (c : Byte) : crcByte c c = 0#8 := by
  rw [crcByte_eq_xor, BitVec.xor_self]
  exact crcBits_zero_zero 8

/-! ## Sequences -/

theorem crc8_append (seed : Byte) (m d : List Byte) : crc8 seed (m ++ d) = crc8 (crc8 seed m) d :=
  List.foldl_append

/-- A sequence with its own CRC appended has CRC 0 (42_crc8.md R182). -/
theorem crc8_append_crc8 (seed : Byte) (m : List Byte) : crc8 seed (m ++ [crc8 seed m]) = 0 := by
  rw [crc8_append]
  exact crcByte_self _

theorem addrBytes_eq_append (a : Addr) : addrBytes a = firstBytes a 7 ++ [byteAt a 7] := rfl

/-- A valid address has CRC 0 (42_crc8.md R184). -/
theorem crc8z_addrBytes {a : Addr} (h : addrCrc a = byteAt a 7) : crc8z (addrBytes a) = 0 := by
  rw [addrBytes_eq_append, ← h]
  exact crc8_append_crc8 0 _

/-- Settles O45: the last step adds the CRC to itself. -/
theorem crcResidueIsZero : Obligations.CrcResidueIsZero := by
  refine ⟨crc8_append_crc8, fun a ha => ⟨crc8z_addrBytes ha, fun d => ?_⟩⟩
  exact (crc8_append 0 _ d).trans (congrArg (crc8 · d) (crc8z_addrBytes ha))

/-! ## The table -/

/-- Entry `i` of the printed table is the CRC of the byte `i` (42_crc8.md R181). -/
theorem crcTable_eq_map :
    crcTable = (List.range 256).map fun i => crcByte 0#8 (BitVec.ofNat 8 i) := by decide +kernel

theorem crcTable_getD (i : Byte) : crcTable.getD i.toNat 0 = crcByte 0#8 i := by
  simp [crcTable_eq_map, i.isLt]

/-- Settles O46: a byte enters by exclusive or with the CRC, and the table lists the CRC of each byte. -/
theorem crcTableFormAgrees : Obligations.CrcTableFormAgrees := by
  refine ⟨fun i => (crcTable_getD i).symm, fun seed m => ?_⟩
  simp only [crcTable_getD, ← crcByte_eq_zero_xor]
  rfl

/-! ## The commands -/

/-- The flag of an evaluation that finds the two bytes equal (42_crc8.md R183). -/
theorem State.crcEval_of_eq {c x : Byte} (s : State) (h : c = x) :
    s.crcEval c x = { s with crcComputed := c, crcExpected := x, crcOk := true } := by
  rw [State.crcEval, beq_iff_eq.2 h]

/-- The flag of an evaluation that finds them different (42_crc8.md R183). -/
theorem State.crcEval_of_ne {c x : Byte} (s : State) (h : c ≠ x) :
    s.crcEval c x = { s with crcComputed := c, crcExpected := x, crcOk := false } := by
  rw [State.crcEval, beq_eq_false_iff_ne.2 h]

section
variable {body : Op Unit} {s : State} {c x : Byte} (hq : Quiet s)
include hq

/-- A command that does one CRC evaluation and nothing else (42_crc8.md R183). -/
theorem runCommand_crcEval (h : body.run (accept s) = .ok () ((accept s).crcEval c x)) :
    runCommand false body s = .next ((s.afterCommand 0 [] s.line).crcEval c x) :=
  runCommand_ok hq h hq (congrArg (State.crcEval c x) (complete_accept s))

/-- A command that does one CRC evaluation and raises at once (42_crc8.md R183, R186). -/
theorem runCommand_crcEval_raise {e : Error}
    (h : body.run (accept s) = .error (.raised e) ((accept s).crcEval c x)) :
    runCommand false body s = .next ((s.afterRaise e 0 [] s.line).crcEval c x) := by
  refine runCommand_raise hq h hq ?_
  rw [State.afterRaise, ← complete_accept]
  rfl

end

/-- Settles O47: the body is one CRC check, which returns or raises after the evaluation. -/
theorem checkRomComparesTheCrc : Obligations.CheckRomComparesTheCrc := by
  intro s hq c x
  have hcheck := checkCrc_run c x (accept s)
  by_cases hcx : c = x
  · rw [if_pos hcx] at hcheck ⊢
    rw [← State.crcEval_of_eq _ hcx]
    exact runCommand_crcEval hq ((Op.run_get_bind _ _).trans hcheck)
  · rw [if_neg hcx] at hcheck ⊢
    rw [← State.crcEval_of_ne _ hcx]
    exact runCommand_crcEval_raise hq ((Op.run_get_bind _ _).trans hcheck)

/-- Settles O48: `LEN` passes its check, and the rest of the body is one CRC evaluation. -/
theorem computeReportsTheCrc : Obligations.ComputeReportsTheCrc := by
  intro seed len s hq hlen
  exact runCommand_crcEval hq (Op.bind_ok _ (checkLen_ok (accept s) hlen))

end Sys2Proof.Machine
end

section
/-!
SUPPORT. What the select and transaction commands do when nothing lands and every bus event completes `OK`
(43_select_transactions.md R200 to R207).
-/

namespace Sys2Proof.Machine

/-- The `r` bytes read stand in `BUF` from index 0 on, the others are kept (43_select_transactions.md R205). -/
theorem byteAt_storeBytes_allRead (s : State) (e r : Nat) (buf : Buffer) {j : Nat} (hj : j < 16) :
    byteAt (storeBytes (s.bytesRead e r) 0 buf) j
      = if j < r then s.byteRead (e + 24 * j) else byteAt buf j := by
  have hread := byteAt_storeBytes_bytesRead s e (e + 24 * r) buf hj
  have hcount : (e + 24 * r - e) / 24 = r := by omega
  have hcomplete : e + 24 * j + 24 ≤ e + 24 * r ↔ j < r := by omega
  simpa only [hcount, hcomplete] using hread

theorem firstBytes_length {n : Nat} (v : BitVec n) (count : Nat) : (firstBytes v count).length = count := by
  simp [firstBytes]

section
variable {s : State} {k r e : Nat} {bs : List Byte} (hq : Quiet s) (hk : WireHighAfter s k)
  (he : s.resetEvents k + 153 + 17 * bs.length = e) (hb : BusOk s (e + 24 * r))
include hq hk he hb

/-- A transaction that writes the bytes `bs` and reads `r` bytes from event `e` on. The line that the select
sequence leaves is the one that the payload leaves, also when it is empty (43_select_transactions.md R203). -/
theorem transaction_sendPayload_ran (a : Addr) :
    (transaction a (sendPayload bs) r).run s = .ok (s.bytesRead e r)
      (({ s with
          presence := s.presenceSeen k
          buf := storeBytes (s.bytesRead e r) 0 s.buf }).ran (e + 24 * r)
        (s.resetTrace k ++ selectTrace a s.parasite ++ writeBytesTrace bs s.parasite ++ s.readBytesTrace e r)
        (if r = 0 then lineAfter s.parasite else .released)) := by
  subst he
  refine transaction_ran hq hb hk le_rfl fun u hu hbu hpar n tr hn => ?_
  have hsent := sendPayload_ran hu hbu (e := tr) (l := lineAfter s.parasite) bs hn
  rwa [hpar, ite_self] at hsent

/-- A command that, past its acceptance check, is such a transaction (43_select_transactions.md R203). -/
theorem runCommand_transaction {body : Op Unit} {a : Addr}
    (hbody : body.run (accept s) = (transaction a (sendPayload bs) r >>= fun _ => pure ()).run (accept s)) :
    runCommand false body s = .next { s.afterCommand (e + 24 * r)
        (s.resetTrace k ++ selectTrace a s.parasite ++ writeBytesTrace bs s.parasite ++ s.readBytesTrace e r)
        (if r = 0 then lineAfter s.parasite else .released) with
      presence := s.presenceSeen k
      buf := storeBytes (s.bytesRead e r) 0 s.buf } := by
  have hrun := transaction_sendPayload_ran (s := accept s) hq hk he hb a
  exact runCommand_ok hq (hbody.trans (Op.bind_ok _ hrun)) hq rfl

end

/-- Settles O34: the body is the select sequence with the address in `ROM`. -/
theorem selectSendsTheRom : Obligations.SelectSendsTheRom := by
  intro s hq hb
  have hselect := selectDevice_ran (s := accept s) hq hb (n := 0) (e := []) (l := s.line) s.rom le_rfl
  exact runCommand_returns hq ((Op.run_get_bind _ _).trans hselect) hq rfl

/-- Settles O35: a transaction that reads no byte. -/
theorem transactionWritesTheBuffer : Obligations.TransactionWritesTheBuffer := by
  intro len k s hq hlen hk hb
  have hcheck := checkLen_ok (accept s) hlen
  have hcount := congrArg (s.resetEvents k + 153 + 17 * ·) (firstBytes_length s.buf len.toNat)
  have hrun : exec (.rsWrite len) s = _ :=
    runCommand_transaction (r := 0) hq hk hcount hb (Op.run_check_get hcheck _)
  rwa [show ∀ e, s.readBytesTrace e 0 = [] from fun _ => rfl, List.append_nil] at hrun

/-- Settles O36: a transaction that writes no byte. -/
theorem transactionReadsIntoTheBuffer : Obligations.TransactionReadsIntoTheBuffer := by
  intro len k s hq hlen hk hb
  have hcheck := checkLen_ok (accept s) hlen
  have hrun : exec (.rsRead len) s = _ :=
    runCommand_transaction (bs := []) hq hk rfl hb (Op.run_check_get hcheck _)
  rw [show writeBytesTrace [] s.parasite = [] from rfl, List.append_nil] at hrun
  exact ⟨_, fun j hj => byteAt_storeBytes_allRead s _ _ s.buf hj, hrun⟩

end Sys2Proof.Machine
end

section
/-!
SUPPORT. The DS18B20 layer: the split of a raw temperature, and what the four commands of the layer do when
nothing lands and every bus event completes `OK` (44_ds18b20.md R220 to R229).
-/

namespace Sys2Proof.Machine

/-! ## The temperature split -/

/-- The two branches of the split, as quotient and remainder of the magnitude by 16 (44_ds18b20.md R226). -/
theorem split_cases (raw : BitVec 16) :
    (0 ≤ raw.toInt ∧ splitInt raw = raw.toInt / 16 ∧ splitFrac raw = raw.toInt % 16 * 625) ∨
    (raw.toInt < 0 ∧ splitInt raw = -(-raw.toInt / 16) ∧ splitFrac raw = -(-raw.toInt % 16 * 625)) := by
  rw [splitInt, splitFrac, Nat.shiftRight_eq_div_pow, Nat.and_two_pow_sub_one_eq_mod _ 4]
  by_cases h : 0 ≤ raw.toInt
  · rw [if_pos h, if_pos h]
    omega
  · rw [if_neg h, if_neg h]
    omega

theorem splitInt_bounds (raw : BitVec 16) : -2048 ≤ splitInt raw ∧ splitInt raw ≤ 2047 := by
  have hlo : -32768 ≤ raw.toInt := raw.le_toInt
  have hhi : raw.toInt < 32768 := raw.toInt_lt
  obtain ⟨_, hint, _⟩ | ⟨_, hint, _⟩ := split_cases raw <;> omega

theorem splitFrac_bounds (raw : BitVec 16) : -9375 ≤ splitFrac raw ∧ splitFrac raw ≤ 9375 := by
  obtain ⟨_, _, hfrac⟩ | ⟨_, _, hfrac⟩ := split_cases raw <;> omega

/-- Settles O53: quotient and remainder give the magnitude back, and both parts take the sign of the raw
value. -/
theorem splitIsExact : Obligations.SplitIsExact := by
  intro raw
  obtain ⟨hsign, hint, hfrac⟩ | ⟨hsign, hint, hfrac⟩ := split_cases raw
  · exact ⟨by omega, by omega, by omega⟩
  · exact ⟨by omega, by omega, by omega⟩

/-! ## The packed split -/

/-- The low half reads back as the integer part, which fits (44_ds18b20.md R227). -/
theorem toInt_packedSplit_low (raw : BitVec 16) :
    ((packedSplit raw).extractLsb' 0 16).toInt = splitInt raw := by
  obtain ⟨hlo, hhi⟩ := splitInt_bounds raw
  rw [packedSplit, BitVec.extractLsb'_append_eq_right]
  exact BitVec.toInt_ofInt_eq_self (by decide) (by omega) (by omega)

/-- The high half reads back as the fraction, which fits (44_ds18b20.md R227). -/
theorem toInt_packedSplit_high (raw : BitVec 16) :
    ((packedSplit raw).extractLsb' 16 16).toInt = splitFrac raw := by
  obtain ⟨hlo, hhi⟩ := splitFrac_bounds raw
  rw [packedSplit, BitVec.extractLsb'_append_eq_left]
  exact BitVec.toInt_ofInt_eq_self (by decide) (by omega) (by omega)

/-- Settles O52: the body writes the packed split and nothing else. -/
theorem splitTempPacksBothParts : Obligations.SplitTempPacksBothParts := by
  intro s hq
  have hrun : exec .splitTemp s = .next { s.afterCommand 0 [] s.line with
      tempSplit := packedSplit (s.data.extractLsb' 0 16) } :=
    runCommand_returns hq (EStateM.run_modify _ _) hq rfl
  exact ⟨_, toInt_packedSplit_low _, toInt_packedSplit_high _, hrun⟩

/-! ## The binding -/

/-- The guard of the raise in `DS_BIND` (44_ds18b20.md R220, R221). -/
theorem familyGuard_iff (force : Bool) (actual : Byte) :
    (!force && actual != familyCode) = true ↔ ¬(force = true ∨ actual = 0x28) := by
  simp [familyCode]

/-- Settles O49: the family check raises at once or lets the body bind. -/
theorem bindChecksTheFamilyCode : Obligations.BindChecksTheFamilyCode := by
  intro force s hq
  have hguard := familyGuard_iff force (byteAt s.rom 0)
  by_cases hpass : force = true ∨ byteAt s.rom 0 = 0x28
  · rw [if_pos hpass]
    exact runCommand_returns hq ((Op.run_get_bind _ _).trans
      ((congrArg (EStateM.run · _) (if_neg fun h => hguard.1 h hpass)).trans
        (EStateM.run_modify _ _))) hq rfl
  · rw [if_neg hpass]
    exact runCommand_raise_at_acceptance hq ((Op.run_get_bind _ _).trans
      ((congrArg (EStateM.run · _) (if_pos (hguard.2 hpass))).trans
        (Op.bind_error _ (Op.run_raise _ _))))

/-! ## The measurement -/

/-- The wait table as a choice by the code of the resolution (44_ds18b20.md R222, 10_state.md R26). -/
theorem waitMsOf_eq (res : BitVec 2) :
    waitMsOf res = if res = 0 then 94 else if res = 1 then 188 else if res = 2 then 375 else 750 := by
  revert res
  decide

/-- Settles O50: a transaction that sends Convert and reads no byte, then the look-up of the wait. -/
theorem startConvertsAndReportsTheWait : Obligations.StartConvertsAndReportsTheWait := by
  intro k s hq hvalid hk hb
  have hcheck := checkSensor_ok (s := accept s) hvalid
  have hsent := transaction_sendPayload_ran (s := accept s) (bs := [0x44]) (r := 0) hq hk rfl hb s.sensor
  rw [show ∀ e, (accept s).readBytesTrace e 0 = [] from fun _ => rfl, List.append_nil] at hsent
  rw [← waitMsOf_eq]
  exact runCommand_ok hq ((Op.run_check_get hcheck _).trans (Op.bind_ok _ hsent)) hq rfl

/-! ## The scratchpad -/

/-- Bytes stored from index 0 on read back in order (43_select_transactions.md R205). -/
theorem byteAt_storeBytes_zero {bs : List Byte} (buf : Buffer) {j : Nat} (hj : j < bs.length)
    (hlen : bs.length ≤ 16) : byteAt (storeBytes bs 0 buf) j = bs.getD j 0 := by
  rw [byteAt_storeBytes _ _ _ _ (by omega), if_pos (by omega), Nat.sub_zero]

theorem firstBytes_storeBytes {bs : List Byte} (buf : Buffer) {n : Nat} (hn : n ≤ bs.length)
    (hlen : bs.length ≤ 16) : firstBytes (storeBytes bs 0 buf) n = bs.take n := by
  refine List.ext_getElem (by simp [firstBytes, hn]) fun j hj _ => ?_
  have hjn : j < n := firstBytes_length (storeBytes bs 0 buf) n ▸ hj
  have hbyte := byteAt_storeBytes_zero buf (hjn.trans_le hn) hlen
  simp [firstBytes, hbyte, hjn.trans_le hn]

theorem bytesRead_length (s : State) (e r : Nat) : (s.bytesRead e r).length = r := by
  simp [State.bytesRead]

section
variable {c x : Byte}

/-- A CRC check of two equal bytes passes and sets the flag (42_crc8.md R183). -/
theorem checkCrc_ok (h : c = x) (s : State) : (checkCrc c x).run s
    = .ok () { s with crcComputed := c, crcExpected := x, crcOk := true } := by
  rw [checkCrc_run, if_pos h, State.crcEval_of_eq s h]

/-- A CRC check of two different bytes raises with both and clears the flag (42_crc8.md R183). -/
theorem checkCrc_raise (h : c ≠ x) (s : State) : (checkCrc c x).run s
    = .error (.raised (.crcMismatch c x)) { s with crcComputed := c, crcExpected := x, crcOk := false } := by
  rw [checkCrc_run, if_neg h, State.crcEval_of_ne s h]

end

/-- Settles O51: a transaction that sends Read Scratchpad and reads nine bytes, then the CRC check over them,
which raises or lets the body decode the temperature. -/
theorem readChecksAndDecodesTheScratchpad : Obligations.ReadChecksAndDecodesTheScratchpad := by
  intro k e s hq hvalid hk he hb
  have hcheck := checkSensor_ok (s := accept s) hvalid
  have hlen := bytesRead_length s e 9
  have hfirst : (List.range 8).map (byteAt (storeBytes (s.bytesRead e 9) 0 s.buf))
      = (s.bytesRead e 9).take 8 := firstBytes_storeBytes s.buf (by omega) (by omega)
  have hbyte : ∀ j < 9, byteAt (storeBytes (s.bytesRead e 9) 0 s.buf) j = (s.bytesRead e 9).getD j 0 :=
    fun j hj => byteAt_storeBytes_zero s.buf (by omega) (by omega)
  refine ⟨_, fun j hj => byteAt_storeBytes_allRead s e 9 s.buf hj, ?_⟩
  rw [hfirst, hbyte 8 (by decide), hbyte 1 (by decide), hbyte 0 (by decide)]
  intro c x raw events
  have hread := transaction_sendPayload_ran (s := accept s) (bs := [0xBE]) (r := 9) hq hk he.symm hb s.sensor
  by_cases h : c = x
  · rw [if_pos h]
    exact runCommand_ok hq ((Op.run_check_get hcheck _).trans ((Op.bind_ok _ hread).trans
      ((Op.run_get_bind _ _).trans (Op.bind_ok _ (checkCrc_ok h _))))) hq rfl
  · rw [if_neg h]
    exact runCommand_raise hq ((Op.run_check_get hcheck _).trans ((Op.bind_ok _ hread).trans
      ((Op.run_get_bind _ _).trans (Op.bind_error _ (checkCrc_raise h _))))) hq rfl

end Sys2Proof.Machine
end

section
/-!
SUPPORT. The control command, which does nothing beyond acceptance (45_control.md R240).
-/

namespace Sys2Proof.Machine

/-- Settles O23: the body returns in the accepted state, and completing that is `afterCommand` of no events. -/
theorem nopOnlyClearsErr : Obligations.NopOnlyClearsErr := by
  intro s hq
  have hbody : (pure () : Op Unit).run (accept s) = .ok () (accept s) := EStateM.run_pure () (accept s)
  exact runCommand_ok hq hbody hq (complete_accept s)

end Sys2Proof.Machine
end

section
/-!
SUPPORT. Which errors a host command can raise, for every bus and every schedule of events: until a raise is
recorded a command writes neither `ERR` nor `ERR_INFO`, and each piece raises from its own list
(60_exceptions.md R250 to R256).
-/

namespace Sys2Proof.Machine

/-! ## Pieces of a command -/

/-- In the course of a command nothing has been recorded: `ERR` is as acceptance left it and `ERR_INFO` as it
was in `s` (30_encoding.md R86, 60_exceptions.md R256). -/
abbrev Unrecorded (s u : State) : Prop :=
  (u.busy = true ∧ u.rst = false) ∧ u.err = .none ∧ u.errInfo = s.errInfo

theorem unrecorded_busClosed (s : State) : BusClosed (Unrecorded s) where
  running := fun _ h => h.1
  closed := fun u t h ht => by rw [ht]; exact h

/-- A piece of a command that raises only errors with one of these codes, and records none itself. -/
abbrev Op.RaisesOnly {α : Type} (s : State) (errs : List ErrCode) (x : Op α) : Prop :=
  Op.Triple (Unrecorded s) x (fun _ => Unrecorded s) (fun e u => Unrecorded s u ∧ e.code ∈ errs)
    fun _ => True

section
variable {α β : Type} {s : State} {errs : List ErrCode}

theorem Op.RaisesOnly.of_portFails {x : Op α}
    (h : Op.Triple (Unrecorded s) x (fun _ => Unrecorded s) (PortFails (Unrecorded s)) (Unrecorded s))
    (hport : ErrCode.portError ∈ errs := by simp [canRaise]) : Op.RaisesOnly s errs x := by
  refine h.mono (fun _ h => h) (fun _ _ h => h) ?_ fun _ _ => trivial
  rintro _ u ⟨⟨code, rfl⟩, hu⟩
  exact ⟨hu, hport⟩

theorem Op.RaisesOnly.of_resetFails {x : Op α}
    (h : Op.Triple (Unrecorded s) x (fun _ => Unrecorded s) (ResetFails (Unrecorded s)) (Unrecorded s))
    (hport : ErrCode.portError ∈ errs := by simp [canRaise])
    (hwire : ErrCode.wireNotHigh ∈ errs := by simp [canRaise]) : Op.RaisesOnly s errs x := by
  refine h.mono (fun _ h => h) (fun _ _ h => h) ?_ fun _ _ => trivial
  rintro _ u ⟨⟨code, rfl⟩ | rfl, hu⟩
  · exact ⟨hu, hport⟩
  · exact ⟨hu, hwire⟩

theorem raise_raisesOnly {e : Error} (he : e.code ∈ errs := by simp [canRaise, Error.code]) :
    Op.RaisesOnly s errs (raise e : Op α) := .raise fun _ h => ⟨h, he⟩

theorem getBind_raisesOnly {f : State → Op β} (h : ∀ a, Op.RaisesOnly s errs (f a)) :
    Op.RaisesOnly s errs (get >>= f) :=
  .getBind fun a => (h a).pre fun _ h => h.1

theorem modifyBind_raisesOnly {f : State → State} {g : Unit → Op β}
    (hf : ∀ u, Unrecorded s u → Unrecorded s (f u)) (hg : ∀ a, Op.RaisesOnly s errs (g a)) :
    Op.RaisesOnly s errs (modify f >>= g) :=
  (Op.Triple.onModify hf).bind hg

theorem setResult_raisesOnly (r : SrchResult) : Op.RaisesOnly s errs (setResult r) :=
  ((moment_keeps (unrecorded_busClosed s)).mono (fun _ h => h) (fun _ _ h => h) (fun _ _ h => h)
    fun _ _ => trivial).bind fun _ => .onModify fun _ h => h

theorem checkLen_raisesOnly (len : BitVec 5) (h : ErrCode.badCommand ∈ errs := by simp [canRaise]) :
    Op.RaisesOnly s errs (checkLen len) :=
  .ite (fun _ => raise_raisesOnly h) fun _ => .pure fun _ h => h

theorem checkSensor_raisesOnly (h : ErrCode.noSensor ∈ errs := by simp [canRaise]) :
    Op.RaisesOnly s errs checkSensor :=
  getBind_raisesOnly fun _ => .ite (fun _ => .pure fun _ h => h) fun _ => raise_raisesOnly h

theorem checkCrc_raisesOnly (c x : Byte) (h : ErrCode.crcMismatch ∈ errs := by simp [canRaise]) :
    Op.RaisesOnly s errs (checkCrc c x) :=
  modifyBind_raisesOnly (fun _ h => h) fun _ =>
    .ite (fun _ => .pure fun _ h => h) fun _ => raise_raisesOnly h

/-- A transaction raises what its bus reset and its bus events can (43_select_transactions.md R203). -/
theorem transaction_raisesOnly (a : Addr) (bs : List Byte) (r : Nat)
    (hport : ErrCode.portError ∈ errs := by simp [canRaise])
    (hwire : ErrCode.wireNotHigh ∈ errs := by simp [canRaise]) :
    Op.RaisesOnly s errs (transaction a (sendPayload bs) r) :=
  .of_resetFails (transaction_keeps (unrecorded_busClosed s) (fun _ _ h => h) (fun _ _ _ _ h => h)
    (sendPayload_keeps (unrecorded_busClosed s) bs)) hport hwire

theorem search_raisesOnly (b : Byte)
    (hport : ErrCode.portError ∈ errs := by simp [canRaise])
    (hwire : ErrCode.wireNotHigh ∈ errs := by simp [canRaise]) :
    Op.RaisesOnly s errs (search (writeByteSeq b false)) :=
  have hP := unrecorded_busClosed s
  .of_resetFails (search_keeps hP (writeByteSeq_keeps hP b false) (fun _ _ h => h) (fun _ _ _ h => h)
    (fun _ _ h => h) (fun _ _ h => h) (fun _ _ h => h) fun _ _ _ h => h) hport hwire

end

/-! ## Commands -/

/-- A command whose body raises from a list leaves an error of that list, or none (60_exceptions.md R251). -/
theorem runCommand_raisesOnly {isSearch : Bool} {body : Op Unit} {errs : List ErrCode} {s t : State}
    (hrst : s.rst = false) (ht : runCommand isSearch body s = .next t)
    (hbody : Op.RaisesOnly s errs body) :
    t.rst = true ∨ (t.err = .none ∧ t.errInfo = s.errInfo) ∨ t.err ∈ errs := by
  have hP := unrecorded_busClosed s
  have hbracket := bracket_triple hP hP (fun e => hP.and fun _ _ h _ => h) hbody
    (fun _ _ => trivial) (fun _ _ => trivial) fun _ _ _ => trivial
  have hstart : Unrecorded s (accept s) := ⟨⟨rfl, hrst⟩, rfl, rfl⟩
  obtain ⟨u, ⟨-, hnone⟩, rfl⟩ | ⟨e, u, ⟨-, he⟩, rfl⟩ | ⟨u, -, rfl⟩ :=
    runCommand_cases hbracket hstart ht
  · exact .inr (.inl hnone)
  · exact .inr (.inr he)
  · exact .inl rfl

/-- Settles O59: each command's body is made of pieces that raise from the command's list. -/
theorem commandsRaiseOnlyTheirErrors : Obligations.CommandsRaiseOnlyTheirErrors := by
  intro i s t hhost hrst ht
  have hP := unrecorded_busClosed s
  cases i with
  | nop => exact runCommand_raisesOnly hrst ht (.pure fun _ h => h)
  | owReset =>
    exact runCommand_raisesOnly hrst ht ((Op.RaisesOnly.of_resetFails
      (busReset_keeps hP fun _ _ h => h)).bind fun _ => .pure fun _ h => h)
  | owReadBit =>
    exact runCommand_raisesOnly hrst ht ((Op.RaisesOnly.of_portFails (readSlot_keeps hP)).bind fun _ =>
      .onModify fun _ h => h)
  | owWriteBit v => exact runCommand_raisesOnly hrst ht (.of_portFails (writeSlot_keeps hP v))
  | owReadByte =>
    exact runCommand_raisesOnly hrst ht ((Op.RaisesOnly.of_portFails (readBits_keeps hP _ _ _)).bind fun _ =>
      .onModify fun _ h => h)
  | owWriteByte hold =>
    exact runCommand_raisesOnly hrst ht (getBind_raisesOnly fun _ =>
      .of_portFails (writeByteSeq_keeps hP _ hold))
  | owSelect =>
    exact runCommand_raisesOnly hrst ht (getBind_raisesOnly fun _ => .of_portFails (selectDevice_keeps hP _))
  | searchInit =>
    exact runCommand_raisesOnly hrst ht (modifyBind_raisesOnly (fun _ h => h) fun _ =>
      setResult_raisesOnly _)
  | searchNext | searchAlarm => exact runCommand_raisesOnly hrst ht (search_raisesOnly _)
  | crcCheckRom => exact runCommand_raisesOnly hrst ht (getBind_raisesOnly fun _ => checkCrc_raisesOnly _ _)
  | crc8Compute seed len =>
    exact runCommand_raisesOnly hrst ht ((checkLen_raisesOnly len).bind fun _ => .onModify fun _ h => h)
  | rsWrite len | rsRead len =>
    exact runCommand_raisesOnly hrst ht ((checkLen_raisesOnly len).bind fun _ => getBind_raisesOnly fun _ =>
      (transaction_raisesOnly _ _ _).bind fun _ => .pure fun _ h => h)
  | dsBind force =>
    exact runCommand_raisesOnly hrst ht (getBind_raisesOnly fun _ => .ite (fun _ => raise_raisesOnly) fun _ =>
      .onModify fun _ h => h)
  | dsStart =>
    exact runCommand_raisesOnly hrst ht (.bind checkSensor_raisesOnly fun _ => getBind_raisesOnly fun _ =>
      (transaction_raisesOnly _ [0x44] _).bind fun _ => .onModify fun _ h => h)
  | dsRead =>
    exact runCommand_raisesOnly hrst ht (.bind checkSensor_raisesOnly fun _ => getBind_raisesOnly fun _ =>
      (transaction_raisesOnly _ [0xBE] _).bind fun _ => getBind_raisesOnly fun _ =>
      (checkCrc_raisesOnly _ _).bind fun _ => .onModify fun _ h => h)
  | splitTemp => exact runCommand_raisesOnly hrst ht (.onModify fun _ h => h)
  | reserved1213 op | reserved1417 op | reserved181F op =>
    exact runCommand_raisesOnly hrst ht raise_raisesOnly
  | wireSearchRom | wireAlarmSearch | wireSelectRom | wireConvertT | wireReadScratchpad =>
    exact absurd hhost nofun

end Sys2Proof.Machine
end

section
/-!
SUPPORT. How many bus events each piece of a command can issue, from every state, for every bus and every
schedule of events (70_reset_and_hazards.md R298): the state a piece leaves holds at most so many more bus
events in its trace, whether the piece returned, raised, or was abandoned. Every piece leaves a state, given
that a bus event completes (log entry 19).
-/

namespace Sys2Proof.Machine

/-! ## Counting -/

/-- The state a piece of a command leaves, however it ends. -/
def leftState {α : Type} : EStateM.Result Stop State α → State
  | .ok _ t => t
  | .error _ t => t

/-- The bus events of a state's trace. -/
abbrev State.busEvents (s : State) : Nat := busCount s.world.trace

/-- `x` issues at most `n` bus events, from any state and however it ends. -/
def Op.AtMost {α : Type} (n : Nat) (x : Op α) : Prop :=
  ∀ s, (leftState (x.run s)).busEvents ≤ s.busEvents + n

namespace Op.AtMost
variable {α β : Type} {n m : Nat}

theorem mono {x : Op α} (h : Op.AtMost n x) (hn : n ≤ m) : Op.AtMost m x := fun s =>
  (h s).trans (Nat.add_le_add_left hn _)

theorem bind {x : Op α} {f : α → Op β} (hx : Op.AtMost n x) (hf : ∀ a, Op.AtMost m (f a)) :
    Op.AtMost (n + m) (x >>= f) := by
  intro s
  have hxs := hx s
  cases hr : x.run s with
  | ok a t =>
    rw [hr] at hxs
    rw [bind_ok f hr]
    calc (leftState ((f a).run t)).busEvents
      _ ≤ t.busEvents + m := hf a t
      _ ≤ s.busEvents + n + m := Nat.add_le_add_right hxs m
      _ = s.busEvents + (n + m) := Nat.add_assoc ..
  | error e t =>
    rw [hr] at hxs
    rw [bind_error f hr]
    exact hxs.trans (by omega)

theorem pure (a : α) : Op.AtMost n (Pure.pure a : Op α) := fun _ => Nat.le_add_right _ _

theorem raise (e : Error) : Op.AtMost n (Machine.raise e : Op α) := fun _ => Nat.le_add_right _ _

theorem getBind {f : State → Op α} (h : ∀ a, Op.AtMost n (f a)) :
    Op.AtMost n (MonadState.get >>= f) := fun s => h s s

/-- A write of registers is no bus event. -/
theorem onModify {f : State → State} (h : ∀ s, (f s).world.trace = s.world.trace) :
    Op.AtMost 0 (modify f) := fun s => (congrArg busCount (h s)).le

theorem modifyBind {f : State → State} {g : Unit → Op α}
    (h : ∀ s, (f s).world.trace = s.world.trace) (hg : ∀ a, Op.AtMost n (g a)) :
    Op.AtMost n (modify f >>= g) := ((onModify h).bind hg).mono (Nat.zero_add n).le

theorem thenModify {x : Op α} {f : α → State → State} (hx : Op.AtMost n x)
    (h : ∀ a s, (f a s).world.trace = s.world.trace) : Op.AtMost n (x >>= fun a => modify (f a)) :=
  hx.bind fun a => onModify (h a)

theorem ite {c : Prop} [Decidable c] {x y : Op α} (hx : Op.AtMost n x) (hy : Op.AtMost n y) :
    Op.AtMost n (if c then x else y) := by
  split
  · exact hx
  · exact hy

end Op.AtMost

/-! ## Moments and single bus events -/

theorem trace_hostAccess (a : Access) (s : State) : (hostAccess a s).world.trace = s.world.trace := by
  rw [hostAccess_onlyHost a s]

theorem trace_setRst (level : Bool) (s : State) : (setRst level s).world.trace = s.world.trace := by
  unfold setRst
  split <;> rfl

/-- What lands puts nothing on the bus, not even a reset (70_reset_and_hazards.md R280). -/
theorem trace_landAll (l : List Arrival) (s : State) : (landAll l s).2.world.trace = s.world.trace := by
  fun_induction landAll l s with
  | case1 | case2 | case3 => rfl
  | case4 s a rest ih => rw [ih, trace_hostAccess]
  | case5 s rest => rw [trace_setRst, State.withInbox_trace]
  | case6 s rest ih => rw [ih, trace_setRst]

theorem moment_atMost : Op.AtMost 0 moment := by
  intro s
  have h := trace_landAll s.world.inbox s
  simp only [moment, EStateM.run]
  generalize landAll s.world.inbox s = landed at h ⊢
  obtain ⟨_ | _, t⟩ := landed <;> exact (congrArg busCount h).le

theorem momentBind_atMost {α : Type} {n : Nat} {f : Unit → Op α} (h : Op.AtMost n (f ())) :
    Op.AtMost n (moment >>= f) := (moment_atMost.bind fun _ => h).mono (Nat.zero_add n).le

theorem busCount_cons_le (e : BusEvent) (tr : List BusEvent) : busCount (e :: tr) ≤ busCount tr + 1 := by
  rw [busCount, busCount, List.countP_cons]
  split <;> omega

/-- A bus event is one entry of the trace, completed or failed (log entry 17). -/
theorem takeReply_atMost (p : Prim) (seen : Bool → BusEvent) : Op.AtMost 1 (takeReply p seen) := by
  intro s
  simp only [takeReply, EStateM.run, nextReply_eq]
  cases s.replyAt 0 with
  | ok level => exact busCount_cons_le _ _
  | err code => exact busCount_cons_le _ _

theorem busEvent_atMost (p : Prim) (seen : Bool → BusEvent) : Op.AtMost 1 (busEvent p seen) :=
  momentBind_atMost (takeReply_atMost p seen)

theorem driveLow_atMost : Op.AtMost 1 driveLow :=
  (busEvent_atMost _ _).thenModify fun _ _ => rfl

theorem release_atMost : Op.AtMost 1 release :=
  (busEvent_atMost _ _).thenModify fun _ _ => rfl

theorem holdHigh_atMost : Op.AtMost 1 holdHigh :=
  (busEvent_atMost _ _).thenModify fun _ _ => rfl

theorem sample_atMost : Op.AtMost 1 sample := busEvent_atMost _ _

/-- A wait is no bus event (40_bit_transport.md R124). -/
theorem delay_atMost (t : DelayName) : Op.AtMost 0 (delay t) :=
  momentBind_atMost fun s => (busCount_delay t s.world.trace).le

/-! ## Slots and bytes -/

theorem readSlot_atMost : Op.AtMost 3 readSlot :=
  driveLow_atMost.bind fun _ => (delay_atMost _).bind fun _ => release_atMost.bind fun _ =>
    (delay_atMost _).bind fun _ => sample_atMost.bind fun _ => (delay_atMost _).bind fun _ => .pure (n := 0) _

theorem writeSlot_atMost (v : Bool) : Op.AtMost 2 (writeSlot v) :=
  driveLow_atMost.bind fun _ => (delay_atMost _).bind fun _ => release_atMost.bind fun _ => delay_atMost _

theorem readBits_atMost : ∀ (n i : Nat) (acc : Byte), Op.AtMost (3 * n) (readBits n i acc)
  | 0, _, acc => .pure acc
  | n + 1, _, _ => (readSlot_atMost.bind fun _ => readBits_atMost n _ _).mono (by omega)

theorem readByteSeq_atMost : Op.AtMost 24 readByteSeq := readBits_atMost 8 0 0

theorem writeBits_atMost : ∀ (n i : Nat) (b : Byte), Op.AtMost (2 * n) (writeBits n i b)
  | 0, _, _ => .pure ()
  | n + 1, _, _ => ((writeSlot_atMost _).bind fun _ => writeBits_atMost n _ _).mono (by omega)

theorem writeByteSeq_atMost (b : Byte) (hold : Bool) : Op.AtMost 17 (writeByteSeq b hold) :=
  (writeBits_atMost 8 0 b).bind fun _ => .ite holdHigh_atMost release_atMost

theorem writeBytes_atMost (hold : Bool) : ∀ bs : List Byte, Op.AtMost (17 * bs.length) (writeBytes bs hold)
  | [] => .pure ()
  | [b] => writeByteSeq_atMost b hold
  | _ :: c :: rest =>
    ((writeByteSeq_atMost _ _).bind fun _ => writeBytes_atMost hold (c :: rest)).mono (by
      rw [List.length_cons (as := c :: rest)]
      omega)

/-! ## The bus reset and transactions -/

theorem pollWireHigh_atMost : ∀ n : Nat, Op.AtMost n (pollWireHigh n)
  | 0 => .raise _
  | n + 1 =>
    (sample_atMost.bind fun _ =>
      .ite (.pure ()) ((delay_atMost _).bind fun _ => pollWireHigh_atMost n)).mono (by omega)

theorem presenceWindow_atMost : ∀ (n : Nat) (p : Bool), Op.AtMost n (presenceWindow n p)
  | 0, p => .pure p
  | n + 1, _ =>
    ((delay_atMost _).bind fun _ => sample_atMost.bind fun _ => presenceWindow_atMost n _).mono (by omega)

/-- A held line is released first, then polled 125 times at most (40_bit_transport.md R127). -/
theorem ensureWireHigh_atMost : Op.AtMost 126 ensureWireHigh :=
  .getBind fun _ => .ite (release_atMost.bind fun _ => pollWireHigh_atMost nWh) 
    ((pollWireHigh_atMost nWh).mono (by decide))

/-- The low pulse and its release, then the seven samples of the window (40_bit_transport.md R128). -/
theorem busReset_atMost : Op.AtMost 135 busReset :=
  ensureWireHigh_atMost.bind fun _ => driveLow_atMost.bind fun _ => (delay_atMost _).bind fun _ =>
    release_atMost.bind fun _ => (delay_atMost _).bind fun _ => (presenceWindow_atMost nPres _).bind fun p =>
    (delay_atMost _).bind fun _ =>
    .modifyBind (f := fun s => { s with presence := p }) (fun _ => rfl) fun _ => .pure (n := 0) p

theorem selectDevice_atMost (a : Addr) : Op.AtMost 153 (selectDevice a) :=
  (writeByteSeq_atMost 0x55 false).bind fun _ => .getBind fun s =>
    addrBytes_length a ▸ writeBytes_atMost s.parasite (addrBytes a)

theorem sendPayload_atMost (bs : List Byte) : Op.AtMost (17 * bs.length) (sendPayload bs) :=
  .getBind fun s => writeBytes_atMost s.parasite bs

theorem readIntoBuf_atMost : ∀ r k : Nat, Op.AtMost (24 * r) (readIntoBuf r k)
  | 0, _ => .pure []
  | r + 1, k =>
    (readByteSeq_atMost.bind fun b =>
      .modifyBind (f := fun s => { s with buf := setByte s.buf k b }) (fun _ => rfl) fun _ =>
      (readIntoBuf_atMost r (k + 1)).bind fun bs => .pure (n := 0) (b :: bs)).mono (by omega)

/-- Reset, select, the payload, and 24 events a byte read (43_select_transactions.md R203). -/
theorem transaction_atMost (a : Addr) {payload : Op Unit} {n : Nat} (hpay : Op.AtMost n payload) (r : Nat) :
    Op.AtMost (288 + n + 24 * r) (transaction a payload r) :=
  (busReset_atMost.bind fun _ => (selectDevice_atMost a).bind fun _ => hpay.bind fun _ =>
    readIntoBuf_atMost r 0).mono (by omega)

/-! ## The search -/

theorem setResult_atMost (r : SrchResult) : Op.AtMost 0 (setResult r) :=
  momentBind_atMost (.onModify fun _ => rfl)

theorem replay_atMost : ∀ n i : Nat, Op.AtMost (8 * n) (replay n i)
  | 0, _ => .pure true
  | n + 1, i =>
    (readSlot_atMost.bind fun _ => readSlot_atMost.bind fun _ => .ite (.pure false)
      (.getBind fun s => (writeSlot_atMost (s.saddr.getLsbD i)).bind fun _ =>
        replay_atMost n (i + 1))).mono (by omega)

theorem decideBit_atMost (i : Nat) (disc : Option Bool) (dir : Bool) :
    Op.AtMost 2 (decideBit i disc dir) := by
  rw [decideBit_eq]
  exact .modifyBind (fun _ => rfl) fun _ => writeSlot_atMost dir

theorem discover_atMost (ld : Option Nat) : ∀ (n i : Nat) (new : Bool),
    Op.AtMost (8 * n) (discover ld n i new)
  | 0, _, new => .pure (some new)
  | n + 1, i, _ => by
    have hgo (disc : Option Bool) (dir new : Bool) :
        Op.AtMost (2 + 8 * n) (decideBit i disc dir >>= fun _ => discover ld n (i + 1) new) :=
      (decideBit_atMost i disc dir).bind fun _ => discover_atMost ld n (i + 1) new
    exact .mono (n := 3 + (3 + (2 + 8 * n))) (readSlot_atMost.bind fun _ => readSlot_atMost.bind fun _ =>
      .ite (hgo _ _ _) (.ite (.pure none) (.ite (hgo _ _ _) (hgo _ _ _)))) (by omega)

theorem foundDevice_atMost (new : Bool) : Op.AtMost 0 (foundDevice new) :=
  .modifyBind (fun _ => rfl) fun _ => .modifyBind (fun _ => rfl) fun _ =>
    (setResult_atMost _).bind (m := 0) fun _ => momentBind_atMost (.onModify fun _ => rfl)

theorem discoverFrom_atMost (ld : Option Nat) (start : Nat) :
    Op.AtMost (8 * (64 - start)) (discoverFrom ld start) :=
  (discover_atMost ld (64 - start) start false).bind (m := 0) fun
    | some new => foundDevice_atMost new
    | none => setResult_atMost _

theorem endSearch_atMost : Op.AtMost 0 endSearch :=
  momentBind_atMost (.modifyBind (fun _ => rfl) fun _ => setResult_atMost _)

/-- Replay and discovery share the 64 bits of an address, eight events a bit (70_reset_and_hazards.md
R298). -/
theorem search_atMost {send : Op Unit} (hsend : Op.AtMost 17 send) : Op.AtMost 664 (search send) := by
  have hres {n : Nat} (r : SrchResult) : Op.AtMost n (setResult r) := (setResult_atMost r).mono n.zero_le
  refine .getBind fun _ => .ite (hres _) (.bind busReset_atMost fun _ => .ite
    (.bind hsend fun _ => .getBind (n := 512) fun s => ?_) (hres _))
  cases hld : lastDiscrepancy s.sdisc with
  | some ld =>
    have hlt : ld < 64 := ((highestBelow_some _ _ _).1 hld).1
    exact .mono (n := 8 * ld + 8 * (64 - ld)) ((replay_atMost ld 0).bind fun _ =>
      .ite (discoverFrom_atMost (some ld) ld) (hres _)) (by omega)
  | none => exact .ite (endSearch_atMost.mono (Nat.zero_le _)) (discoverFrom_atMost none 0)

/-! ## Checks -/

/-- A count above 16 ends the command at once (60_exceptions.md R253). -/
theorem checkLenBind_atMost {len : BitVec 5} {f : Unit → Op Unit} {n : Nat}
    (h : len.toNat ≤ 16 → Op.AtMost n (f ())) : Op.AtMost n (checkLen len >>= f) := by
  unfold checkLen
  split
  · exact fun s => Nat.le_add_right _ _
  · exact h (by omega)

theorem checkSensor_atMost : Op.AtMost 0 checkSensor := .getBind fun _ => .ite (.pure ()) (.raise _)

theorem checkCrc_atMost (c x : Byte) : Op.AtMost 0 (checkCrc c x) :=
  .modifyBind (fun _ => rfl) fun _ => .ite (.pure ()) (.raise _)

/-! ## Commands -/

/-- The last moment issues nothing, whether the body returned or raised. -/
theorem landLast_atMost {body : Op Unit} {n : Nat} (h : Op.AtMost n body) : Op.AtMost n (landLast body) := by
  intro s
  have hbody := h s
  simp only [landLast, EStateM.run] at hbody ⊢
  cases hr : body s with
  | ok _ u =>
    rw [hr] at hbody
    exact (moment_atMost u).trans hbody
  | error e u =>
    rw [hr] at hbody
    cases e with
    | abandoned => exact hbody
    | raised e =>
      refine le_trans ?_ ((moment_atMost u).trans hbody)
      simp only [EStateM.run]
      cases moment u <;> exact le_rfl

/-- Completion puts nothing on the bus. -/
theorem trace_finish (isSearch : Bool) (r : EStateM.Result Stop State Unit) :
    (finish isSearch r).world.trace = (leftState r).world.trace := by
  obtain ⟨_, s⟩ | ⟨_ | _, s⟩ := r <;> rfl

/-- Every run ends in a next state, after at most `n` bus events. -/
def EndsWithin (n : Nat) (run : State → Host.Outcome State Fault Refusal) : Prop :=
  ∀ s, ∃ t, run s = .next t ∧ t.busEvents ≤ s.busEvents + n

section
variable {body : Op Unit} {n k : Nat}

theorem finish_atMost (isSearch : Bool) (h : Op.AtMost n body) (hn : n ≤ k) (s : State) :
    (finish isSearch ((bracket body).run s)).busEvents ≤ s.busEvents + k := by
  have hbracket : Op.AtMost k (bracket body) := momentBind_atMost ((landLast_atMost h).mono hn)
  rw [State.busEvents, trace_finish]
  exact hbracket s

theorem runCommand_endsWithin {isSearch : Bool} (h : Op.AtMost n body) (hn : n ≤ k) :
    EndsWithin k (runCommand isSearch body) := fun s => ⟨_, rfl, finish_atMost isSearch h hn (accept s)⟩

theorem runWire_endsWithin (h : Op.AtMost n body) (hn : n ≤ k) : EndsWithin k (runWire body) := fun s =>
  ⟨_, rfl, finish_atMost false h hn s.wireBusy⟩

end

/-- The longest is a transaction that reads 16 bytes: 135 events of the bus reset, 153 of the select sequence
and 24 for each byte (70_reset_and_hazards.md R298). -/
theorem exec_endsWithin (i : Instr) : EndsWithin 672 (exec i) := by
  cases i with
  | nop => exact runCommand_endsWithin (.pure (n := 0) ()) (by decide)
  | owReset => exact runCommand_endsWithin (busReset_atMost.bind fun _ => .pure (n := 0) ()) (by decide)
  | owReadBit => exact runCommand_endsWithin (readSlot_atMost.thenModify fun _ _ => rfl) (by decide)
  | owWriteBit v => exact runCommand_endsWithin (writeSlot_atMost v) (by decide)
  | owReadByte => exact runCommand_endsWithin (readByteSeq_atMost.thenModify fun _ _ => rfl) (by decide)
  | owWriteByte hold =>
    exact runCommand_endsWithin (.getBind fun _ => writeByteSeq_atMost _ hold) (by decide)
  | owSelect => exact runCommand_endsWithin (.getBind fun _ => selectDevice_atMost _) (by decide)
  | searchInit =>
    exact runCommand_endsWithin (.modifyBind (fun _ => rfl) fun _ => setResult_atMost _) (by decide)
  | searchNext | searchAlarm =>
    exact runCommand_endsWithin (search_atMost (writeByteSeq_atMost _ false)) (by decide)
  | crcCheckRom => exact runCommand_endsWithin (.getBind fun _ => checkCrc_atMost _ _) (by decide)
  | crc8Compute seed len =>
    exact runCommand_endsWithin (checkLenBind_atMost fun _ => .onModify fun _ => rfl) (by decide)
  | rsWrite len =>
    refine runCommand_endsWithin (checkLenBind_atMost fun hlen => .getBind fun s => ?_) le_rfl
    refine ((transaction_atMost s.rom (sendPayload_atMost _) 0).bind fun _ => .pure (n := 0) ()).mono ?_
    rw [firstBytes_length]
    omega
  | rsRead len =>
    refine runCommand_endsWithin (checkLenBind_atMost fun hlen => .getBind fun s => ?_) le_rfl
    refine ((transaction_atMost s.rom (sendPayload_atMost []) _).bind fun _ => .pure (n := 0) ()).mono ?_
    rw [List.length_nil]
    omega
  | dsBind force =>
    exact runCommand_endsWithin (.getBind fun _ => .ite (.raise _) (.onModify fun _ => rfl)) (by decide)
  | dsStart =>
    exact runCommand_endsWithin (checkSensor_atMost.bind fun _ => .getBind fun _ =>
      (transaction_atMost _ (sendPayload_atMost [0x44]) 0).thenModify fun _ _ => rfl) (by decide)
  | dsRead =>
    exact runCommand_endsWithin (checkSensor_atMost.bind fun _ => .getBind fun _ =>
      (transaction_atMost _ (sendPayload_atMost [0xBE]) 9).bind fun _ => .getBind fun _ =>
      (checkCrc_atMost _ _).thenModify fun _ _ => rfl) (by decide)
  | splitTemp => exact runCommand_endsWithin (.onModify fun _ => rfl) (by decide)
  | reserved1213 op | reserved1417 op | reserved181F op =>
    exact runCommand_endsWithin (.raise (n := 0) _) (by decide)
  | wireSearchRom | wireAlarmSearch | wireSelectRom =>
    exact runWire_endsWithin (writeByteSeq_atMost _ false) (by decide)
  | wireConvertT => exact runWire_endsWithin (sendPayload_atMost [0x44]) (by decide)
  | wireReadScratchpad => exact runWire_endsWithin (sendPayload_atMost [0xBE]) (by decide)

/-- Settles O60: the bound of each command's body, which the moments around it and completion keep. -/
theorem everyCommandEnds : Obligations.EveryCommandEnds := exec_endsWithin

end Sys2Proof.Machine
end

section
/-!
SUPPORT. The reset input (70_reset_and_hazards.md R280, R281): what it leaves of an idle block, and of one in
the course of any instruction. Every instruction is a body run in a busy block, and a body ends with `RST`
asserted only where `RST` abandoned it.
-/

namespace Sys2Proof.Machine

/-! ## The values block reset gives -/

theorem regsReset_blockReset (level : Bool) (s : State) : RegsReset (blockReset level s) := rfl

/-- Of the state before it, block reset keeps only what is outside the block (70_reset_and_hazards.md R280). -/
theorem blockReset_congr {u s : State} (h : u.world = s.world) (level : Bool) :
    blockReset level u = blockReset level s := by
  unfold blockReset
  rw [h]

/-- Asserting `RST`, or releasing an asserted `RST`, is a block reset (70_reset_and_hazards.md R280). -/
theorem setRst_eq_blockReset {level : Bool} {s : State} (h : level = true ∨ s.rst = true) :
    setRst level s = blockReset level s := by
  rw [setRst, if_pos (by simpa using h)]

/-! ## What keeps a property that a moment keeps -/

section
variable {P : State → Prop} (hmoment : Op.Stays P moment)
include hmoment

theorem landLast_stays {body : Op Unit} (hbody : Op.Stays P body) : Op.Stays P (landLast body) := by
  intro s hs
  have hb := hbody s hs
  simp only [landLast, EStateM.run] at hb ⊢
  cases hr : body s with
  | ok _ u =>
    rw [hr] at hb
    exact hmoment u hb
  | error e u =>
    rw [hr] at hb
    cases e with
    | abandoned => exact hb
    | raised e =>
      have hm := hmoment u hb
      simp only [EStateM.run] at hm ⊢
      cases hl : moment u with
      | ok _ v =>
        rw [hl] at hm
        exact hm
      | error f v =>
        rw [hl] at hm
        cases f <;> exact hm

/-- The moments around a body keep what a moment and the body keep. -/
theorem bracket_stays {body : Op Unit} (hbody : Op.Stays P body) : Op.Stays P (bracket body) :=
  hmoment.bind fun _ => landLast_stays hmoment hbody

theorem setResult_stays (hresult : ∀ s r, P s → P { s with srchResult := r }) (r : SrchResult) :
    Op.Stays P (setResult r) :=
  hmoment.bind fun _ => .onModify fun s hs => hresult s r hs

end

theorem Op.Stays.modifyBind {α : Type} {P : State → Prop} {f : State → State} {g : Unit → Op α}
    (hf : ∀ s, P s → P (f s)) (hg : ∀ a, Op.Stays P (g a)) : Op.Stays P (modify f >>= g) :=
  (Op.Triple.onModify (Q := fun _ => P) hf).bind hg

/-! ## What every instruction runs -/

/-- A command is running, and `RST` has not landed. -/
abbrev Live (s : State) : Prop := s.busy = true ∧ s.rst = false

theorem live_busClosed : BusClosed Live where
  running := fun _ h => h
  closed := fun _ _ h ht => by rw [ht]; exact h

/-- `run` is the course of one body, with its moments and its completion, from a busy state `u` that has the
level of `RST` and the world of the given one; unless `RST` abandons the body, its end is live too. -/
def RunsLive (run : State → Host.Outcome State Fault Refusal) : Prop :=
  ∃ (isSearch : Bool) (body : Op Unit), Op.Stays Live body ∧ ∀ s, ∃ u : State,
    u.busy = true ∧ u.rst = s.rst ∧ u.world = s.world ∧
      run s = .next (finish isSearch ((bracket body).run u))

theorem runCommand_runsLive {body : Op Unit} {isSearch : Bool} (h : Op.Stays Live body) :
    RunsLive (runCommand isSearch body) :=
  ⟨isSearch, body, h, fun s => ⟨accept s, rfl, rfl, rfl, rfl⟩⟩

theorem runWire_runsLive {body : Op Unit} (h : Op.Stays Live body) : RunsLive (runWire body) :=
  ⟨false, body, h, fun s => ⟨s.wireBusy, rfl, rfl, rfl, rfl⟩⟩

theorem transaction_live (a : Addr) (bs : List Byte) (r : Nat) :
    Op.Stays Live (transaction a (sendPayload bs) r) :=
  transaction_stays live_busClosed (fun _ _ h => h) (fun _ _ _ _ h => h) a bs

theorem search_live (b : Byte) : Op.Stays Live (search (writeByteSeq b false)) :=
  .of_resetFails (search_keeps live_busClosed (writeByteSeq_keeps live_busClosed b false) (fun _ _ h => h)
    (fun _ _ _ h => h) (fun _ _ h => h) (fun _ _ h => h) (fun _ _ h => h) fun _ _ _ h => h)

/-- No instruction writes `BUSY` or the level of `RST` in its course. -/
theorem exec_runsLive (i : Instr) : RunsLive (exec i) := by
  have hP := live_busClosed
  cases i with
  | nop => exact runCommand_runsLive (.pure fun _ h => h)
  | owReset =>
    exact runCommand_runsLive ((Op.Stays.of_resetFails (busReset_keeps hP fun _ _ h => h)).bind fun _ =>
      .pure fun _ h => h)
  | owReadBit =>
    exact runCommand_runsLive ((Op.Stays.of_portFails (readSlot_keeps hP)).thenModify fun _ _ h => h)
  | owWriteBit v => exact runCommand_runsLive (.of_portFails (writeSlot_keeps hP v))
  | owReadByte =>
    exact runCommand_runsLive ((Op.Stays.of_portFails (readBits_keeps hP _ _ _)).thenModify fun _ _ h => h)
  | owWriteByte hold => exact runCommand_runsLive (.getBind fun _ => .of_portFails (writeByteSeq_keeps hP _ hold))
  | owSelect => exact runCommand_runsLive (.getBind fun _ => .of_portFails (selectDevice_keeps hP _))
  | searchInit =>
    exact runCommand_runsLive (.modifyBind (fun _ h => h) fun _ =>
      setResult_stays (moment_keeps hP) (fun _ _ h => h) _)
  | searchNext | searchAlarm => exact runCommand_runsLive (search_live _)
  | crcCheckRom => exact runCommand_runsLive (.getBind fun _ => checkCrc_stays (fun _ _ _ h => h) _ _)
  | crc8Compute seed len => exact runCommand_runsLive (Op.Stays.thenModify (checkLen_stays len) fun _ _ h => h)
  | rsWrite len | rsRead len =>
    exact runCommand_runsLive ((checkLen_stays len).bind fun _ => Op.Stays.getBind fun _ =>
      (transaction_live _ _ _).bind fun _ => .pure fun _ h => h)
  | dsBind force =>
    exact runCommand_runsLive (.getBind fun _ => .ite (fun _ => .raise fun _ h => h) fun _ =>
      .onModify fun _ h => h)
  | dsStart =>
    exact runCommand_runsLive (checkSensor_stays.bind fun _ => Op.Stays.getBind fun _ =>
      Op.Stays.thenModify (transaction_live _ [0x44] _) fun _ _ h => h)
  | dsRead =>
    exact runCommand_runsLive (checkSensor_stays.bind fun _ => Op.Stays.getBind fun _ =>
      (transaction_live _ [0xBE] _).bind fun _ => Op.Stays.getBind fun _ =>
      Op.Stays.thenModify (checkCrc_stays (fun _ _ _ h => h) _ _) fun _ _ h => h)
  | splitTemp => exact runCommand_runsLive (.onModify fun _ h => h)
  | reserved1213 op | reserved1417 op | reserved181F op =>
    exact runCommand_runsLive (.raise fun _ h => h)
  | wireSearchRom | wireAlarmSearch | wireSelectRom =>
    exact runWire_runsLive (.of_portFails (writeByteSeq_keeps hP _ _))
  | wireConvertT => exact runWire_runsLive (.of_portFails (sendPayload_keeps hP [0x44]))
  | wireReadScratchpad => exact runWire_runsLive (.of_portFails (sendPayload_keeps hP [0xBE]))

/-! ## Where `RST` lands -/

/-- A body that returned or raised ended with `RST` low, and completion leaves it so; an abandoned one left
the reset state (70_reset_and_hazards.md R281). -/
theorem regsReset_finish {body : Op Unit} (hbody : Op.Stays Live body) {s : State} (hs : Live s)
    (isSearch : Bool) (hrst : (finish isSearch ((bracket body).run s)).rst = true) :
    RegsReset (finish isSearch ((bracket body).run s)) := by
  have h := bracket_stays (moment_keeps live_busClosed) hbody s hs
  cases hr : (bracket body).run s with
  | ok _ u =>
    rw [hr] at h hrst
    exact absurd (h.2.symm.trans hrst) nofun
  | error e u =>
    rw [hr] at h hrst
    cases e with
    | raised e => exact absurd (h.2.symm.trans hrst) nofun
    | abandoned =>
      obtain ⟨v, -, rfl⟩ := h
      exact regsReset_blockReset true v

/-- `RST` due at once ends the first moment, whatever is behind it in the queue (log entry 21). -/
theorem bracket_reset_due {s : State} {rest : List Arrival}
    (h : s.world.inbox = ⟨.after 0, .rst true⟩ :: rest) (body : Op Unit) :
    (bracket body).run s = .error .abandoned (blockReset true (s.withInbox rest)) := by
  have hmoment : moment.run s = .error .abandoned (blockReset true (s.withInbox rest)) := by
    simp only [moment, EStateM.run, h, landAll, setRst_eq_blockReset (.inl rfl)]
  exact Op.bind_error _ hmoment

/-! ## The obligations -/

/-- Settles O14: the body of every instruction ends with `RST` asserted only where it was abandoned. -/
theorem resetLandsAsReset : Obligations.ResetLandsAsReset := by
  intro i s t hrst ht hreset
  obtain ⟨isSearch, body, hbody, hrun⟩ := exec_runsLive i
  obtain ⟨u, hbusy, hlevel, -, hexec⟩ := hrun s
  obtain rfl := Host.Outcome.next.inj (hexec.symm.trans ht)
  exact regsReset_finish hbody ⟨hbusy, hlevel.trans hrst⟩ isSearch hreset

/-- Settles O12: both levels are block resets, and the access port looks at `RST` first. -/
theorem resetInputHoldsTheBlock : Obligations.ResetInputHoldsTheBlock := by
  intro s
  refine ⟨?_, fun hrst => ?_, fun hrst off lanes v => ⟨?_, ?_, commandWord_write_none (.inl hrst)⟩⟩
  · rw [setRst_eq_blockReset (.inl rfl)]
    exact ⟨regsReset_blockReset true s, rfl, rfl, rfl⟩
  · rw [setRst_eq_blockReset (.inr hrst)]
    exact ⟨regsReset_blockReset false s, rfl, rfl, rfl⟩
  · simp [hostAccess, hostWrite, hrst]
  · simp [hostAccess, hostRead, unspecifiedRead, hrst]

/-- Settles O13: the first moment comes before the body, and a reset keeps nothing of acceptance. -/
theorem resetAtAcceptanceAbandons : Obligations.ResetAtAcceptanceAbandons := by
  intro i s rest hinbox
  obtain ⟨isSearch, body, -, hrun⟩ := exec_runsLive i
  obtain ⟨u, -, -, hworld, hexec⟩ := hrun s
  have hdue : u.world.inbox = ⟨.after 0, .rst true⟩ :: rest := by rw [hworld, hinbox]
  have hsame : (u.withInbox rest).world = (s.withInbox rest).world :=
    congrArg (fun w => { w with inbox := rest }) hworld
  rw [hexec, bracket_reset_due hdue body, blockReset_congr hsame]
  rfl

end Sys2Proof.Machine
end

section
/-!
SUPPORT. The commands without bus activity (70_reset_and_hazards.md R295, R297): a moment changes only what
host accesses can (`State.withHost`), so a command whose body is moments and register writes leaves the line,
the bus and the operands as they are.
-/

namespace Sys2Proof.Machine

/-! ## What a moment changes -/

/-- An access to a running block changes its host side alone (20_memory.md R66, R69). -/
theorem hostAccess_running (a : Access) {s : State} (hs : Live s) :
    ∃ h, hostAccess a s = s.withHost h := by
  cases a with
  | read off lanes =>
    obtain ⟨v, n, -, hread⟩ := hostRead_eq_reply off lanes s
    exact ⟨{ s.hostSide with
      replies := ⟨off, lanes, laneMask lanes v⟩ :: s.world.replies, readDraws := s.world.readDraws + n },
      hread⟩
  | write off lanes v =>
    exact ⟨{ s.hostSide with ovr := ovrAfterEvent s.ovr (.access (.write off lanes v)) },
      hostWrite_running hs.1 hs.2 off lanes v⟩

/-- What lands at one moment changes the host side, until `RST` is asserted (20_memory.md R66;
70_reset_and_hazards.md R280). -/
theorem landAll_live (l : List Arrival) (s : State) (hs : Live s) :
    ∃ h, landAll l s = (false, s.withHost h) ∨ landAll l s = (true, blockReset true (s.withHost h)) := by
  fun_induction landAll l s with
  | case1 s => exact ⟨{ s.hostSide with inbox := [] }, .inl rfl⟩
  | case2 e rest s => exact ⟨{ s.hostSide with inbox := ⟨.whenIdle, e⟩ :: rest }, .inl rfl⟩
  | case3 n e rest s => exact ⟨{ s.hostSide with inbox := ⟨.after n, e⟩ :: rest }, .inl rfl⟩
  | case4 a rest s ih =>
    obtain ⟨h, ha⟩ := hostAccess_running a hs
    rw [ha] at ih ⊢
    exact ih hs
  | case5 rest s => exact ⟨{ s.hostSide with inbox := rest }, .inr rfl⟩
  | case6 rest s ih =>
    have hlow : setRst false s = s := if_neg (by simp [hs.2])
    rw [hlow] at ih ⊢
    exact ih hs

/-- What host accesses can change does not matter to the frame. -/
theorem moment_during {R : State → Prop} (hR : ∀ s h, R s → R (s.withHost h)) :
    Op.Stays (During R) moment := by
  rintro s ⟨hlive, hs⟩
  obtain ⟨h, hland | hland⟩ := landAll_live s.world.inbox s hlive
  · simp only [moment, EStateM.run, hland]
    exact ⟨hlive, hR s h hs⟩
  · simp only [moment, EStateM.run, hland]
    exact ⟨s.withHost h, ⟨hlive, hR s h hs⟩, rfl⟩

/-! ## Commands made of moments and register writes -/

/-- The line, the bus and its log, the timebase, `PRESENCE`, `CTRL`, `DATA`, `ROM` and `BUF` are as they
were. -/
abbrev BusUntouched (s t : State) : Prop :=
  t.line = s.line ∧ t.presence = s.presence ∧ t.world.bus = s.world.bus ∧
    t.world.trace = s.world.trace ∧ t.timebase = s.timebase ∧ t.data = s.data ∧ t.rom = s.rom ∧
    t.buf = s.buf ∧ t.parasite = s.parasite ∧ t.res = s.res

/-- Neither acceptance, completion nor a recorded error touches the bus. -/
theorem runCommand_busUntouched {body : Op Unit} {s t : State} (hrst : s.rst = false)
    (ht : runCommand false body s = .next t) (hbody : Op.Stays (During (BusUntouched s)) body) :
    t.rst = true ∨ BusUntouched s t := by
  have hbracket := bracket_stays (moment_during fun _ _ h => h) hbody
  have hstart : During (BusUntouched s) (accept s) :=
    ⟨⟨rfl, hrst⟩, rfl, rfl, rfl, rfl, rfl, rfl, rfl, rfl, rfl, rfl⟩
  obtain ⟨u, ⟨-, hu⟩, rfl⟩ | ⟨e, u, ⟨-, hu⟩, rfl⟩ | ⟨u, -, rfl⟩ := runCommand_cases hbracket hstart ht
  · exact .inr hu
  · exact .inr hu
  · exact .inl rfl

/-- Settles O58: each of these bodies is register writes and, in `SEARCH_INIT`, one moment. -/
theorem quietCommandsTouchNoBus : Obligations.QuietCommandsTouchNoBus := by
  intro i seed len op s t hi hrst ht
  have hcrc := checkCrc_stays (P := During (BusUntouched s)) fun _ _ _ h => h
  have hmoment := moment_during (R := BusUntouched s) fun _ _ h => h
  obtain rfl | rfl | rfl | rfl | rfl | rfl | hreserved := hi
  · exact runCommand_busUntouched hrst ht (.pure fun _ h => h)
  · exact runCommand_busUntouched hrst ht (.modifyBind (fun _ h => h) fun _ =>
      setResult_stays hmoment (fun _ _ h => h) _)
  · exact runCommand_busUntouched hrst ht (.getBind fun _ => hcrc _ _)
  · exact runCommand_busUntouched hrst ht (Op.Stays.thenModify (checkLen_stays len) fun _ _ h => h)
  · exact runCommand_busUntouched hrst ht (.getBind fun _ => .ite (fun _ => .raise fun _ h => h) fun _ =>
      .onModify fun _ h => h)
  · exact runCommand_busUntouched hrst ht (.onModify fun _ h => h)
  · obtain rfl | rfl | rfl := hreserved <;>
      exact runCommand_busUntouched hrst ht (.raise fun _ h => h)

end Sys2Proof.Machine
end
